-- ==== Sys2Proof/Word.lean ====
section
/-! DEFINITION. The word types of DVM64 (00_scope.md R6, R7): one machine word width of 64 bits
for integer registers, float bit patterns, pc, bp, immediates and segment indices, and the
128-bit instruction word. -/

namespace Sys2Proof

/-- A `u64`, or the 64 bits of a binary64 value (R6: `XLEN = FLEN = 64`). -/
abbrev Word := BitVec 64

/-- One byte of a serialized word or value (R214, R313). -/
abbrev Byte := BitVec 8

/-- One slot of the code segment (R6: `ILEN = 128`; R300). -/
abbrev InstrWord := BitVec 128

end Sys2Proof
end

