-- ==== Sys2Proof/Syntax.lean ====
section
/-! DEFINITION. The instructions of DVM64 in the in-memory shape that the spec calls authoritative
(00_scope.md R3, 30_encoding.md R311): an opcode tag with 0 to 3 typed operands. The two register
enumerations are disjoint and closed (R301, R304), so a term of `Instr` can only name a register of
the bank its operand requires: every term is well formed by construction. -/

namespace Sys2Proof

/-- The integer bank's names (10_state.md R100). -/
inductive XReg where
  | r0 | r1 | r2 | r3 | r4 | r5 | r6 | r7
  deriving DecidableEq, Repr

/-- The float bank's names (10_state.md R103). -/
inductive FReg where
  | f0 | f1 | f2 | f3 | f4 | f5 | f6 | f7
  deriving DecidableEq, Repr

/-- The 54 instructions of 30_encoding.md R305, in the table's order. Operands stand in the order
of fields A, B, C, then the immediate (R304). -/
inductive Instr where
  -- loop control (40_cycle.md)
  | nop
  | halt
  -- moves (41_move.md)
  | ldi (rd : XReg) (imm : Word)
  | ldf (fd : FReg) (imm : Word)
  | mov (rd rs : XReg)
  | movf (fd fs : FReg)
  -- integer arithmetic (42_int_arith.md)
  | add (rd rs1 rs2 : XReg)
  | sub (rd rs1 rs2 : XReg)
  | mul (rd rs1 rs2 : XReg)
  | addi (rd rs : XReg) (imm : Word)
  | subi (rd rs : XReg) (imm : Word)
  | muli (rd rs : XReg) (imm : Word)
  | div (rd rs1 rs2 : XReg)
  | mod (rd rs1 rs2 : XReg)
  -- float arithmetic (43_float_arith.md)
  | fadd (fd fs1 fs2 : FReg)
  | fsub (fd fs1 fs2 : FReg)
  | fmul (fd fs1 fs2 : FReg)
  | fdiv (fd fs1 fs2 : FReg)
  | faddi (fd fs : FReg) (imm : Word)
  | fsubi (fd fs : FReg) (imm : Word)
  | fmuli (fd fs : FReg) (imm : Word)
  | fdivi (fd fs : FReg) (imm : Word)
  -- bitwise and unary (44_bitwise_unary.md)
  | and (rd rs1 rs2 : XReg)
  | or (rd rs1 rs2 : XReg)
  | xor (rd rs1 rs2 : XReg)
  | not (rd rs : XReg)
  | neg (rd rs : XReg)
  | fneg (fd fs : FReg)
  | shl (rd rs : XReg)
  | shr (rd rs : XReg)
  -- heap and stack access (45_heap_stack_access.md)
  | ldh (rd ra : XReg)
  | ldhf (fd : FReg) (ra : XReg)
  | sth (rs ra : XReg)
  | sthf (fs : FReg) (ra : XReg)
  | lds (rd ro : XReg)
  | ldsf (fd : FReg) (ro : XReg)
  | sts (rs ro : XReg)
  | stsf (fs : FReg) (ro : XReg)
  -- jumps (46_jumps.md)
  | jmp (rt : XReg)
  | jo (rt : XReg)
  | jno (rt : XReg)
  | jeq (rt rs1 rs2 : XReg)
  | jne (rt rs1 rs2 : XReg)
  | jz (rt rs : XReg)
  | jnz (rt rs : XReg)
  -- push and pop (47_push_pop.md)
  | push (rs : XReg)
  | pushf (fs : FReg)
  | pop (rd : XReg)
  | popf (fd : FReg)
  -- call and return (48_call_ret.md)
  | call (rt : XReg)
  | ret
  -- system call and the reserved opcodes (49_syscall_reserved.md)
  | syscall (ri : XReg)
  | inp
  | out
  deriving DecidableEq, Repr

end Sys2Proof
end

