-- ==== Sys2Proof/WellFormed.lean ====
section
/-! DEFINITION. Which instruction words are legal, read from spec/opcode_table.json row by row
(match, mask, and the bank bit each used register field must have). It is written apart from the
decoder of Sys2Proof/Decode.lean, which follows the check list of 30_encoding.md R306, so that the
two transcriptions can be held against each other. A term of `Instr` needs no check of its own: its
operands are typed. -/

namespace Sys2Proof

/-- One row of spec/opcode_table.json: a word `w` has the row's shape when
`w AND mask = pattern`, and its register fields name the right banks when
`w AND bankMask = bankBits` (R308, R309). -/
structure OpcodeRow where
  mnemonic : String
  pattern : InstrWord
  mask : InstrWord
  bankMask : InstrWord
  bankBits : InstrWord
  deriving DecidableEq, Repr

/-- Rows NOP to HALT of spec/opcode_table.json. -/
def opcodeRowsLoop : List OpcodeRow := [
  ⟨"NOP", 0x00000000000000000000000000000000, 0xFFFFFFFFFFFFFFFFFFFFFFFFFFFFFFFF, 0x00000, 0x00000⟩,
  ⟨"HALT", 0x00000000000000000000000000000001, 0xFFFFFFFFFFFFFFFFFFFFFFFFFFFFFFFF, 0x00000, 0x00000⟩]

/-- Rows LDI to MOVF of spec/opcode_table.json. -/
def opcodeRowsMove : List OpcodeRow := [
  ⟨"LDI", 0x00000000000000000000000000000008, 0x0000000000000000FFFFFFFFFFFFF0FF, 0x00800, 0x00000⟩,
  ⟨"LDF", 0x00000000000000000000000000000009, 0x0000000000000000FFFFFFFFFFFFF0FF, 0x00800, 0x00800⟩,
  ⟨"MOV", 0x0000000000000000000000000000000A, 0xFFFFFFFFFFFFFFFFFFFFFFFFFFFF00FF, 0x08800, 0x00000⟩,
  ⟨"MOVF", 0x0000000000000000000000000000000B, 0xFFFFFFFFFFFFFFFFFFFFFFFFFFFF00FF, 0x08800, 0x08800⟩]

/-- Rows ADD to MOD of spec/opcode_table.json. -/
def opcodeRowsInt : List OpcodeRow := [
  ⟨"ADD", 0x00000000000000000000000000000010, 0xFFFFFFFFFFFFFFFFFFFFFFFFFFF000FF, 0x88800, 0x00000⟩,
  ⟨"SUB", 0x00000000000000000000000000000011, 0xFFFFFFFFFFFFFFFFFFFFFFFFFFF000FF, 0x88800, 0x00000⟩,
  ⟨"MUL", 0x00000000000000000000000000000012, 0xFFFFFFFFFFFFFFFFFFFFFFFFFFF000FF, 0x88800, 0x00000⟩,
  ⟨"ADDI", 0x00000000000000000000000000000013, 0x0000000000000000FFFFFFFFFFFF00FF, 0x08800, 0x00000⟩,
  ⟨"SUBI", 0x00000000000000000000000000000014, 0x0000000000000000FFFFFFFFFFFF00FF, 0x08800, 0x00000⟩,
  ⟨"MULI", 0x00000000000000000000000000000015, 0x0000000000000000FFFFFFFFFFFF00FF, 0x08800, 0x00000⟩,
  ⟨"DIV", 0x00000000000000000000000000000016, 0xFFFFFFFFFFFFFFFFFFFFFFFFFFF000FF, 0x88800, 0x00000⟩,
  ⟨"MOD", 0x00000000000000000000000000000017, 0xFFFFFFFFFFFFFFFFFFFFFFFFFFF000FF, 0x88800, 0x00000⟩]

/-- Rows FADD to FDIVI of spec/opcode_table.json. -/
def opcodeRowsFloat : List OpcodeRow := [
  ⟨"FADD", 0x00000000000000000000000000000020, 0xFFFFFFFFFFFFFFFFFFFFFFFFFFF000FF, 0x88800, 0x88800⟩,
  ⟨"FSUB", 0x00000000000000000000000000000021, 0xFFFFFFFFFFFFFFFFFFFFFFFFFFF000FF, 0x88800, 0x88800⟩,
  ⟨"FMUL", 0x00000000000000000000000000000022, 0xFFFFFFFFFFFFFFFFFFFFFFFFFFF000FF, 0x88800, 0x88800⟩,
  ⟨"FDIV", 0x00000000000000000000000000000023, 0xFFFFFFFFFFFFFFFFFFFFFFFFFFF000FF, 0x88800, 0x88800⟩,
  ⟨"FADDI", 0x00000000000000000000000000000024, 0x0000000000000000FFFFFFFFFFFF00FF, 0x08800, 0x08800⟩,
  ⟨"FSUBI", 0x00000000000000000000000000000025, 0x0000000000000000FFFFFFFFFFFF00FF, 0x08800, 0x08800⟩,
  ⟨"FMULI", 0x00000000000000000000000000000026, 0x0000000000000000FFFFFFFFFFFF00FF, 0x08800, 0x08800⟩,
  ⟨"FDIVI", 0x00000000000000000000000000000027, 0x0000000000000000FFFFFFFFFFFF00FF, 0x08800, 0x08800⟩]

/-- Rows AND to SHR of spec/opcode_table.json. -/
def opcodeRowsBits : List OpcodeRow := [
  ⟨"AND", 0x00000000000000000000000000000030, 0xFFFFFFFFFFFFFFFFFFFFFFFFFFF000FF, 0x88800, 0x00000⟩,
  ⟨"OR", 0x00000000000000000000000000000031, 0xFFFFFFFFFFFFFFFFFFFFFFFFFFF000FF, 0x88800, 0x00000⟩,
  ⟨"XOR", 0x00000000000000000000000000000032, 0xFFFFFFFFFFFFFFFFFFFFFFFFFFF000FF, 0x88800, 0x00000⟩,
  ⟨"NOT", 0x00000000000000000000000000000033, 0xFFFFFFFFFFFFFFFFFFFFFFFFFFFF00FF, 0x08800, 0x00000⟩,
  ⟨"NEG", 0x00000000000000000000000000000034, 0xFFFFFFFFFFFFFFFFFFFFFFFFFFFF00FF, 0x08800, 0x00000⟩,
  ⟨"FNEG", 0x00000000000000000000000000000035, 0xFFFFFFFFFFFFFFFFFFFFFFFFFFFF00FF, 0x08800, 0x08800⟩,
  ⟨"SHL", 0x00000000000000000000000000000036, 0xFFFFFFFFFFFFFFFFFFFFFFFFFFFF00FF, 0x08800, 0x00000⟩,
  ⟨"SHR", 0x00000000000000000000000000000037, 0xFFFFFFFFFFFFFFFFFFFFFFFFFFFF00FF, 0x08800, 0x00000⟩]

/-- Rows LDH to STSF of spec/opcode_table.json. -/
def opcodeRowsAccess : List OpcodeRow := [
  ⟨"LDH", 0x00000000000000000000000000000040, 0xFFFFFFFFFFFFFFFFFFFFFFFFFFFF00FF, 0x08800, 0x00000⟩,
  ⟨"LDHF", 0x00000000000000000000000000000041, 0xFFFFFFFFFFFFFFFFFFFFFFFFFFFF00FF, 0x08800, 0x00800⟩,
  ⟨"STH", 0x00000000000000000000000000000042, 0xFFFFFFFFFFFFFFFFFFFFFFFFFFFF00FF, 0x08800, 0x00000⟩,
  ⟨"STHF", 0x00000000000000000000000000000043, 0xFFFFFFFFFFFFFFFFFFFFFFFFFFFF00FF, 0x08800, 0x00800⟩,
  ⟨"LDS", 0x00000000000000000000000000000044, 0xFFFFFFFFFFFFFFFFFFFFFFFFFFFF00FF, 0x08800, 0x00000⟩,
  ⟨"LDSF", 0x00000000000000000000000000000045, 0xFFFFFFFFFFFFFFFFFFFFFFFFFFFF00FF, 0x08800, 0x00800⟩,
  ⟨"STS", 0x00000000000000000000000000000046, 0xFFFFFFFFFFFFFFFFFFFFFFFFFFFF00FF, 0x08800, 0x00000⟩,
  ⟨"STSF", 0x00000000000000000000000000000047, 0xFFFFFFFFFFFFFFFFFFFFFFFFFFFF00FF, 0x08800, 0x00800⟩]

/-- Rows JMP to JNZ of spec/opcode_table.json. -/
def opcodeRowsJump : List OpcodeRow := [
  ⟨"JMP", 0x00000000000000000000000000000050, 0xFFFFFFFFFFFFFFFFFFFFFFFFFFFFF0FF, 0x00800, 0x00000⟩,
  ⟨"JO", 0x00000000000000000000000000000051, 0xFFFFFFFFFFFFFFFFFFFFFFFFFFFFF0FF, 0x00800, 0x00000⟩,
  ⟨"JNO", 0x00000000000000000000000000000052, 0xFFFFFFFFFFFFFFFFFFFFFFFFFFFFF0FF, 0x00800, 0x00000⟩,
  ⟨"JEQ", 0x00000000000000000000000000000053, 0xFFFFFFFFFFFFFFFFFFFFFFFFFFF000FF, 0x88800, 0x00000⟩,
  ⟨"JNE", 0x00000000000000000000000000000054, 0xFFFFFFFFFFFFFFFFFFFFFFFFFFF000FF, 0x88800, 0x00000⟩,
  ⟨"JZ", 0x00000000000000000000000000000055, 0xFFFFFFFFFFFFFFFFFFFFFFFFFFFF00FF, 0x08800, 0x00000⟩,
  ⟨"JNZ", 0x00000000000000000000000000000056, 0xFFFFFFFFFFFFFFFFFFFFFFFFFFFF00FF, 0x08800, 0x00000⟩]

/-- Rows PUSH to POPF of spec/opcode_table.json. -/
def opcodeRowsStack : List OpcodeRow := [
  ⟨"PUSH", 0x00000000000000000000000000000060, 0xFFFFFFFFFFFFFFFFFFFFFFFFFFFFF0FF, 0x00800, 0x00000⟩,
  ⟨"PUSHF", 0x00000000000000000000000000000061, 0xFFFFFFFFFFFFFFFFFFFFFFFFFFFFF0FF, 0x00800, 0x00800⟩,
  ⟨"POP", 0x00000000000000000000000000000062, 0xFFFFFFFFFFFFFFFFFFFFFFFFFFFFF0FF, 0x00800, 0x00000⟩,
  ⟨"POPF", 0x00000000000000000000000000000063, 0xFFFFFFFFFFFFFFFFFFFFFFFFFFFFF0FF, 0x00800, 0x00800⟩]

/-- Rows CALL to OUT of spec/opcode_table.json. -/
def opcodeRowsSystem : List OpcodeRow := [
  ⟨"CALL", 0x00000000000000000000000000000070, 0xFFFFFFFFFFFFFFFFFFFFFFFFFFFFF0FF, 0x00800, 0x00000⟩,
  ⟨"RET", 0x00000000000000000000000000000071, 0xFFFFFFFFFFFFFFFFFFFFFFFFFFFFFFFF, 0x00000, 0x00000⟩,
  ⟨"SYSCALL", 0x00000000000000000000000000000072, 0xFFFFFFFFFFFFFFFFFFFFFFFFFFFFF0FF, 0x00800, 0x00000⟩,
  ⟨"IN", 0x0000000000000000000000000000007E, 0x000000000000000000000000000000FF, 0x00000, 0x00000⟩,
  ⟨"OUT", 0x0000000000000000000000000000007F, 0x000000000000000000000000000000FF, 0x00000, 0x00000⟩]
/-- The 54 rows of spec/opcode_table.json, in its order. -/
def opcodeTable : List OpcodeRow :=
  opcodeRowsLoop ++ opcodeRowsMove ++ opcodeRowsInt ++ opcodeRowsFloat ++ opcodeRowsBits ++
    opcodeRowsAccess ++ opcodeRowsJump ++ opcodeRowsStack ++ opcodeRowsSystem

/-- The row's fixed bits are as the row says: opcode, RSV, unused fields (R307, R308, R310). -/
def OpcodeRow.shapeOk (r : OpcodeRow) (w : InstrWord) : Bool := w &&& r.mask == r.pattern

/-- Every used register field names the bank its operand requires (R309). -/
def OpcodeRow.banksOk (r : OpcodeRow) (w : InstrWord) : Bool := w &&& r.bankMask == r.bankBits

/-- A word is well formed when it is a legal encoding of some row of the table. -/
def wellFormedWord (w : InstrWord) : Bool :=
  opcodeTable.any fun r => r.shapeOk w && r.banksOk w

end Sys2Proof
end

