-- ==== Sys2Proof/Decode.lean ====
section
/-! DEFINITION. The binary encoding of 30_encoding.md: the fields of a word (R300), the opcode map
(R305), decoding in the order of checks of R306, the encoder, and the byte serialization (R313). -/

namespace Sys2Proof

/-! ### The fields of a word -/

/-- The fields of an instruction word (R300). -/
structure Fields where
  opc : BitVec 8
  a : BitVec 4
  b : BitVec 4
  c : BitVec 4
  rsv : BitVec 44
  imm : Word
  deriving DecidableEq, Repr

/-- The fields of the word `w` (R300). -/
def fieldsOf (w : InstrWord) : Fields where
  opc := w.extractLsb' 0 8
  a := w.extractLsb' 8 4
  b := w.extractLsb' 12 4
  c := w.extractLsb' 16 4
  rsv := w.extractLsb' 20 44
  imm := w.extractLsb' 64 64

/-- The word that has the fields `r` (R300). -/
def wordOf (r : Fields) : InstrWord :=
  r.imm ++ r.rsv ++ r.c ++ r.b ++ r.a ++ r.opc

/-! ### Register specifiers -/

/-- The index of an integer register (R301). -/
def XReg.index : XReg → BitVec 3
  | .r0 => 0 | .r1 => 1 | .r2 => 2 | .r3 => 3 | .r4 => 4 | .r5 => 5 | .r6 => 6 | .r7 => 7

/-- The index of a float register (R301). -/
def FReg.index : FReg → BitVec 3
  | .f0 => 0 | .f1 => 1 | .f2 => 2 | .f3 => 3 | .f4 => 4 | .f5 => 5 | .f6 => 6 | .f7 => 7

/-- The integer register with index `i` (R301). -/
def XReg.ofIndex (i : BitVec 3) : XReg :=
  match i.toNat with
  | 0 => .r0 | 1 => .r1 | 2 => .r2 | 3 => .r3 | 4 => .r4 | 5 => .r5 | 6 => .r6 | _ => .r7

/-- The float register with index `i` (R301). -/
def FReg.ofIndex (i : BitVec 3) : FReg :=
  match i.toNat with
  | 0 => .f0 | 1 => .f1 | 2 => .f2 | 3 => .f3 | 4 => .f4 | 5 => .f5 | 6 => .f6 | _ => .f7

/-- The specifier of an integer register: bank bit 0 (R301). -/
def XReg.spec (r : XReg) : BitVec 4 := 0#1 ++ r.index

/-- The specifier of a float register: bank bit 1 (R301). -/
def FReg.spec (r : FReg) : BitVec 4 := 1#1 ++ r.index

/-- The integer register a specifier names, if its bank bit is 0 (R301, R309). -/
def XReg.ofSpec (s : BitVec 4) : Option XReg :=
  if s.getLsbD 3 then none else some (XReg.ofIndex (s.extractLsb' 0 3))

/-- The float register a specifier names, if its bank bit is 1 (R301, R309). -/
def FReg.ofSpec (s : BitVec 4) : Option FReg :=
  if s.getLsbD 3 then some (FReg.ofIndex (s.extractLsb' 0 3)) else none

/-! ### The opcode map -/

/-- What an opcode's row of R305 says of its operands: the format of R302 together with the kinds
of R304 (`X` an integer register, `F` a float register, `I` the immediate, in the order A, B, C,
IMM), and the instruction that the operands make. -/
inductive Shape where
  | n (i : Instr)
  | x (mk : XReg → Instr)
  | f (mk : FReg → Instr)
  | xx (mk : XReg → XReg → Instr)
  | ff (mk : FReg → FReg → Instr)
  | fx (mk : FReg → XReg → Instr)
  | xxx (mk : XReg → XReg → XReg → Instr)
  | fff (mk : FReg → FReg → FReg → Instr)
  | xi (mk : XReg → Word → Instr)
  | fi (mk : FReg → Word → Instr)
  | xxi (mk : XReg → XReg → Word → Instr)
  | ffi (mk : FReg → FReg → Word → Instr)
  | any (i : Instr)

/-- The opcode map of R305; `none` for the 202 unassigned opcodes of R307. -/
def opcodeShape (op : BitVec 8) : Option Shape :=
  match op.toNat with
  | 0x00 => some (.n .nop)
  | 0x01 => some (.n .halt)
  | 0x08 => some (.xi .ldi)
  | 0x09 => some (.fi .ldf)
  | 0x0A => some (.xx .mov)
  | 0x0B => some (.ff .movf)
  | 0x10 => some (.xxx .add)
  | 0x11 => some (.xxx .sub)
  | 0x12 => some (.xxx .mul)
  | 0x13 => some (.xxi .addi)
  | 0x14 => some (.xxi .subi)
  | 0x15 => some (.xxi .muli)
  | 0x16 => some (.xxx .div)
  | 0x17 => some (.xxx .mod)
  | 0x20 => some (.fff .fadd)
  | 0x21 => some (.fff .fsub)
  | 0x22 => some (.fff .fmul)
  | 0x23 => some (.fff .fdiv)
  | 0x24 => some (.ffi .faddi)
  | 0x25 => some (.ffi .fsubi)
  | 0x26 => some (.ffi .fmuli)
  | 0x27 => some (.ffi .fdivi)
  | 0x30 => some (.xxx .and)
  | 0x31 => some (.xxx .or)
  | 0x32 => some (.xxx .xor)
  | 0x33 => some (.xx .not)
  | 0x34 => some (.xx .neg)
  | 0x35 => some (.ff .fneg)
  | 0x36 => some (.xx .shl)
  | 0x37 => some (.xx .shr)
  | 0x40 => some (.xx .ldh)
  | 0x41 => some (.fx .ldhf)
  | 0x42 => some (.xx .sth)
  | 0x43 => some (.fx .sthf)
  | 0x44 => some (.xx .lds)
  | 0x45 => some (.fx .ldsf)
  | 0x46 => some (.xx .sts)
  | 0x47 => some (.fx .stsf)
  | 0x50 => some (.x .jmp)
  | 0x51 => some (.x .jo)
  | 0x52 => some (.x .jno)
  | 0x53 => some (.xxx .jeq)
  | 0x54 => some (.xxx .jne)
  | 0x55 => some (.xx .jz)
  | 0x56 => some (.xx .jnz)
  | 0x60 => some (.x .push)
  | 0x61 => some (.f .pushf)
  | 0x62 => some (.x .pop)
  | 0x63 => some (.f .popf)
  | 0x70 => some (.x .call)
  | 0x71 => some (.n .ret)
  | 0x72 => some (.x .syscall)
  | 0x7E => some (.any .inp)
  | 0x7F => some (.any .out)
  | _ => none

/-! ### Decoding -/

/-- What decoding a word gives: an instruction, or the fault it raises (R307-R309). -/
inductive Decoded where
  | ok (i : Instr)
  | illegalInstruction
  | invalidReg
  deriving DecidableEq, Repr

/-- The checks for zero bits of R306: RSV, then the register fields the format does not use, then
IMM in a format without an immediate (R302, R308). -/
def unusedClear (r : Fields) : Shape → Bool
  | .n _ => r.rsv == 0 && r.a == 0 && r.b == 0 && r.c == 0 && r.imm == 0
  | .x _ | .f _ => r.rsv == 0 && r.b == 0 && r.c == 0 && r.imm == 0
  | .xx _ | .ff _ | .fx _ => r.rsv == 0 && r.c == 0 && r.imm == 0
  | .xxx _ | .fff _ => r.rsv == 0 && r.imm == 0
  | .xi _ | .fi _ => r.rsv == 0 && r.b == 0 && r.c == 0
  | .xxi _ | .ffi _ => r.rsv == 0 && r.c == 0
  | .any _ => true

/-- The bank checks of R306 and R309 over the used register fields in the order A, B, C, and the
instruction they make; `none` where a field names the wrong bank. -/
def buildInstr (r : Fields) : Shape → Option Instr
  | .n i => some i
  | .x mk => do
      let a ← XReg.ofSpec r.a
      some (mk a)
  | .f mk => do
      let a ← FReg.ofSpec r.a
      some (mk a)
  | .xx mk => do
      let a ← XReg.ofSpec r.a
      let b ← XReg.ofSpec r.b
      some (mk a b)
  | .ff mk => do
      let a ← FReg.ofSpec r.a
      let b ← FReg.ofSpec r.b
      some (mk a b)
  | .fx mk => do
      let a ← FReg.ofSpec r.a
      let b ← XReg.ofSpec r.b
      some (mk a b)
  | .xxx mk => do
      let a ← XReg.ofSpec r.a
      let b ← XReg.ofSpec r.b
      let c ← XReg.ofSpec r.c
      some (mk a b c)
  | .fff mk => do
      let a ← FReg.ofSpec r.a
      let b ← FReg.ofSpec r.b
      let c ← FReg.ofSpec r.c
      some (mk a b c)
  | .xi mk => do
      let a ← XReg.ofSpec r.a
      some (mk a r.imm)
  | .fi mk => do
      let a ← FReg.ofSpec r.a
      some (mk a r.imm)
  | .xxi mk => do
      let a ← XReg.ofSpec r.a
      let b ← XReg.ofSpec r.b
      some (mk a b r.imm)
  | .ffi mk => do
      let a ← FReg.ofSpec r.a
      let b ← FReg.ofSpec r.b
      some (mk a b r.imm)
  | .any i => some i

/-- Decode by fields, in the order of R306: the opcode, the zero checks, the bank checks. IN and
OUT examine no field (R310). -/
def decodeFields (r : Fields) : Decoded :=
  match opcodeShape r.opc with
  | none => .illegalInstruction
  | some sh =>
    if unusedClear r sh then
      match buildInstr r sh with
      | none => .invalidReg
      | some i => .ok i
    else .illegalInstruction

/-- `Decode(W)` of R306. -/
def decode (w : InstrWord) : Decoded := decodeFields (fieldsOf w)

/-! ### Encoding -/

/-- Fields with nothing but an opcode. -/
def Fields.op (opc : BitVec 8) : Fields := ⟨opc, 0, 0, 0, 0, 0⟩

/-- Fields of the formats without an immediate: opcode and the specifiers A, B, C. -/
def Fields.regs (opc : BitVec 8) (a b c : BitVec 4) : Fields := ⟨opc, a, b, c, 0, 0⟩

/-- Fields of the formats with an immediate: opcode, the specifiers A, B and IMM. -/
def Fields.immediate (opc : BitVec 8) (a b : BitVec 4) (imm : Word) : Fields := ⟨opc, a, b, 0, 0, imm⟩

/-- The fields of the encoding of an instruction, from the same table (R302, R304, R305). IN and OUT
are written with every other bit 0 (R310 admits any value; log 17). -/
def encodeFields : Instr → Fields
  | .nop => .op 0x00
  | .halt => .op 0x01
  | .ldi rd v => .immediate 0x08 rd.spec 0 v
  | .ldf fd v => .immediate 0x09 fd.spec 0 v
  | .mov rd rs => .regs 0x0A rd.spec rs.spec 0
  | .movf fd fs => .regs 0x0B fd.spec fs.spec 0
  | .add rd a b => .regs 0x10 rd.spec a.spec b.spec
  | .sub rd a b => .regs 0x11 rd.spec a.spec b.spec
  | .mul rd a b => .regs 0x12 rd.spec a.spec b.spec
  | .addi rd rs v => .immediate 0x13 rd.spec rs.spec v
  | .subi rd rs v => .immediate 0x14 rd.spec rs.spec v
  | .muli rd rs v => .immediate 0x15 rd.spec rs.spec v
  | .div rd a b => .regs 0x16 rd.spec a.spec b.spec
  | .mod rd a b => .regs 0x17 rd.spec a.spec b.spec
  | .fadd fd a b => .regs 0x20 fd.spec a.spec b.spec
  | .fsub fd a b => .regs 0x21 fd.spec a.spec b.spec
  | .fmul fd a b => .regs 0x22 fd.spec a.spec b.spec
  | .fdiv fd a b => .regs 0x23 fd.spec a.spec b.spec
  | .faddi fd fs v => .immediate 0x24 fd.spec fs.spec v
  | .fsubi fd fs v => .immediate 0x25 fd.spec fs.spec v
  | .fmuli fd fs v => .immediate 0x26 fd.spec fs.spec v
  | .fdivi fd fs v => .immediate 0x27 fd.spec fs.spec v
  | .and rd a b => .regs 0x30 rd.spec a.spec b.spec
  | .or rd a b => .regs 0x31 rd.spec a.spec b.spec
  | .xor rd a b => .regs 0x32 rd.spec a.spec b.spec
  | .not rd rs => .regs 0x33 rd.spec rs.spec 0
  | .neg rd rs => .regs 0x34 rd.spec rs.spec 0
  | .fneg fd fs => .regs 0x35 fd.spec fs.spec 0
  | .shl rd rs => .regs 0x36 rd.spec rs.spec 0
  | .shr rd rs => .regs 0x37 rd.spec rs.spec 0
  | .ldh rd ra => .regs 0x40 rd.spec ra.spec 0
  | .ldhf fd ra => .regs 0x41 fd.spec ra.spec 0
  | .sth rs ra => .regs 0x42 rs.spec ra.spec 0
  | .sthf fs ra => .regs 0x43 fs.spec ra.spec 0
  | .lds rd ro => .regs 0x44 rd.spec ro.spec 0
  | .ldsf fd ro => .regs 0x45 fd.spec ro.spec 0
  | .sts rs ro => .regs 0x46 rs.spec ro.spec 0
  | .stsf fs ro => .regs 0x47 fs.spec ro.spec 0
  | .jmp rt => .regs 0x50 rt.spec 0 0
  | .jo rt => .regs 0x51 rt.spec 0 0
  | .jno rt => .regs 0x52 rt.spec 0 0
  | .jeq rt a b => .regs 0x53 rt.spec a.spec b.spec
  | .jne rt a b => .regs 0x54 rt.spec a.spec b.spec
  | .jz rt rs => .regs 0x55 rt.spec rs.spec 0
  | .jnz rt rs => .regs 0x56 rt.spec rs.spec 0
  | .push rs => .regs 0x60 rs.spec 0 0
  | .pushf fs => .regs 0x61 fs.spec 0 0
  | .pop rd => .regs 0x62 rd.spec 0 0
  | .popf fd => .regs 0x63 fd.spec 0 0
  | .call rt => .regs 0x70 rt.spec 0 0
  | .ret => .op 0x71
  | .syscall ri => .regs 0x72 ri.spec 0 0
  | .inp => .op 0x7E
  | .out => .op 0x7F

/-- The word of an instruction (R305, R311). -/
def encode (i : Instr) : InstrWord := wordOf (encodeFields i)

/-! ### Bytes -/

/-- The little-endian bytes of `n` bytes' worth of the number `v`: byte `j` is bits `8j+7 .. 8j`. -/
def bytesLE : Nat → Nat → List Byte
  | 0, _ => []
  | n + 1, v => BitVec.ofNat 8 v :: bytesLE n (v / 256)

/-- The number that a list of bytes stands for, least significant byte first. -/
def numberLE : List Byte → Nat
  | [] => 0
  | b :: rest => b.toNat + 256 * numberLE rest

/-- The 16 bytes of an instruction word: byte `j` is `W[8j+7:8j]` (R313). -/
def wordToBytes (w : InstrWord) : List Byte := bytesLE 16 w.toNat

/-- The instruction word that 16 bytes stand for (R313); `none` for a list of another length, which is the
serialization of no word. -/
def wordOfBytes (bs : List Byte) : Option InstrWord :=
  if bs.length = 16 then some (BitVec.ofNat 128 (numberLE bs)) else none

/-- What the decoder reads from serialized bytes (R313), total on any list of bytes. A list that is not 16
bytes long answers IllegalInstruction (DESIGN CHOICE, log 23: the spec gives only the form of 16 bytes). -/
def decodeBytes (bs : List Byte) : Decoded :=
  match wordOfBytes bs with
  | none => .illegalInstruction
  | some w => decode w

/-! ### The table's numbering -/

/-- The instruction that the decoder reads from the word whose bits are `w`, numbered as
spec/opcode_table.json numbers them; every row has one word of 128 bits, and the bits above `nbits`
are 0. -/
def decodeTableWord (nbits w : Nat) : Option Instr :=
  match decodeBytes (wordToBytes (BitVec.ofNat 128 (w % 2 ^ nbits))) with
  | .ok i => some i
  | _ => none

end Sys2Proof
end

