-- ==== Sys2Proof/Machine/State.lean ====
section
/-! DEFINITION. The state of one demo_vm core instance (10_state.md, 20_memory.md) as plain data,
the reasons a step can stop, and the state after reset (10_state.md R115, 70_reset_and_hazards.md
R701, R702). -/

namespace Sys2Proof.Machine

/-! ### Registers -/

/-- The integer bank `R0`-`R7` (R100). -/
structure XBank where
  r0 : Word
  r1 : Word
  r2 : Word
  r3 : Word
  r4 : Word
  r5 : Word
  r6 : Word
  r7 : Word
  deriving DecidableEq, Repr

/-- The float bank `F0`-`F7`, binary64 bit patterns (R103). -/
structure FBank where
  f0 : Word
  f1 : Word
  f2 : Word
  f3 : Word
  f4 : Word
  f5 : Word
  f6 : Word
  f7 : Word
  deriving DecidableEq, Repr

/-! ### Faults of the spec and the run state -/

/-- The faults of 60_exceptions.md R601. Raising one is a next state (R603). -/
inductive FaultKind where
  | invalidCodeAddr
  | invalidStackAddr
  | divByZero
  | typeMismatch
  | invalidReg
  | invalidHeapType
  | invalidSysCall
  | invalidSysCallArg
  | notImplemented
  | illegalInstruction
  | resourceExhausted
  deriving DecidableEq, Repr

/-- The values of `STATE` (R113). -/
inductive RunState where
  | idle
  | running
  | halted
  | faulted
  | stopped
  deriving DecidableEq, Repr

/-! ### Tagged values and heap cells -/

/-- The tags INT and FLT (00_scope.md R9). -/
inductive Kind where
  | int
  | flt
  deriving DecidableEq, Repr

/-- A tagged value (R9): what a stack slot holds. -/
inductive Tagged where
  | int (v : Word)
  | flt (b : Word)
  deriving DecidableEq, Repr

/-- A heap cell (R9, R209). -/
inductive HeapCell where
  | scalar (t : Tagged)
  | intArr (l : List Word)
  | fltArr (l : List Word)
  deriving DecidableEq, Repr

/-- The heap: its length and its cells (R209). `cells` lists, with addresses strictly rising, the
cells below `len` that differ from `Scalar(Int(0))`, the cell that heap growth makes (R210; log 8). -/
structure Heap where
  len : Nat
  cells : List (Nat × HeapCell)
  deriving DecidableEq, Repr

/-! ### The parameters of an instance (00_scope.md R6) -/

/-- One write of a syscall function, to something it may write (49_syscall_reserved.md R582). There
is no write to CODE, STATE, CAUSE or a parameter. `setOF` may write 0 (DESIGN CHOICE, log 21: R582 lets
a function write OF with no check on the value, while 10_state.md R111 and 70_reset_and_hazards.md R700
name the resets as all that clears it). `setHeap` may create and resize array cells (DESIGN CHOICE, log 22:
R582 lets a function write the heap with no check on the cells, while 20_memory.md R209 says that only
`load` creates array cells). -/
inductive SysWrite where
  | setX (r : XReg) (v : Word)
  | setF (r : FReg) (v : Word)
  | setOF (b : Bool)
  | setPc (v : Word)
  | setBp (v : Word)
  | setHeap (cells : List HeapCell)
  | setStack (slots : List Tagged)
  deriving DecidableEq, Repr

/-- The result of a syscall function (R581). -/
inductive SysResult where
  | ok
  | halt
  | fault (k : FaultKind)
  deriving DecidableEq, Repr

/-- What a call of a syscall function gives: the new core state and segments, as the writes that
lead to them, and the result (R581). -/
structure SysReply where
  writes : List SysWrite
  result : SysResult
  deriving DecidableEq, Repr

/-- What the host's output stream does with the bytes of the example write syscall: takes them all,
or fails after `written` bytes with a nonzero status (49_syscall_reserved.md R586; log 14). -/
inductive StreamOutcome where
  | accepts
  | fails (written : Nat) (status : Word)
  deriving DecidableEq, Repr

/-- One entry of the syscall table, as plain data (R581; log 3): an arbitrary host function, known
only by a number; a function that always makes the same writes; or the example binding of R586. -/
inductive SyscallEntry where
  | native (id : Nat)
  | fixed (reply : SysReply)
  | exampleWrite (stream : StreamOutcome)
  deriving DecidableEq, Repr

/-- The answer of the per-cycle hook (40_cycle.md R401). -/
inductive HookAnswer where
  | goOn
  | stop
  deriving DecidableEq, Repr

/-- A per-cycle hook, as plain data (log 4): an arbitrary host function, known only by a number; the
step limit of R610; or the breakpoint of R613. -/
inductive Hook where
  | native (id : Nat)
  | stepLimit (n : Nat)
  | breakpoint (b : Word)
  deriving DecidableEq, Repr

/-- A NaN bit pattern: its sign bit and its 52-bit fraction less one. Every NaN is exactly one of
these (`nanBits`). -/
structure NanPattern where
  sign : Bool
  fraction : Fin 4503599627370495
  deriving DecidableEq, Repr, Inhabited

/-- The choice of `NAN_RESULT` that the host hands over at construction (70_reset_and_hazards.md R702,
R706; log 2), as plain data: one whose pattern the model leaves free, known only by a number; or a
given pattern. -/
inductive NanChoice where
  | unknown (id : Nat)
  | pattern (p : NanPattern)
  deriving DecidableEq, Repr

/-- The parameters fixed at construction (R6, 70_reset_and_hazards.md R702); a capacity of `none` is
unbounded. -/
structure Params where
  stackCap : Option Nat
  heapCap : Option Nat
  syscalls : List SyscallEntry
  hook : Option Hook
  nanResult : NanChoice
  deriving DecidableEq, Repr

/-! ### The state -/

/-- The whole state of one instance: CoreState and Memory of 10_state.md, the parameters, and the
model's own positions in the streams of values that come from outside (logs 3, 4). -/
structure State where
  x : XBank
  f : FBank
  ovf : Bool
  pc : Word
  bp : Word
  runState : RunState
  cause : BitVec 8
  code : List InstrWord
  heap : Heap
  stack : List Tagged
  params : Params
  sysCalls : Nat
  hookCalls : Nat
  deriving DecidableEq, Repr

/-! ### What can stop a step -/

/-- The stops of the model. The spec's own faults are next states (R603); what remains is
93_implementation_defined.md K15, whose treatment is `stuck`. -/
inductive Fault where
  /-- Raised by SYSCALL when the table's function never returns (K15). Safe: the hardware does not
  complete the cycle either. -/
  | syscallNeverReturns
  /-- Raised by the hook check of a cycle when the hook never returns (K15). Safe, as above. -/
  | hookNeverReturns
  deriving DecidableEq, Repr

/-- What the model refuses. -/
inductive Refusal where
  /-- An instruction without a meaning; no arm of `exec` raises it. Safe. -/
  | notModelled (mnemonic : String)
  /-- Raised by `hostOp`: `load`, a reset or `run` while `STATE = RUNNING` (K13, R706). Safe: the
  operation has no effect. -/
  | hostOperationWhileRunning
  /-- Raised by `hostOp`: a `load` whose heap, stack or code is longer than the core can hold (R202,
  R703). Safe: refused with no change. -/
  | loadTooLong
  deriving DecidableEq, Repr

/-! ### Construction -/

/-- The integer bank with every register 0 (R115). -/
def XBank.zero : XBank := ⟨0, 0, 0, 0, 0, 0, 0, 0⟩

/-- The float bank with every register +0.0 (R115). -/
def FBank.zero : FBank := ⟨0, 0, 0, 0, 0, 0, 0, 0⟩

/-- The empty heap. -/
def Heap.empty : Heap := ⟨0, []⟩

/-- Construction of an instance with the given parameters (R702, R115). -/
def State.construct (p : Params) : State where
  x := XBank.zero
  f := FBank.zero
  ovf := false
  pc := 0
  bp := 0
  runState := .idle
  cause := 0
  code := []
  heap := Heap.empty
  stack := []
  params := p
  sysCalls := 0
  hookCalls := 0

/-- The parameters of the instance that `State.reset` is: no capacity limit, an empty syscall table,
no hook, and a choice of `NAN_RESULT` of which nothing is known (DESIGN CHOICE: the spec leaves them
open; logs 1 and 2). -/
def Params.default : Params where
  stackCap := none
  heapCap := none
  syscalls := []
  hook := none
  nanResult := .unknown 0

/-- The machine right after construction or a VM reset (R115, R701, R702). -/
def State.reset : State := State.construct Params.default

end Sys2Proof.Machine
end

