-- ==== Sys2Proof/Config.lean ====
section
/-! DEFINITION. What the spec leaves to the implementation or the host and no definition here fixes:
constants without a body, applied to a number or position that State holds, so that every statement holds
whatever they are. The fixed parameters of 00_scope.md R6 are the types of Sys2Proof/Word.lean and
State; the capacities, the table, the hook and the choice of `NAN_RESULT` are `State.params`. -/

namespace Sys2Proof

/-- The pattern `NAN_RESULT` (00_scope.md R6, R12; 93_implementation_defined.md K7) of an instance whose
host made the choice of this number. Free (log 2). -/
opaque Config.nanResult : (choice : Nat) → Machine.NanPattern

/-- The host function number `id` at the `call`-th syscall of the instance, on the whole state
(49_syscall_reserved.md R581); `none` where it never returns (K15). Free (log 3). -/
opaque Config.nativeSyscall : (id call : Nat) → Machine.State → Option Machine.SysReply

/-- The answer of the host's hook number `id` at its `call`-th call, on a snapshot of the state
(40_cycle.md R401); `none` where it never returns (K15). Free (log 4). -/
opaque Config.nativeHook : (id call : Nat) → Machine.State → Option Machine.HookAnswer

end Sys2Proof
end

