-- ==== Sys2Proof/Machine/Ops.lean ====
section
/-! DEFINITION. The named operations of the machine: register access (00_scope.md R8), fault entry
and the ends of a run (60_exceptions.md R603, 40_cycle.md R401, R407), and the primitives of the
stack and the heap (20_memory.md R204-R212). -/

namespace Sys2Proof.Machine

/-- What a meaning answers. -/
abbrev Result := Host.Outcome State Fault Refusal

/-! ### Register banks (R8) -/

/-- `x[i]`. -/
def XBank.get (b : XBank) : XReg → Word
  | .r0 => b.r0 | .r1 => b.r1 | .r2 => b.r2 | .r3 => b.r3
  | .r4 => b.r4 | .r5 => b.r5 | .r6 => b.r6 | .r7 => b.r7

/-- `x[i] <- v`. -/
def XBank.set (b : XBank) (i : XReg) (v : Word) : XBank :=
  match i with
  | .r0 => { b with r0 := v } | .r1 => { b with r1 := v }
  | .r2 => { b with r2 := v } | .r3 => { b with r3 := v }
  | .r4 => { b with r4 := v } | .r5 => { b with r5 := v }
  | .r6 => { b with r6 := v } | .r7 => { b with r7 := v }

/-- `f[i]`. -/
def FBank.get (b : FBank) : FReg → Word
  | .f0 => b.f0 | .f1 => b.f1 | .f2 => b.f2 | .f3 => b.f3
  | .f4 => b.f4 | .f5 => b.f5 | .f6 => b.f6 | .f7 => b.f7

/-- `f[i] <- v`. -/
def FBank.set (b : FBank) (i : FReg) (v : Word) : FBank :=
  match i with
  | .f0 => { b with f0 := v } | .f1 => { b with f1 := v }
  | .f2 => { b with f2 := v } | .f3 => { b with f3 := v }
  | .f4 => { b with f4 := v } | .f5 => { b with f5 := v }
  | .f6 => { b with f6 := v } | .f7 => { b with f7 := v }

/-- Read an integer register. -/
def State.getX (s : State) (i : XReg) : Word := s.x.get i

/-- Write an integer register. -/
def State.setX (s : State) (i : XReg) (v : Word) : State := { s with x := s.x.set i v }

/-- Read a float register. -/
def State.getF (s : State) (i : FReg) : Word := s.f.get i

/-- Write a float register. -/
def State.setF (s : State) (i : FReg) (v : Word) : State := { s with f := s.f.set i v }

/-- Write the program counter. -/
def State.setPc (s : State) (v : Word) : State := { s with pc := v }

/-- Write the base pointer. -/
def State.setBp (s : State) (v : Word) : State := { s with bp := v }

/-- Replace the heap. -/
def State.setHeap (s : State) (h : Heap) : State := { s with heap := h }

/-- Replace the stack. -/
def State.setStack (s : State) (st : List Tagged) : State := { s with stack := st }

/-! ### Fault entry and the ends of a run -/

/-- The fault codes of R601. -/
def FaultKind.code : FaultKind → BitVec 8
  | .invalidCodeAddr => 0x01
  | .invalidStackAddr => 0x02
  | .divByZero => 0x03
  | .typeMismatch => 0x04
  | .invalidReg => 0x05
  | .invalidHeapType => 0x06
  | .invalidSysCall => 0x07
  | .invalidSysCallArg => 0x08
  | .notImplemented => 0x09
  | .illegalInstruction => 0x0A
  | .resourceExhausted => 0x0B

/-- The fault a code stands for; `none` for the codes never recorded as a cause (R601). -/
def FaultKind.ofCode (c : BitVec 8) : Option FaultKind :=
  match c.toNat with
  | 0x01 => some .invalidCodeAddr
  | 0x02 => some .invalidStackAddr
  | 0x03 => some .divByZero
  | 0x04 => some .typeMismatch
  | 0x05 => some .invalidReg
  | 0x06 => some .invalidHeapType
  | 0x07 => some .invalidSysCall
  | 0x08 => some .invalidSysCallArg
  | 0x09 => some .notImplemented
  | 0x0A => some .illegalInstruction
  | 0x0B => some .resourceExhausted
  | _ => none

/-- Fault entry, `raise F` (R603): STATE and CAUSE, and nothing else. It saves no pc and no status
and goes nowhere; no instruction returns from it (R607). -/
def State.raise (s : State) (k : FaultKind) : State :=
  { s with runState := .faulted, cause := k.code }

/-- `halt` (R407). -/
def State.halt (s : State) : State := { s with runState := .halted, cause := 0 }

/-- The hook's `Stop` (R401). CAUSE is not named there and stays (log 12). -/
def State.stop (s : State) : State := { s with runState := .stopped }

/-! ### Tagged values -/

/-- The tag (00_scope.md R9). -/
def Tagged.kind : Tagged → Kind
  | .int _ => .int
  | .flt _ => .flt

/-- The payload (R9). -/
def Tagged.payload : Tagged → Word
  | .int v => v
  | .flt b => b

/-- The tagged value of a kind with a payload. -/
def Kind.tag : Kind → Word → Tagged
  | .int, v => .int v
  | .flt, b => .flt b

/-- Encode-to-bytes (R214): 8 bytes, least significant first, for either kind. -/
def Tagged.toBytes (t : Tagged) : List Byte := bytesLE 8 t.payload.toNat

/-- A capacity that holds `n` cells? (`none` is unbounded, R6.) -/
def fits (cap : Option Nat) (n : Nat) : Bool :=
  match cap with
  | none => true
  | some c => n ≤ c

/-! ### The stack (R204-R208) -/

/-- `StackPush(t)` (R204). -/
def stackPush (cap : Option Nat) (st : List Tagged) (t : Tagged) : Except FaultKind (List Tagged) :=
  if fits cap (st.length + 1) then .ok (st ++ [t]) else .error .resourceExhausted

/-- `StackPop()` (R205): the popped slot and the stack without it. -/
def stackPop (st : List Tagged) : Except FaultKind (Tagged × List Tagged) :=
  match st.getLast? with
  | none => .error .invalidStackAddr
  | some t => .ok (t, st.dropLast)

/-- `MemRead(STACK, i, 1)` (R206). -/
def stackRead (st : List Tagged) (i : Nat) : Except FaultKind Tagged :=
  match st[i]? with
  | none => .error .invalidStackAddr
  | some t => .ok t

/-- `MemWrite(STACK, i, 1, t)` (R206). -/
def stackWrite (st : List Tagged) (i : Nat) (t : Tagged) : Except FaultKind (List Tagged) :=
  if i < st.length then .ok (st.set i t) else .error .invalidStackAddr

/-- `StackTruncate(n)` (R207). -/
def stackTruncate (st : List Tagged) (n : Nat) : List Tagged := st.take n

/-- The payload of a slot that must hold the kind `k` (R505, R506, R542, R543, R561). -/
def expectKind (k : Kind) (t : Tagged) : Except FaultKind Word :=
  if t.kind = k then .ok t.payload else .error .typeMismatch

/-! ### The heap as a canonical list of cells -/

/-- The cell that heap growth makes in a gap (R210), and that an unlisted address below the length
reads as. -/
def zeroCell : HeapCell := .scalar (.int 0)

/-- The cell listed at an address, `zeroCell` where none is. -/
def lookupCell : List (Nat × HeapCell) → Nat → HeapCell
  | [], _ => zeroCell
  | (k, c) :: rest, a => if k = a then c else lookupCell rest a

/-- Replace the cell at an address, keeping the addresses rising and `zeroCell` unlisted. -/
def storeCell : List (Nat × HeapCell) → Nat → HeapCell → List (Nat × HeapCell)
  | [], a, c => if c = zeroCell then [] else [(a, c)]
  | (k, d) :: rest, a, c =>
    if a < k then (if c = zeroCell then (k, d) :: rest else (a, c) :: (k, d) :: rest)
    else if a = k then (if c = zeroCell then rest else (a, c) :: rest)
    else (k, d) :: storeCell rest a c

/-- `MemRead(HEAP, a, 1)`, for an address below the length (R10). -/
def Heap.read (h : Heap) (a : Nat) : HeapCell := lookupCell h.cells a

/-- `MemWrite(HEAP, a, 1, c)`, for an address below the length (R10). -/
def Heap.write (h : Heap) (a : Nat) (c : HeapCell) : Heap :=
  { h with cells := storeCell h.cells a c }

/-- The listed cells of a list of heap cells that starts at address `a`. -/
def listCells : Nat → List HeapCell → List (Nat × HeapCell)
  | _, [] => []
  | a, c :: rest => if c = zeroCell then listCells (a + 1) rest else (a, c) :: listCells (a + 1) rest

/-- The heap whose cells are those of a list, from address 0 (R209, R703). -/
def Heap.ofList (cs : List HeapCell) : Heap := ⟨cs.length, listCells 0 cs⟩

/-- The full list of cells (the snapshot of R222). -/
def Heap.toList (h : Heap) : List HeapCell := (List.range h.len).map h.read

/-- The canonical form of the heap: addresses strictly rising and below the length, and no listed
cell equal to what an unlisted address reads as (log 8). -/
abbrev Memory.wf (h : Heap) : Prop :=
  h.cells.Pairwise (fun p q => p.1 < q.1) ∧ ∀ p ∈ h.cells, p.1 < h.len ∧ p.2 ≠ zeroCell

/-! ### The heap primitives (R210-R212) -/

/-- `HeapGrow(a, k)` (R210): the heap with address `a` in it, and whether it grew. A gap cell is
`Scalar(Int(0))`, which is not listed. -/
def heapGrow (cap : Option Nat) (h : Heap) (a : Nat) (k : Kind) : Except FaultKind (Heap × Bool) :=
  if a < h.len then .ok (h, false)
  else if fits cap (a + 1) then
    .ok (Heap.write { h with len := a + 1 } a (.scalar (k.tag 0)), true)
  else .error .resourceExhausted

/-- The scalar of kind `k` that an existing cell gives (R211): the sole value of a scalar cell or
the first element of an array cell. -/
def cellGet (k : Kind) (c : HeapCell) : Except FaultKind Word :=
  match c with
  | .scalar t => if t.kind = k then .ok t.payload else .error .typeMismatch
  | .intArr l =>
    match k, l with
    | .int, v :: _ => .ok v
    | _, _ => .error .invalidHeapType
  | .fltArr l =>
    match k, l with
    | .flt, b :: _ => .ok b
    | _, _ => .error .invalidHeapType

/-- The cell after a scalar store of `t` (R212): any scalar cell is replaced, an array cell of the
kind gets a new first element. -/
def cellPut (c : HeapCell) (t : Tagged) : Except FaultKind HeapCell :=
  match c with
  | .scalar _ => .ok (.scalar t)
  | .intArr l =>
    match t, l with
    | .int v, _ :: rest => .ok (.intArr (v :: rest))
    | _, _ => .error .invalidHeapType
  | .fltArr l =>
    match t, l with
    | .flt b, _ :: rest => .ok (.fltArr (b :: rest))
    | _, _ => .error .invalidHeapType

/-- `HeapReadScalar(a, k)` (R211): the value and the heap after it. -/
def heapReadScalar (cap : Option Nat) (h : Heap) (a : Nat) (k : Kind) :
    Except FaultKind (Word × Heap) :=
  match heapGrow cap h a k with
  | .error e => .error e
  | .ok (h', true) => .ok (0, h')
  | .ok (h', false) =>
    match cellGet k (h'.read a) with
    | .error e => .error e
    | .ok v => .ok (v, h')

/-- `HeapWriteScalar(a, t)` (R212): the heap after it. -/
def heapWriteScalar (cap : Option Nat) (h : Heap) (a : Nat) (t : Tagged) : Except FaultKind Heap :=
  match heapGrow cap h a t.kind with
  | .error e => .error e
  | .ok (h', _) =>
    match cellPut (h'.read a) t with
    | .error e => .error e
    | .ok c => .ok (h'.write a c)

end Sys2Proof.Machine
end

