-- ==== Sys2Proof/Machine/Operands.lean ====
section
/-! DEFINITION. The operand forms of 30_encoding.md R304 beyond a plain register or immediate: the
heap address in an integer register, the stack-relative address `bp + offset`, and the register
target of a jump or call. Register operands are `State.getX` and `State.getF`; an immediate is used
as it stands (R303). -/

namespace Sys2Proof.Machine

/-- The heap address of a heap access: the whole integer register, no displacement or scaling
(45_heap_stack_access.md section 1). -/
def heapAddress (s : State) (ra : XReg) : Nat := (s.getX ra).toNat

/-- The effective address of a stack-relative access, `bp + x[ro]` as a mathematical integer with no
wrap-around (R504). -/
def stackAddress (s : State) (ro : XReg) : Nat := s.bp.toNat + (s.getX ro).toNat

/-- A taken jump: `pc <- x[rt]`, the target not validated (R527). -/
def jumpTo (s : State) (rt : XReg) : State := s.setPc (s.getX rt)

/-- A conditional jump: taken, or pc as the cycle left it (R527). -/
def jumpIf (s : State) (taken : Bool) (rt : XReg) : State := if taken then jumpTo s rt else s

end Sys2Proof.Machine
end

