-- ==== Sys2Proof/Machine/Access.lean ====
section
/-! DEFINITION. Heap and stack-relative loads and stores (45_heap_stack_access.md R500-R508). -/

namespace Sys2Proof.Machine

/-- A heap access whose primitive answered: take its fault, or go on with its value (R211, R603). -/
def orRaise (s : State) {α : Type} (r : Except FaultKind α) (k : α → State) : Result :=
  match r with
  | .error e => .next (s.raise e)
  | .ok v => .next (k v)

/-- LDH (R500). -/
def execLdh (rd ra : XReg) (s : State) : Result :=
  orRaise s (heapReadScalar s.params.heapCap s.heap (heapAddress s ra) .int)
    fun r => (s.setHeap r.2).setX rd r.1

/-- LDHF (R501). -/
def execLdhf (fd : FReg) (ra : XReg) (s : State) : Result :=
  orRaise s (heapReadScalar s.params.heapCap s.heap (heapAddress s ra) .flt)
    fun r => (s.setHeap r.2).setF fd r.1

/-- STH (R502). -/
def execSth (rs ra : XReg) (s : State) : Result :=
  orRaise s (heapWriteScalar s.params.heapCap s.heap (heapAddress s ra) (.int (s.getX rs)))
    fun h => s.setHeap h

/-- STHF (R503). -/
def execSthf (fs : FReg) (ra : XReg) (s : State) : Result :=
  orRaise s (heapWriteScalar s.params.heapCap s.heap (heapAddress s ra) (.flt (s.getF fs)))
    fun h => s.setHeap h

/-- The payload of the slot at an index, which must hold the kind `k`: out of range before wrong
kind (R505, R506, R605). -/
def stackGet (st : List Tagged) (i : Nat) (k : Kind) : Except FaultKind Word :=
  match stackRead st i with
  | .error e => .error e
  | .ok t => expectKind k t

/-- LDS (R505). -/
def execLds (rd ro : XReg) (s : State) : Result :=
  orRaise s (stackGet s.stack (stackAddress s ro) .int) fun v => s.setX rd v

/-- LDSF (R506). -/
def execLdsf (fd : FReg) (ro : XReg) (s : State) : Result :=
  orRaise s (stackGet s.stack (stackAddress s ro) .flt) fun v => s.setF fd v

/-- STS (R507). -/
def execSts (rs ro : XReg) (s : State) : Result :=
  orRaise s (stackWrite s.stack (stackAddress s ro) (.int (s.getX rs))) fun st => s.setStack st

/-- STSF (R508). -/
def execStsf (fs : FReg) (ro : XReg) (s : State) : Result :=
  orRaise s (stackWrite s.stack (stackAddress s ro) (.flt (s.getF fs))) fun st => s.setStack st

end Sys2Proof.Machine
end

