-- ==== Sys2Proof/Machine/Flags.lean ====
section
/-! DEFINITION. The one flag, OF (10_state.md R109-R112): the events that set it, the checked write
of 42_int_arith.md R440, and the host's view of the flags and the status as words. No operation
here clears OF. -/

namespace Sys2Proof.Machine

/-- `OF <- 1` (R110). -/
def State.setOverflow (s : State) : State := { s with ovf := true }

/-- `CheckedWrite(rd, r)` of R440, for the exact mathematical result `r`. -/
def checkedWrite (s : State) (rd : XReg) (r : Int) : State :=
  if 0 ≤ r ∧ r ≤ 2 ^ 64 - 1 then s.setX rd (BitVec.ofNat 64 r.toNat) else s.setOverflow

/-- The overflow-checked form of NEG, SHL and SHR (R484, R486, R487): on overflow OF is set and the
destination keeps its value; otherwise the value is written. -/
def writeUnless (s : State) (overflows : Bool) (rd : XReg) (v : Word) : State :=
  if overflows then s.setOverflow else s.setX rd v

/-- NEG overflows for the two's-complement minimum only (R484). -/
def negOverflows (v : Word) : Bool := v == 0x8000000000000000

/-- The value of NEG, `(2^64 - v) mod 2^64` (R484). -/
def negValue (v : Word) : Word := BitVec.ofNat 64 (2 ^ 64 - v.toNat)

/-- SHL shifts a set bit out when bit 63 is 1 (R486). -/
def shlOverflows (v : Word) : Bool := v.getLsbD 63

/-- The value of SHL, `(v * 2) mod 2^64` (R486). -/
def shlValue (v : Word) : Word := BitVec.ofNat 64 (v.toNat * 2)

/-- SHR shifts a set bit out when bit 0 is 1 (R487). -/
def shrOverflows (v : Word) : Bool := v.getLsbD 0

/-- The value of SHR, `floor(v / 2)` (R487). -/
def shrValue (v : Word) : Word := BitVec.ofNat 64 (v.toNat / 2)

/-- The host word `FLAGS`: bit 0 is OF, bits 63:1 read as 0 (R112). -/
def State.flagsWord (s : State) : BitVec 64 := if s.ovf then 1 else 0

/-- The 3-bit value of `STATE` (R113). -/
def RunState.code : RunState → BitVec 3
  | .idle => 0
  | .running => 1
  | .halted => 2
  | .faulted => 3
  | .stopped => 4

/-- The host word `STATUS`: STATE in bits 2:0, CAUSE in bits 15:8, the rest reads as 0 (R113;
32 bits, log 15). -/
def State.statusWord (s : State) : BitVec 32 :=
  (0 : BitVec 16) ++ s.cause ++ (0 : BitVec 5) ++ s.runState.code

end Sys2Proof.Machine
end

