-- ==== Sys2Proof/Machine/Float.lean ====
section
/-! DEFINITION. IEEE 754 binary64 addition, subtraction, multiplication and division, rounded to
nearest with ties to even (00_scope.md R12, 43_float_arith.md R460). Every finite binary64 value is
a whole number of units of `2^-1074`, so an operation is computed exactly on integers and rounded
once. The special cases of infinities, zeros and NaNs are IEEE 754's (log 11). -/

namespace Sys2Proof.Machine

/-- The sign bit. -/
def floatSign (b : Word) : Bool := b.getLsbD 63

/-- The biased exponent. -/
def floatExp (b : Word) : Nat := (b.extractLsb' 52 11).toNat

/-- The fraction. -/
def floatFrac (b : Word) : Nat := (b.extractLsb' 0 52).toNat

/-- A NaN: exponent all ones, fraction not 0. -/
def floatIsNaN (b : Word) : Bool := floatExp b == 2047 && floatFrac b != 0

/-- An infinity: exponent all ones, fraction 0. -/
def floatIsInf (b : Word) : Bool := floatExp b == 2047 && floatFrac b == 0

/-- A zero of either sign. -/
def floatIsZero (b : Word) : Bool := floatExp b == 0 && floatFrac b == 0

/-- The magnitude of a finite value, in units of `2^-1074`; subnormals are used as they are (R460). -/
def floatUnits (b : Word) : Nat :=
  if floatExp b = 0 then floatFrac b else (2 ^ 52 + floatFrac b) * 2 ^ (floatExp b - 1)

/-- The bits of a magnitude without its sign bit for infinity. -/
def infMagnitude : Nat := 2047 * 2 ^ 52

/-- The quotient `num / den` rounded to the nearest whole number, ties to even. -/
def roundQuotient (num den : Nat) : Nat :=
  let q := num / den
  let r := num % den
  if 2 * r < den then q
  else if den < 2 * r then q + 1
  else if q % 2 = 0 then q else q + 1

/-- The magnitude bits of the binary64 value nearest to `num / den` units of `2^-1074`, ties to
even: with `k` the exponent that leaves 53 significant bits (0 for a subnormal), the rounded
significand `q` stands for the bits `k * 2^52 + q`, whose carries are the exponent's; what reaches
the bits of infinity is infinity. -/
def roundMagnitude (num den : Nat) : Nat :=
  let k := Nat.log2 (num / den) - 52
  min (k * 2 ^ 52 + roundQuotient num (den * 2 ^ k)) infMagnitude

/-- The pattern with a sign and magnitude bits. -/
def floatPack (neg : Bool) (mag : Nat) : Word :=
  BitVec.ofNat 64 ((if neg then 2 ^ 63 else 0) + mag)

/-- An infinity. -/
def floatInf (neg : Bool) : Word := floatPack neg infMagnitude

/-- A finite value as a signed whole number of units. -/
def floatSigned (b : Word) : Int :=
  if floatSign b then -(floatUnits b : Int) else floatUnits b

/-- `fadd` (R12); `none` is a NaN result. -/
def floatAdd (a b : Word) : Option Word :=
  if floatIsNaN a || floatIsNaN b then none
  else if floatIsInf a then
    if floatIsInf b && floatSign a != floatSign b then none else some a
  else if floatIsInf b then some b
  else
    let sum := floatSigned a + floatSigned b
    if sum = 0 then some (floatPack (floatSign a && floatSign b) 0)
    else some (floatPack (sum < 0) (roundMagnitude sum.natAbs 1))

/-- The pattern with the other sign (44_bitwise_unary.md R485: FNEG flips bit 63, on every input). -/
def floatNeg (b : Word) : Word := b ^^^ 0x8000000000000000

/-- `fsub` (R12). -/
def floatSub (a b : Word) : Option Word := floatAdd a (floatNeg b)

/-- `fmul` (R12). -/
def floatMul (a b : Word) : Option Word :=
  let neg := floatSign a != floatSign b
  if floatIsNaN a || floatIsNaN b then none
  else if floatIsInf a || floatIsInf b then
    if floatIsZero a || floatIsZero b then none else some (floatInf neg)
  else if floatIsZero a || floatIsZero b then some (floatPack neg 0)
  else some (floatPack neg (roundMagnitude (floatUnits a * floatUnits b) (2 ^ 1074)))

/-- `fdiv` (R12); a division by zero gives an infinity or a NaN (R464). -/
def floatDiv (a b : Word) : Option Word :=
  let neg := floatSign a != floatSign b
  if floatIsNaN a || floatIsNaN b then none
  else if floatIsInf a then
    if floatIsInf b then none else some (floatInf neg)
  else if floatIsInf b then some (floatPack neg 0)
  else if floatIsZero b then
    if floatIsZero a then none else some (floatInf neg)
  else if floatIsZero a then some (floatPack neg 0)
  else some (floatPack neg (roundMagnitude (floatUnits a * 2 ^ 1074) (floatUnits b)))

/-- The bits of a NaN pattern: its sign, exponent all ones, and a fraction that is not 0. -/
def nanBits (p : NanPattern) : Word :=
  floatPack p.sign (infMagnitude + (p.fraction.val + 1))

/-- `NAN_RESULT`: the one pattern of every NaN result of the instance, fixed at construction (R12,
70_reset_and_hazards.md R702; log 2). -/
def State.nanResult (s : State) : Word :=
  match s.params.nanResult with
  | .unknown id => nanBits (Config.nanResult id)
  | .pattern p => nanBits p

/-- Write a float result: the value, or `NAN_RESULT` for a NaN result (R12, R460). -/
def writeFloat (s : State) (fd : FReg) (r : Option Word) : State :=
  s.setF fd (r.getD s.nanResult)

end Sys2Proof.Machine
end

