-- ==== Sys2Proof/Machine/Bitwise.lean ====
section
/-! DEFINITION. Bitwise, negate and shift (44_bitwise_unary.md R480-R487). -/

namespace Sys2Proof.Machine

/-- AND (R480). -/
def execAnd (rd rs1 rs2 : XReg) (s : State) : Result :=
  .next (s.setX rd (s.getX rs1 &&& s.getX rs2))

/-- OR (R481). -/
def execOr (rd rs1 rs2 : XReg) (s : State) : Result :=
  .next (s.setX rd (s.getX rs1 ||| s.getX rs2))

/-- XOR (R482). -/
def execXor (rd rs1 rs2 : XReg) (s : State) : Result :=
  .next (s.setX rd (s.getX rs1 ^^^ s.getX rs2))

/-- NOT: `x[rs] XOR 0xFFFFFFFFFFFFFFFF` (R483). -/
def execNot (rd rs : XReg) (s : State) : Result :=
  .next (s.setX rd (s.getX rs ^^^ 0xFFFFFFFFFFFFFFFF))

/-- NEG (R484). -/
def execNeg (rd rs : XReg) (s : State) : Result :=
  .next (writeUnless s (negOverflows (s.getX rs)) rd (negValue (s.getX rs)))

/-- FNEG (R485). -/
def execFneg (fd fs : FReg) (s : State) : Result := .next (s.setF fd (floatNeg (s.getF fs)))

/-- SHL by one bit (R486). -/
def execShl (rd rs : XReg) (s : State) : Result :=
  .next (writeUnless s (shlOverflows (s.getX rs)) rd (shlValue (s.getX rs)))

/-- SHR by one bit, logical (R487). -/
def execShr (rd rs : XReg) (s : State) : Result :=
  .next (writeUnless s (shrOverflows (s.getX rs)) rd (shrValue (s.getX rs)))

end Sys2Proof.Machine
end

