-- ==== Sys2Proof/Machine/PushPop.lean ====
section
/-! DEFINITION. Push and pop (47_push_pop.md R540-R543). -/

namespace Sys2Proof.Machine

/-- PUSH (R540). -/
def execPush (rs : XReg) (s : State) : Result :=
  orRaise s (stackPush s.params.stackCap s.stack (.int (s.getX rs))) fun st => s.setStack st

/-- PUSHF (R541). -/
def execPushf (fs : FReg) (s : State) : Result :=
  orRaise s (stackPush s.params.stackCap s.stack (.flt (s.getF fs))) fun st => s.setStack st

/-- Pop a slot of kind `k`: an empty stack changes nothing; the slot is removed before its kind is
checked (R205, R542, R543, R604). -/
def popKind (s : State) (k : Kind) (write : State → Word → State) : Result :=
  match stackPop s.stack with
  | .error e => .next (s.raise e)
  | .ok (t, st) => orRaise (s.setStack st) (expectKind k t) fun v => write (s.setStack st) v

/-- POP (R542). -/
def execPop (rd : XReg) (s : State) : Result := popKind s .int fun s' v => s'.setX rd v

/-- POPF (R543). -/
def execPopf (fd : FReg) (s : State) : Result := popKind s .flt fun s' v => s'.setF fd v

end Sys2Proof.Machine
end

