-- ==== Sys2Proof/Machine/CallRet.lean ====
section
/-! DEFINITION. Call and return (48_call_ret.md R560-R564). -/

namespace Sys2Proof.Machine

/-- The state with the frame of a CALL on the stack (R560, R562): the old bp, the return address
(pc, already past the CALL), and bp at the new top index. -/
def pushFrame (s : State) : State :=
  { s with
    stack := s.stack ++ [.int s.bp, .int s.pc]
    bp := BitVec.ofNat 64 (s.stack.length + 1) }

/-- CALL (R560): room for both slots is checked before either push, the target is read first and not
validated. -/
def execCall (rt : XReg) (s : State) : Result :=
  if fits s.params.stackCap (s.stack.length + 2) then
    .next ((pushFrame s).setPc (s.getX rt))
  else .next (s.raise .resourceExhausted)

/-- One of RET's two pops (R561): pop a slot, which must hold an integer, and write it; a fault keeps
what came before it. The second component says whether the pop completed. -/
def popLink (s : State) (write : State → Word → State) : State × Bool :=
  match stackPop s.stack with
  | .error e => (s.raise e, false)
  | .ok (t, st) =>
    match expectKind .int t with
    | .error e => ((s.setStack st).raise e, false)
    | .ok v => (write (s.setStack st) v, true)

/-- RET (R561): truncate to bp + 1 (a mathematical integer), pop pc, pop bp. -/
def execRet (s : State) : Result :=
  let s1 := s.setStack (stackTruncate s.stack (s.bp.toNat + 1))
  match popLink s1 State.setPc with
  | (s2, false) => .next s2
  | (s2, true) => .next (popLink s2 State.setBp).1

end Sys2Proof.Machine
end

