-- ==== Sys2Proof/Machine/Control.lean ====
section
/-! DEFINITION. NOP and HALT (40_cycle.md R409, R410). A meaning runs on the state in which pc already
holds the fetch address plus 1 (R403). -/

namespace Sys2Proof.Machine

/-- NOP: nothing (R409). -/
def execNop (s : State) : Result := .next s

/-- HALT: the run ends successfully (R410, R407). -/
def execHalt (s : State) : Result := .next s.halt

end Sys2Proof.Machine
end

