-- ==== Sys2Proof/Machine/FloatArith.lean ====
section
/-! DEFINITION. Floating-point arithmetic (43_float_arith.md R460-R468): the result is written whatever
it is, no flag is read or written, nothing faults. -/

namespace Sys2Proof.Machine

/-- FADD (R461). -/
def execFadd (fd fs1 fs2 : FReg) (s : State) : Result :=
  .next (writeFloat s fd (floatAdd (s.getF fs1) (s.getF fs2)))

/-- FSUB (R462). -/
def execFsub (fd fs1 fs2 : FReg) (s : State) : Result :=
  .next (writeFloat s fd (floatSub (s.getF fs1) (s.getF fs2)))

/-- FMUL (R463). -/
def execFmul (fd fs1 fs2 : FReg) (s : State) : Result :=
  .next (writeFloat s fd (floatMul (s.getF fs1) (s.getF fs2)))

/-- FDIV (R464). -/
def execFdiv (fd fs1 fs2 : FReg) (s : State) : Result :=
  .next (writeFloat s fd (floatDiv (s.getF fs1) (s.getF fs2)))

/-- FADDI: the immediate is the second operand (R465). -/
def execFaddi (fd fs : FReg) (imm : Word) (s : State) : Result :=
  .next (writeFloat s fd (floatAdd (s.getF fs) imm))

/-- FSUBI: the immediate is the second operand (R466). -/
def execFsubi (fd fs : FReg) (imm : Word) (s : State) : Result :=
  .next (writeFloat s fd (floatSub (s.getF fs) imm))

/-- FMULI: the immediate is the second operand (R467). -/
def execFmuli (fd fs : FReg) (imm : Word) (s : State) : Result :=
  .next (writeFloat s fd (floatMul (s.getF fs) imm))

/-- FDIVI: the immediate is the second operand (R468). -/
def execFdivi (fd fs : FReg) (imm : Word) (s : State) : Result :=
  .next (writeFloat s fd (floatDiv (s.getF fs) imm))

end Sys2Proof.Machine
end

