-- ==== Sys2Proof/Machine/IntArith.lean ====
section
/-! DEFINITION. Integer arithmetic (42_int_arith.md R440-R449). The exact result is computed on integers
and narrowed by `checkedWrite`; division faults on a zero divisor and touches no flag. -/

namespace Sys2Proof.Machine

/-- ADD (R441). -/
def execAdd (rd rs1 rs2 : XReg) (s : State) : Result :=
  .next (checkedWrite s rd ((s.getX rs1).toNat + (s.getX rs2).toNat))

/-- SUB (R442). -/
def execSub (rd rs1 rs2 : XReg) (s : State) : Result :=
  .next (checkedWrite s rd ((s.getX rs1).toNat - (s.getX rs2).toNat))

/-- MUL (R443). -/
def execMul (rd rs1 rs2 : XReg) (s : State) : Result :=
  .next (checkedWrite s rd ((s.getX rs1).toNat * (s.getX rs2).toNat))

/-- ADDI (R444). -/
def execAddi (rd rs : XReg) (imm : Word) (s : State) : Result :=
  .next (checkedWrite s rd ((s.getX rs).toNat + imm.toNat))

/-- SUBI (R445). -/
def execSubi (rd rs : XReg) (imm : Word) (s : State) : Result :=
  .next (checkedWrite s rd ((s.getX rs).toNat - imm.toNat))

/-- MULI (R446). -/
def execMuli (rd rs : XReg) (imm : Word) (s : State) : Result :=
  .next (checkedWrite s rd ((s.getX rs).toNat * imm.toNat))

/-- DIV: the floor of the unsigned quotient, DivByZero for divisor 0 (R447). -/
def execDiv (rd rs1 rs2 : XReg) (s : State) : Result :=
  if s.getX rs2 = 0 then .next (s.raise .divByZero)
  else .next (s.setX rd (BitVec.ofNat 64 ((s.getX rs1).toNat / (s.getX rs2).toNat)))

/-- MOD: the unsigned remainder, DivByZero for divisor 0 (R448). -/
def execMod (rd rs1 rs2 : XReg) (s : State) : Result :=
  if s.getX rs2 = 0 then .next (s.raise .divByZero)
  else
    let a := (s.getX rs1).toNat
    let b := (s.getX rs2).toNat
    .next (s.setX rd (BitVec.ofNat 64 (a - b * (a / b))))

end Sys2Proof.Machine
end

