-- ==== Sys2Proof/Machine/Jumps.lean ====
section
/-! DEFINITION. Jumps (46_jumps.md R520-R527). -/

namespace Sys2Proof.Machine

/-- JMP (R520). -/
def execJmp (rt : XReg) (s : State) : Result := .next (jumpTo s rt)

/-- JO: reads OF and does not clear it (R521). -/
def execJo (rt : XReg) (s : State) : Result := .next (jumpIf s s.ovf rt)

/-- JNO (R522). -/
def execJno (rt : XReg) (s : State) : Result := .next (jumpIf s (!s.ovf) rt)

/-- JEQ (R523). -/
def execJeq (rt rs1 rs2 : XReg) (s : State) : Result :=
  .next (jumpIf s (s.getX rs1 == s.getX rs2) rt)

/-- JNE (R524). -/
def execJne (rt rs1 rs2 : XReg) (s : State) : Result :=
  .next (jumpIf s (s.getX rs1 != s.getX rs2) rt)

/-- JZ (R525). -/
def execJz (rt rs : XReg) (s : State) : Result := .next (jumpIf s (s.getX rs == 0) rt)

/-- JNZ (R526). -/
def execJnz (rt rs : XReg) (s : State) : Result := .next (jumpIf s (s.getX rs != 0) rt)

end Sys2Proof.Machine
end

