-- ==== Sys2Proof/Machine/Moves.lean ====
section
/-! DEFINITION. Immediate loads and register moves (41_move.md R420-R423). -/

namespace Sys2Proof.Machine

/-- LDI: `x[rd] <- IMM` (R420). -/
def execLdi (rd : XReg) (imm : Word) (s : State) : Result := .next (s.setX rd imm)

/-- LDF: `f[fd] <- IMM`, the pattern as is (R421). -/
def execLdf (fd : FReg) (imm : Word) (s : State) : Result := .next (s.setF fd imm)

/-- MOV: `x[rd] <- x[rs]` (R422). -/
def execMov (rd rs : XReg) (s : State) : Result := .next (s.setX rd (s.getX rs))

/-- MOVF: `f[fd] <- f[fs]`, a copy of the pattern (R423). -/
def execMovf (fd fs : FReg) (s : State) : Result := .next (s.setF fd (s.getF fs))

end Sys2Proof.Machine
end

