-- ==== Sys2Proof/Machine/Syscall.lean ====
section
/-! DEFINITION. System calls and the reserved opcodes (49_syscall_reserved.md R580-R586): the dispatch
and the folding of results, and the example write binding of R586 as one possible function. -/

namespace Sys2Proof.Machine

/-- One write of a syscall function (R582), of any value; a write of OF may clear it (log 21), and
a write of the heap may create and resize array cells (log 22). -/
def applyWrite (s : State) : SysWrite → State
  | .setX r v => s.setX r v
  | .setF r v => s.setF r v
  | .setOF b => { s with ovf := b }
  | .setPc v => s.setPc v
  | .setBp v => s.setBp v
  | .setHeap cs => s.setHeap (Heap.ofList cs)
  | .setStack st => s.setStack st

/-- All writes of a syscall function, in order. -/
def applyWrites (s : State) (ws : List SysWrite) : State := ws.foldl applyWrite s

/-- The result of a syscall function folded into the run (R580, R583); the writes are kept whatever
it is. -/
def foldReply (s : State) (r : SysReply) : State :=
  match r.result with
  | .ok => applyWrites s r.writes
  | .halt => (applyWrites s r.writes).halt
  | .fault k => (applyWrites s r.writes).raise k

/-- The bytes of a heap cell: 8 for a scalar, 8 for each element of an array (R214, R586). -/
def cellBytes : HeapCell → List Byte
  | .scalar t => t.toBytes
  | .intArr l => l.flatMap fun v => bytesLE 8 v.toNat
  | .fltArr l => l.flatMap fun v => bytesLE 8 v.toNat

/-- The bytes of the cells from an address to the end of the heap (R586). -/
def heapBytesFrom (h : Heap) (a : Nat) : List Byte :=
  (List.range (h.len - a)).flatMap fun j => cellBytes (h.read (a + j))

/-- The bytes the example write hands to the host stream, `x[2]` of them from heap address `x[1]`;
`none` where one would lie beyond the last cell (R586). -/
def exampleWriteBytes (s : State) : Option (List Byte) :=
  let bs := heapBytesFrom s.heap (s.getX .r1).toNat
  let n := (s.getX .r2).toNat
  if n ≤ bs.length then some (bs.take n) else none

/-- The reply of the example write (R586; log 14): status in `x[3]`, byte count in `x[4]`. -/
def exampleWriteReply (stream : StreamOutcome) (s : State) : SysReply :=
  match exampleWriteBytes s with
  | none => ⟨[], .fault .invalidSysCallArg⟩
  | some bs =>
    match stream with
    | .accepts => ⟨[.setX .r3 0, .setX .r4 (BitVec.ofNat 64 bs.length)], .ok⟩
    | .fails written status =>
      ⟨[.setX .r3 (if status = 0 then 1 else status),
        .setX .r4 (BitVec.ofNat 64 (min written bs.length))], .ok⟩

/-- What the host's stream takes of the example write's bytes (R586). -/
def exampleWriteOutput (stream : StreamOutcome) (s : State) : List Byte :=
  match exampleWriteBytes s, stream with
  | none, _ => []
  | some bs, .accepts => bs
  | some bs, .fails written _ => bs.take written

/-- What calling an entry of the table on a state gives; `none` where the host function never returns
(R581, 93_implementation_defined.md K15). -/
def syscallReply (e : SyscallEntry) (s : State) : Option SysReply :=
  match e with
  | .native id => Config.nativeSyscall id s.sysCalls s
  | .fixed r => some r
  | .exampleWrite stream => some (exampleWriteReply stream s)

/-- SYSCALL (R580): bounds-check the index, call the function, fold its result. -/
def execSyscall (ri : XReg) (s : State) : Result :=
  match s.params.syscalls[(s.getX ri).toNat]? with
  | none => .next (s.raise .invalidSysCall)
  | some e =>
    match syscallReply e s with
    | none => .fault .syscallNeverReturns
    | some r => .next (foldReply { s with sysCalls := s.sysCalls + 1 } r)

/-- IN: raise NotImplemented (R584). -/
def execInp (s : State) : Result := .next (s.raise .notImplemented)

/-- OUT: raise NotImplemented (R585). -/
def execOut (s : State) : Result := .next (s.raise .notImplemented)

end Sys2Proof.Machine
end

