-- ==== Sys2Proof/Machine/Dispatch.lean ====
section
/-! DEFINITION. Execute (40_cycle.md R405): one arm per instruction, each the one rule of 30_encoding.md R305. -/

namespace Sys2Proof.Machine

def exec (i : Instr) (s : State) : Host.Outcome State Fault Refusal :=
  match i with
  | .nop => Sys2Proof.Machine.execNop s
  | .halt => Sys2Proof.Machine.execHalt s
  | .ldi rd imm => Sys2Proof.Machine.execLdi rd imm s
  | .ldf fd imm => Sys2Proof.Machine.execLdf fd imm s
  | .mov rd rs => Sys2Proof.Machine.execMov rd rs s
  | .movf fd fs => Sys2Proof.Machine.execMovf fd fs s
  | .add rd rs1 rs2 => Sys2Proof.Machine.execAdd rd rs1 rs2 s
  | .sub rd rs1 rs2 => Sys2Proof.Machine.execSub rd rs1 rs2 s
  | .mul rd rs1 rs2 => Sys2Proof.Machine.execMul rd rs1 rs2 s
  | .addi rd rs imm => Sys2Proof.Machine.execAddi rd rs imm s
  | .subi rd rs imm => Sys2Proof.Machine.execSubi rd rs imm s
  | .muli rd rs imm => Sys2Proof.Machine.execMuli rd rs imm s
  | .div rd rs1 rs2 => Sys2Proof.Machine.execDiv rd rs1 rs2 s
  | .mod rd rs1 rs2 => Sys2Proof.Machine.execMod rd rs1 rs2 s
  | .fadd fd fs1 fs2 => Sys2Proof.Machine.execFadd fd fs1 fs2 s
  | .fsub fd fs1 fs2 => Sys2Proof.Machine.execFsub fd fs1 fs2 s
  | .fmul fd fs1 fs2 => Sys2Proof.Machine.execFmul fd fs1 fs2 s
  | .fdiv fd fs1 fs2 => Sys2Proof.Machine.execFdiv fd fs1 fs2 s
  | .faddi fd fs imm => Sys2Proof.Machine.execFaddi fd fs imm s
  | .fsubi fd fs imm => Sys2Proof.Machine.execFsubi fd fs imm s
  | .fmuli fd fs imm => Sys2Proof.Machine.execFmuli fd fs imm s
  | .fdivi fd fs imm => Sys2Proof.Machine.execFdivi fd fs imm s
  | .and rd rs1 rs2 => Sys2Proof.Machine.execAnd rd rs1 rs2 s
  | .or rd rs1 rs2 => Sys2Proof.Machine.execOr rd rs1 rs2 s
  | .xor rd rs1 rs2 => Sys2Proof.Machine.execXor rd rs1 rs2 s
  | .not rd rs => Sys2Proof.Machine.execNot rd rs s
  | .neg rd rs => Sys2Proof.Machine.execNeg rd rs s
  | .fneg fd fs => Sys2Proof.Machine.execFneg fd fs s
  | .shl rd rs => Sys2Proof.Machine.execShl rd rs s
  | .shr rd rs => Sys2Proof.Machine.execShr rd rs s
  | .ldh rd ra => Sys2Proof.Machine.execLdh rd ra s
  | .ldhf fd ra => Sys2Proof.Machine.execLdhf fd ra s
  | .sth rs ra => Sys2Proof.Machine.execSth rs ra s
  | .sthf fs ra => Sys2Proof.Machine.execSthf fs ra s
  | .lds rd ro => Sys2Proof.Machine.execLds rd ro s
  | .ldsf fd ro => Sys2Proof.Machine.execLdsf fd ro s
  | .sts rs ro => Sys2Proof.Machine.execSts rs ro s
  | .stsf fs ro => Sys2Proof.Machine.execStsf fs ro s
  | .jmp rt => Sys2Proof.Machine.execJmp rt s
  | .jo rt => Sys2Proof.Machine.execJo rt s
  | .jno rt => Sys2Proof.Machine.execJno rt s
  | .jeq rt rs1 rs2 => Sys2Proof.Machine.execJeq rt rs1 rs2 s
  | .jne rt rs1 rs2 => Sys2Proof.Machine.execJne rt rs1 rs2 s
  | .jz rt rs => Sys2Proof.Machine.execJz rt rs s
  | .jnz rt rs => Sys2Proof.Machine.execJnz rt rs s
  | .push rs => Sys2Proof.Machine.execPush rs s
  | .pushf fs => Sys2Proof.Machine.execPushf fs s
  | .pop rd => Sys2Proof.Machine.execPop rd s
  | .popf fd => Sys2Proof.Machine.execPopf fd s
  | .call rt => Sys2Proof.Machine.execCall rt s
  | .ret => Sys2Proof.Machine.execRet s
  | .syscall ri => Sys2Proof.Machine.execSyscall ri s
  | .inp => Sys2Proof.Machine.execInp s
  | .out => Sys2Proof.Machine.execOut s

end Sys2Proof.Machine
end

