-- ==== Sys2Proof/Machine/Cycle.lean ====
section
/-! DEFINITION. The fetch-decode-execute cycle (40_cycle.md R400-R406) and what one step of the core is. -/

namespace Sys2Proof.Machine

/-- The hook's answer at a call (R401, 60_exceptions.md R610, R613); `none` where it never returns
(93_implementation_defined.md K15). -/
def hookAnswer (h : Hook) (s : State) : Option HookAnswer :=
  match h with
  | .native id => Config.nativeHook id s.hookCalls s
  | .stepLimit n => some (if n ≤ s.hookCalls then .stop else .goOn)
  | .breakpoint b => some (if s.pc = b then .stop else .goOn)

/-- Decode and execute a fetched word, on the state whose pc is already past it (R404, R405). -/
def decodeAndExecute (w : InstrWord) (s : State) : Result :=
  match decode w with
  | .illegalInstruction => .next (s.raise .illegalInstruction)
  | .invalidReg => .next (s.raise .invalidReg)
  | .ok i => exec i s

/-- The cycle from the fetch on (R402-R405). -/
def fetchAndExecute (s : State) : Result :=
  match s.code[s.pc.toNat]? with
  | none => .next (s.raise .invalidCodeAddr)
  | some w => decodeAndExecute w (s.setPc (s.pc + 1))

/-- The state after the hook has been called once more. -/
def State.countHook (s : State) : State := { s with hookCalls := s.hookCalls + 1 }

/-- One cycle (R400): the hook check (R401), then the fetch. -/
def cycle (s : State) : Result :=
  match s.params.hook with
  | none => fetchAndExecute s
  | some h =>
    match hookAnswer h s with
    | none => .fault .hookNeverReturns
    | some .stop => .next s.countHook.stop
    | some .goOn => fetchAndExecute s.countHook

/-- One step of the core: a cycle while `STATE = RUNNING` (R400); otherwise no run is in progress, the
core does nothing and waits for the host (R614; log 6). -/
def coreStep (s : State) : Result :=
  match s.runState with
  | .running => cycle s
  | .idle | .halted | .faulted | .stopped => .next s

/-- The code segment with a word placed at an index, padded with NOP words where it was shorter. -/
def placeWord (code : List InstrWord) (k : Nat) (w : InstrWord) : List InstrWord :=
  if k < code.length then code.set k w
  else code ++ List.replicate (k - code.length) 0 ++ [w]

end Sys2Proof.Machine
end

