-- ==== Sys2Proof/Machine/Step.lean ====
section
/-! DEFINITION. The step function, and the placing of one instruction where it fetches. -/

namespace Sys2Proof.Machine

/-- One step (40_cycle.md R400). -/
def step (s : State) : Host.Outcome State Fault Refusal := coreStep s

/-- `s` with one instruction where the next step fetches it: the word at index pc of CODE, a run in
progress (`STATE = RUNNING`, `CAUSE = 0`, what `run` sets, R704) and no hook that could stop it before
the fetch. It stands for the host's `load` and `run` (log 7). -/
def State.withFetchWord (s : State) (nbits w : Nat) : State :=
  { s with
    code := placeWord s.code s.pc.toNat (BitVec.ofNat 128 (w % 2 ^ nbits))
    runState := .running
    cause := 0
    params := { s.params with hook := none } }

end Sys2Proof.Machine
end

