-- ==== Sys2Proof/Machine/HostIface.lean ====
section
/-! DEFINITION. The host interface of the core (70_reset_and_hazards.md R700-R708): the operations of
R706, inspection, and the end of a run with its outcome and fetch-cycle count. -/

namespace Sys2Proof.Machine

/-- The host operations that act on an instance (R706), but for inspection and construction
(`State.construct`). -/
inductive HostOp where
  | load (code : List InstrWord) (heap : Option (List HeapCell)) (stack : Option (List Tagged))
  | cpuReset
  | vmReset
  | run
  deriving DecidableEq, Repr

/-- CPU reset (R700). -/
def cpuReset (s : State) : State :=
  { s with
    x := XBank.zero, f := FBank.zero, ovf := false, pc := 0, bp := 0, runState := .idle, cause := 0 }

/-- VM reset (R701): the CPU reset and empty segments. -/
def vmReset (s : State) : State :=
  { cpuReset s with code := [], heap := Heap.empty, stack := [] }

/-- Do the given segments fit the core? A heap or stack beyond its capacity is refused (R703); code
beyond `2^64 - 1` words is no code segment (R202; log 9). -/
def loadFits (s : State) (code : List InstrWord) (heap : Option (List HeapCell))
    (stack : Option (List Tagged)) : Bool :=
  code.length ≤ 2 ^ 64 - 1 &&
    heap.all (fun h => fits s.params.heapCap h.length) &&
    stack.all (fun st => fits s.params.stackCap st.length)

/-- `load` (R703): the given segments are replaced, an omitted one keeps its contents, and nothing
else changes. -/
def loadSegments (s : State) (code : List InstrWord) (heap : Option (List HeapCell))
    (stack : Option (List Tagged)) : State :=
  { s with
    code := code
    heap := (heap.map Heap.ofList).getD s.heap
    stack := stack.getD s.stack }

/-- The start of a run (R704). -/
def startRun (s : State) : State := { s with runState := .running, cause := 0 }

/-- A host operation: refused, with no effect, while a run is in progress (R706, K13). -/
def hostOp (op : HostOp) (s : State) : Result :=
  if s.runState = .running then .refused .hostOperationWhileRunning
  else
    match op with
    | .load code heap stack =>
      if loadFits s code heap stack then .next (loadSegments s code heap stack)
      else .refused .loadTooLong
    | .cpuReset => .next (cpuReset s)
    | .vmReset => .next (vmReset s)
    | .run => .next (startRun s)

/-! ### Inspection (R705, R222) -/

/-- A snapshot of the code segment, only while no run is in progress (R222). -/
def snapshotCode (s : State) : Option (List InstrWord) :=
  if s.runState = .running then none else some s.code

/-- A snapshot of the heap: the full list of cells with their tags (R222). -/
def snapshotHeap (s : State) : Option (List HeapCell) :=
  if s.runState = .running then none else some s.heap.toList

/-- A snapshot of the stack (R222). -/
def snapshotStack (s : State) : Option (List Tagged) :=
  if s.runState = .running then none else some s.stack

/-! ### The end of a run (R707, R708) -/

/-- The outcome of a run (R707). -/
inductive RunOutcome where
  | halted
  | faulted (k : FaultKind)
  | stopped
  deriving DecidableEq, Repr

/-- The outcome of the last run, read from STATE and CAUSE (R707); `none` while none has ended. -/
def runOutcome (s : State) : Option RunOutcome :=
  match s.runState with
  | .halted => some .halted
  | .faulted => (FaultKind.ofCode s.cause).map .faulted
  | .stopped => some .stopped
  | .idle | .running => none

/-- Does the step from `s` perform a successful fetch, which R708 counts? -/
def fetches (s : State) : Bool :=
  s.runState == .running && s.pc.toNat < s.code.length &&
    match s.params.hook with
    | none => true
    | some h => hookAnswer h s == some .goOn

/-- The end of a run: its outcome, its final state and its fetch-cycle count (R707, R708). -/
structure RunEnd where
  outcome : RunOutcome
  final : State
  fetchCycles : Nat
  deriving DecidableEq, Repr

/-- The run from a state in which it is in progress, up to `fuel` steps; `none` where it has not ended
by then (93_implementation_defined.md K16) or got stuck (K15). -/
def runCore : (fuel : Nat) → (count : Nat) → State → Option RunEnd
  | 0, n, s => (runOutcome s).map fun o => ⟨o, s, n⟩
  | fuel + 1, n, s =>
    match runOutcome s with
    | some o => some ⟨o, s, n⟩
    | none =>
      match coreStep s with
      | .next s' => runCore fuel (if fetches s then n + 1 else n) s'
      | .fault _ => none
      | .refused _ => none

/-- `run()` (R704) with a bound on the number of steps. -/
def hostRun (fuel : Nat) (s : State) : Option RunEnd :=
  match hostOp .run s with
  | .next s' => runCore fuel 0 s'
  | .fault _ => none
  | .refused _ => none

end Sys2Proof.Machine
end

