-- ==== Sys2Proof/Safety.lean ====
section
/-! DEFINITION. What claims are stated with: the invariant of a state, what a safe run is, which
register, flag or pc an instruction may write, and how one state differs from another. -/

namespace Sys2Proof.Machine

/-- STATE and CAUSE agree (10_state.md R113, 60_exceptions.md R601): the cause of a faulted state is
the code of one of the eleven faults, and every other state's cause is 0. -/
abbrev State.statusLegal (s : State) : Prop :=
  if s.runState = .faulted then (FaultKind.ofCode s.cause).isSome = true else s.cause = 0

/-- The code segment is no longer than it can be (20_memory.md R202), so that `pc + 1` never wraps
after a successful fetch (R106). -/
abbrev State.codeFits (s : State) : Prop := s.code.length ≤ 2 ^ 64 - 1

/-- The invariant of a state: the heap keeps its canonical form, the status is legal, the code segment
fits. Every host operation and every step keeps it. -/
structure State.Inv (s : State) : Prop where
  heapWf : Memory.wf s.heap
  statusLegal : s.statusLegal
  codeFits : s.codeFits

/-- The stack and the heap are within their capacities (00_scope.md R6). A syscall function may break
this (49_syscall_reserved.md R582: no core check on what it writes; log 13), nothing else does. -/
structure State.WithinCapacity (s : State) : Prop where
  stack : fits s.params.stackCap s.stack.length = true
  heap : fits s.params.heapCap s.heap.len = true

/-- A run that ends without a fault: HALTED, or STOPPED by the hook (R707). -/
def RunEnd.safe (e : RunEnd) : Prop := e.outcome = .halted ∨ e.outcome = .stopped

/-- The run started from `s` ends within `fuel` steps, and safely. -/
def runsSafely (fuel : Nat) (s : State) : Prop := ∃ e, hostRun fuel s = some e ∧ e.safe

/-! ### What an instruction may write -/

/-- The integer register an instruction writes as destination A (10_state.md R102). -/
def intDestination : Instr → Option XReg
  | .ldi d _ => some d
  | .mov d _ => some d
  | .add d _ _ => some d
  | .sub d _ _ => some d
  | .mul d _ _ => some d
  | .addi d _ _ => some d
  | .subi d _ _ => some d
  | .muli d _ _ => some d
  | .div d _ _ => some d
  | .mod d _ _ => some d
  | .and d _ _ => some d
  | .or d _ _ => some d
  | .xor d _ _ => some d
  | .not d _ => some d
  | .neg d _ => some d
  | .shl d _ => some d
  | .shr d _ => some d
  | .ldh d _ => some d
  | .lds d _ => some d
  | .pop d => some d
  | .nop | .halt | .ldf _ _ | .movf _ _ | .fadd _ _ _ | .fsub _ _ _ | .fmul _ _ _
  | .fdiv _ _ _ | .faddi _ _ _ | .fsubi _ _ _ | .fmuli _ _ _ | .fdivi _ _ _ | .fneg _ _
  | .ldhf _ _ | .sth _ _ | .sthf _ _ | .ldsf _ _ | .sts _ _ | .stsf _ _ | .jmp _ | .jo _
  | .jno _ | .jeq _ _ _ | .jne _ _ _ | .jz _ _ | .jnz _ _ | .push _ | .pushf _ | .popf _
  | .call _ | .ret | .syscall _ | .inp | .out => none

/-- The float register an instruction writes as destination A (10_state.md R104). -/
def floatDestination : Instr → Option FReg
  | .ldf d _ => some d
  | .movf d _ => some d
  | .fadd d _ _ => some d
  | .fsub d _ _ => some d
  | .fmul d _ _ => some d
  | .fdiv d _ _ => some d
  | .faddi d _ _ => some d
  | .fsubi d _ _ => some d
  | .fmuli d _ _ => some d
  | .fdivi d _ _ => some d
  | .fneg d _ => some d
  | .ldhf d _ => some d
  | .ldsf d _ => some d
  | .popf d => some d
  | .nop | .halt | .ldi _ _ | .mov _ _ | .add _ _ _ | .sub _ _ _ | .mul _ _ _ | .addi _ _ _
  | .subi _ _ _ | .muli _ _ _ | .div _ _ _ | .mod _ _ _ | .and _ _ _ | .or _ _ _ | .xor _ _ _
  | .not _ _ | .neg _ _ | .shl _ _ | .shr _ _ | .ldh _ _ | .sth _ _ | .sthf _ _ | .lds _ _
  | .sts _ _ | .stsf _ _ | .jmp _ | .jo _ | .jno _ | .jeq _ _ _ | .jne _ _ _ | .jz _ _
  | .jnz _ _ | .push _ | .pushf _ | .pop _ | .call _ | .ret | .syscall _ | .inp | .out => none

/-- Is it SYSCALL, whose function may write nearly everything (49_syscall_reserved.md R582)? -/
def isSyscall : Instr → Bool
  | .syscall _ => true
  | _ => false

/-- Does the instruction write the heap (20_memory.md R201)? The loads do when they grow it. -/
def mayWriteHeap : Instr → Bool
  | .ldh _ _ | .ldhf _ _ | .sth _ _ | .sthf _ _ | .syscall _ => true
  | _ => false

/-- Does the instruction write the stack (20_memory.md R201)? -/
def mayWriteStack : Instr → Bool
  | .sts _ _ | .stsf _ _ | .push _ | .pushf _ | .pop _ | .popf _ | .call _ | .ret | .syscall _ => true
  | _ => false

/-- Does the instruction write bp (10_state.md R107)? -/
def mayWriteBp : Instr → Bool
  | .call _ | .ret | .syscall _ => true
  | _ => false

/-- Is it a write of pc? -/
def SysWrite.setsPc : SysWrite → Bool
  | .setPc _ => true
  | _ => false

/-- Is it a write of OF? -/
def SysWrite.setsOF : SysWrite → Bool
  | .setOF _ => true
  | _ => false

/-- Does the function that a SYSCALL by `ri` calls on `s` return with a write of the given sort
(49_syscall_reserved.md R582)? -/
def syscallWrites (p : SysWrite → Bool) (s : State) (ri : XReg) : Bool :=
  match s.params.syscalls[(s.getX ri).toNat]? with
  | none => false
  | some e =>
    match syscallReply e s with
    | none => false
    | some r => r.writes.any p

/-- Does the instruction, executed on `s`, write pc: JMP, a taken jump, CALL, RET, or a SYSCALL whose
function does (40_cycle.md R411)? -/
def mayWritePc (s : State) : Instr → Bool
  | .jmp _ | .call _ | .ret => true
  | .jo _ => s.ovf
  | .jno _ => !s.ovf
  | .jeq _ a b => s.getX a = s.getX b
  | .jne _ a b => s.getX a ≠ s.getX b
  | .jz _ a => s.getX a = 0
  | .jnz _ a => s.getX a ≠ 0
  | .syscall ri => syscallWrites SysWrite.setsPc s ri
  | _ => false

/-- The instructions that may have changed state before they raise a fault (60_exceptions.md R604). -/
def faultsAfterEffects : Instr → Bool
  | .pop _ | .popf _ | .ret | .syscall _ => true
  | _ => false

/-- The events that set OF, but for a syscall function's write (10_state.md R110). -/
def overflows (s : State) : Instr → Prop
  | .add _ a b => 2 ^ 64 ≤ (s.getX a).toNat + (s.getX b).toNat
  | .sub _ a b => (s.getX a).toNat < (s.getX b).toNat
  | .mul _ a b => 2 ^ 64 ≤ (s.getX a).toNat * (s.getX b).toNat
  | .addi _ a v => 2 ^ 64 ≤ (s.getX a).toNat + v.toNat
  | .subi _ a v => (s.getX a).toNat < v.toNat
  | .muli _ a v => 2 ^ 64 ≤ (s.getX a).toNat * v.toNat
  | .neg _ a => (s.getX a).toNat = 2 ^ 63
  | .shl _ a => 2 ^ 63 ≤ (s.getX a).toNat
  | .shr _ a => (s.getX a).toNat % 2 = 1
  | _ => False

/-- The unassigned opcodes of 30_encoding.md R307. -/
abbrev unassignedOpcode (n : Nat) : Prop :=
  (0x02 ≤ n ∧ n ≤ 0x07) ∨ (0x0C ≤ n ∧ n ≤ 0x0F) ∨ (0x18 ≤ n ∧ n ≤ 0x1F) ∨ (0x28 ≤ n ∧ n ≤ 0x2F) ∨
    (0x38 ≤ n ∧ n ≤ 0x3F) ∨ (0x48 ≤ n ∧ n ≤ 0x4F) ∨ (0x57 ≤ n ∧ n ≤ 0x5F) ∨ (0x64 ≤ n ∧ n ≤ 0x6F) ∨
    (0x73 ≤ n ∧ n ≤ 0x7D) ∨ (0x80 ≤ n ∧ n ≤ 0xFF)

/-! ### The cycle up to the fetch, and encodings -/

/-- `u` is `s` after a hook check that lets the cycle proceed (40_cycle.md R401): no hook, or one that
answers Continue and whose call is counted (log 4). -/
def PassesHook (s u : State) : Prop :=
  (s.params.hook = none ∧ u = s) ∨
    ∃ h, s.params.hook = some h ∧ hookAnswer h s = some .goOn ∧
      u = { s with hookCalls := s.hookCalls + 1 }

/-- The word with this opcode, these register fields and this immediate, and RSV 0, is the encoding of
the instruction: the Encoding line of an instruction's rule (30_encoding.md R300, R302). -/
def HasWord (i : Instr) (opc : BitVec 8) (a b c : BitVec 4) (imm : Word) : Prop :=
  decode (wordOf ⟨opc, a, b, c, 0, imm⟩) = .ok i

/-! ### The state after reset -/

/-- The registers, OF, pc, bp, STATE and CAUSE as 10_state.md R115 gives them after every reset. -/
structure ZeroedCpu (s : State) : Prop where
  x : ∀ r, s.getX r = 0
  f : ∀ r, s.getF r = 0
  ovf : s.ovf = false
  pc : s.pc = 0
  bp : s.bp = 0
  runState : s.runState = .idle
  cause : s.cause = 0

/-- The three segments are empty (10_state.md R115). -/
structure EmptySegments (s : State) : Prop where
  code : s.code = []
  heapLen : s.heap.len = 0
  heap : s.heap.toList = []
  stack : s.stack = []

/-! ### Float values -/

/-- The zero with a sign. -/
def signedZero (neg : Bool) : Word := if neg then 0x8000000000000000 else 0x0000000000000000

/-- The infinity with a sign. -/
def signedInf (neg : Bool) : Word := if neg then 0xFFF0000000000000 else 0x7FF0000000000000

/-- `r` is the exact value `n / d`, in units of `2^-1074`, rounded to nearest, ties to even
(00_scope.md R12): with its sign where it is not 0; an infinity from halfway past the largest finite
magnitude on (log 11); otherwise finite, no other finite value nearer, and where another is as near,
its significand even. -/
def RoundsTo (n : Int) (d : Nat) (r : Word) : Prop :=
  (n ≠ 0 → floatSign r = decide (n < 0)) ∧
  (d * ((2 ^ 54 - 1) * 2 ^ 2044) ≤ n.natAbs → r = signedInf (decide (n < 0))) ∧
  (n.natAbs < d * ((2 ^ 54 - 1) * 2 ^ 2044) → floatExp r < 2047 ∧
    ∀ y, floatExp y < 2047 → floatSigned y ≠ floatSigned r →
      let err := (floatSigned r * d - n).natAbs
      let other := (floatSigned y * d - n).natAbs
      err < other ∨ (err = other ∧ r.getLsbD 0 = false))

/-! ### How a state differs from another -/

/-- `t` is `s` with `x[rd]` holding `v`, and nothing else differs: no other register, flag, pc, bp,
status, segment, parameter or counter. -/
def WritesX (s : State) (rd : XReg) (v : Word) (t : State) : Prop :=
  t.getX rd = v ∧ (∀ r, r ≠ rd → t.getX r = s.getX r) ∧ t = { s with x := t.x }

/-- `t` is `s` with `f[fd]` holding `v`, and nothing else differs. -/
def WritesF (s : State) (fd : FReg) (v : Word) (t : State) : Prop :=
  t.getF fd = v ∧ (∀ r, r ≠ fd → t.getF r = s.getF r) ∧ t = { s with f := t.f }

/-- `t` is `s` after a checked write of the exact result `r` to `x[rd]` (42_int_arith.md R440): the
register holds it, or it does not fit and OF is set; nothing else differs. -/
def ChecksX (s : State) (rd : XReg) (r : Int) (t : State) : Prop :=
  (0 ≤ r ∧ r ≤ 2 ^ 64 - 1 → ((t.getX rd).toNat : Int) = r ∧ WritesX s rd (t.getX rd) t) ∧
    (¬(0 ≤ r ∧ r ≤ 2 ^ 64 - 1) → t = { s with ovf := true })

/-- `t` is `s` after a float result was written to `f[fd]`: the value, or the instance's `NAN_RESULT`,
which is some NaN (43_float_arith.md R460; log 2); nothing else differs. -/
def WritesFloat (s : State) (fd : FReg) (r : Option Word) (t : State) : Prop :=
  match r with
  | some v => WritesF s fd v t
  | none => WritesF s fd s.nanResult t ∧ floatIsNaN (t.getF fd) = true

/-- The heap of `t` is that of `s` grown to hold address `a`: the old cells are kept, the gap is
`Scalar(Int(0))`, and the cell at `a` is `c` (20_memory.md R210). -/
def GrowsHeap (s : State) (a : Nat) (c : HeapCell) (t : State) : Prop :=
  t.heap.len = a + 1 ∧ t.heap.read a = c ∧ (∀ j, j < s.heap.len → t.heap.read j = s.heap.read j) ∧
    ∀ j, s.heap.len ≤ j → j < a → t.heap.read j = .scalar (.int 0)

/-- `t` is `s` with heap cell `a` holding `c`, and nothing else differs. -/
def WritesCell (s : State) (a : Nat) (c : HeapCell) (t : State) : Prop :=
  t.heap.len = s.heap.len ∧ t.heap.read a = c ∧ (∀ j, j ≠ a → t.heap.read j = s.heap.read j) ∧
    t = { s with heap := t.heap }

end Sys2Proof.Machine
end

