-- ==== Sys2Proof/Certificates/Slice0/Obligations.lean ====
section
/-! DEFINITION. The statements for the provers. Every statement about `exec` speaks of the state in
which pc already holds the fetch address plus 1, as the spec's instruction rules do (40_cycle.md
R403). -/

open Sys2Proof Sys2Proof.Machine

/-! ### Encoding (30_encoding.md) -/

/-- Every instruction decodes from the word that encodes it (R300-R305, R311). Every term of `Instr` is
well formed by its types. -/
def Obligations.DecodeInvertsEncode : Prop :=
  ∀ i : Instr, decode (encode i) = .ok i

/-- Apart from IN and OUT, whose other 120 bits are free (R310), an instruction has exactly one legal
word (R311). -/
def Obligations.LegalWordIsUnique : Prop :=
  ∀ (w : InstrWord) (i : Instr), decode w = .ok i → i ≠ .inp → i ≠ .out → w = encode i

/-- The decoder's check list (R306) answers by the machine-readable opcode table: an instruction for exactly
the words that are legal encodings of a row; IllegalInstruction for exactly the words that have no row's
shape (R307, R308); InvalidReg for exactly those that have a row's shape and name a wrong bank (R309). -/
def Obligations.DecoderFollowsTheTable : Prop :=
  ∀ w : InstrWord,
    ((∃ i, decode w = .ok i) ↔ wellFormedWord w = true) ∧
    (decode w = .illegalInstruction ↔ ∀ r ∈ opcodeTable, r.shapeOk w = false) ∧
    (decode w = .invalidReg ↔ ∃ r ∈ opcodeTable, r.shapeOk w = true ∧ r.banksOk w = false)

/-- No word has the shape of two rows of the opcode table (R305). -/
def Obligations.OpcodeRowsAreDisjoint : Prop :=
  ∀ w : InstrWord, ∀ r ∈ opcodeTable, ∀ r' ∈ opcodeTable,
    r.shapeOk w = true → r'.shapeOk w = true → r = r'

/-- Words written out from the fields of R300-R305 decode to the instructions they stand for. -/
def Obligations.WrittenOutWordsDecode : Prop :=
  decode 0x00000000000000000000000000021110 = .ok (.add .r1 .r1 .r2) ∧
  decode 0x00000000DEADBEEF0000000000000308 = .ok (.ldi .r3 0xDEADBEEF) ∧
  decode 0x3FE00000000000000000000000009824 = .ok (.faddi .f0 .f1 0x3FE0000000000000) ∧
  decode 0x00000000000000000000000000001843 = .ok (.sthf .f0 .r1) ∧
  decode 0x00000000000000000000000000032153 = .ok (.jeq .r1 .r2 .r3) ∧
  decode 0xFFFFFFFFFFFFFFFFFFFFFFFFFFFFFF7E = .ok .inp ∧
  decode 0x00000000000000000000000000001041 = .invalidReg ∧
  decode 0x00000000000000000000000000001071 = .illegalInstruction

/-- A word serializes to 16 bytes, byte `j` being `W[8j+7:8j]`, and reads back (R313); a tagged value's 8
bytes are those of its payload, least significant first, for either tag (20_memory.md R214). -/
def Obligations.BytesAreLittleEndian : Prop :=
  (∀ w : InstrWord, (wordToBytes w).length = 16 ∧
    (∀ j, j < 16 → (wordToBytes w)[j]? = some (w.extractLsb' (8 * j) 8)) ∧
    wordOfBytes (wordToBytes w) = some w) ∧
  (∀ v : Word, (Tagged.int v).toBytes.length = 8 ∧ (Tagged.flt v).toBytes = (Tagged.int v).toBytes ∧
    ∀ j, j < 8 → (Tagged.int v).toBytes[j]? = some (v.extractLsb' (8 * j) 8))

/-! ### The cycle (40_cycle.md) -/

/-- A step from RUNNING that the hook lets proceed and whose fetched word decodes to `i` is `exec i` on the
state with pc one further (R400, R403-R405). -/
def Obligations.StepRunsTheDecodedInstruction : Prop :=
  ∀ (s u : State) (w : InstrWord) (i : Instr), s.runState = .running → PassesHook s u →
    s.code[s.pc.toNat]? = some w → decode w = .ok i →
    step s = exec i { u with pc := s.pc + 1 }

/-- A fetched word that does not decode raises its fault with pc past it and no other state changed
(R404). -/
def Obligations.UndecodableWordFaultsPastIt : Prop :=
  ∀ (s u : State) (w : InstrWord), s.runState = .running → PassesHook s u →
    s.code[s.pc.toNat]? = some w →
    (decode w = .illegalInstruction →
      step s = .next { u with pc := s.pc + 1, runState := .faulted, cause := 0x0A }) ∧
    (decode w = .invalidReg →
      step s = .next { u with pc := s.pc + 1, runState := .faulted, cause := 0x05 })

/-- Fetching a word with an unassigned opcode raises IllegalInstruction, whatever its other bits; the listed
opcodes are 202 (R307). -/
def Obligations.UnassignedOpcodeIsIllegal : Prop :=
  ((List.range 256).filter fun n => decide (unassignedOpcode n)).length = 202 ∧
  ∀ (s u : State) (w : InstrWord), s.runState = .running → PassesHook s u →
    s.code[s.pc.toNat]? = some w → unassignedOpcode (w.extractLsb' 0 8).toNat →
    step s = .next { u with pc := s.pc + 1, runState := .faulted, cause := 0x0A }

/-- A cycle that reaches the fetch with pc outside the code segment raises InvalidCodeAddr and keeps that
pc and everything else (R402). -/
def Obligations.FetchOutOfRangeKeepsPc : Prop :=
  ∀ s u : State, s.runState = .running → PassesHook s u → s.code.length ≤ s.pc.toNat →
    step s = .next { u with runState := .faulted, cause := 0x01 }

/-- A hook that answers Stop ends the run before the fetch, with everything unchanged but STATE (and the
model's count of hook calls, log 4) (R401). -/
def Obligations.HookStopEndsTheRun : Prop :=
  ∀ (s : State) (h : Hook), s.runState = .running → s.params.hook = some h →
    hookAnswer h s = some .stop →
    step s = .next { s with runState := .stopped, hookCalls := s.hookCalls + 1 }

/-- An instruction placed with `withFetchWord` is what the next step runs (log 7). -/
def Obligations.PlacedInstructionRuns : Prop :=
  ∀ (s : State) (i : Instr), step (s.withFetchWord 128 (encode i).toNat) =
    exec i { s with
      code := placeWord s.code s.pc.toNat (encode i), runState := .running, cause := 0,
      params := { s.params with hook := none }, pc := s.pc + 1 }

/-- The pc invariant (R411, an inference the spec draws from R403) for a whole step, without wrap: after
an instruction fetched from `k` that does not write pc (is not JMP, a taken jump, CALL, RET or a SYSCALL
whose function writes pc), pc is `k + 1`, whether it completes or faults. -/
def Obligations.PcAdvancesByOne : Prop :=
  ∀ (s u t : State) (w : InstrWord) (i : Instr), s.codeFits → s.runState = .running →
    PassesHook s u → s.code[s.pc.toNat]? = some w → decode w = .ok i →
    mayWritePc { u with pc := s.pc + 1 } i = false → step s = .next t →
    t.pc.toNat = s.pc.toNat + 1

/-! ### Invariants -/

/-- Every step keeps the invariant: the heap's canonical form, a legal STATUS, a code segment that
fits. -/
def Obligations.EveryStepKeepsInv : Prop :=
  ∀ s t : State, s.Inv → step s = .next t → t.Inv

/-- The invariant holds at reset. -/
def Obligations.ResetMeetsInv : Prop := State.reset.Inv

/-- Every host operation keeps the invariant. -/
def Obligations.HostOperationsKeepInv : Prop :=
  ∀ (op : HostOp) (s t : State), s.Inv → hostOp op s = .next t → t.Inv

/-- Every instruction but SYSCALL keeps the stack and the heap within their capacities (20_memory.md R204,
R210). -/
def Obligations.InstructionsKeepCapacities : Prop :=
  ∀ (i : Instr) (s t : State), isSyscall i = false → s.WithinCapacity → exec i s = .next t →
    t.WithinCapacity

/-- No step writes the code segment or a parameter, syscall functions included (20_memory.md R221,
70_reset_and_hazards.md R702). -/
def Obligations.NoStepWritesCodeOrParameters : Prop :=
  ∀ s t : State, step s = .next t → t.code = s.code ∧ t.params = s.params

/-! ### Rules of the whole machine -/

/-- OF after an instruction: set by exactly the events of 10_state.md R110, never cleared; SYSCALL itself
does not touch it, only a function that writes it does (and may clear it, log 21). -/
def Obligations.OverflowSetByItsEventsOnly : Prop :=
  ∀ (i : Instr) (s t : State), exec i s = .next t →
    (isSyscall i = false → (t.ovf = true ↔ s.ovf = true ∨ overflows s i)) ∧
    (∀ ri, i = .syscall ri → syscallWrites SysWrite.setsOF s ri = false → t.ovf = s.ovf)

/-- An instruction other than SYSCALL writes at most its destination register, in either bank (10_state.md
R102, R104). -/
def Obligations.OnlyDestinationRegisterWritten : Prop :=
  ∀ (i : Instr) (s t : State), isSyscall i = false → exec i s = .next t →
    (∀ r, intDestination i ≠ some r → t.getX r = s.getX r) ∧
    (∀ r, floatDestination i ≠ some r → t.getF r = s.getF r)

/-- bp is written by CALL, RET and SYSCALL only (10_state.md R107); the heap by the heap instructions and
SYSCALL only, the stack by the storing stack instructions, push, pop, CALL, RET and SYSCALL only
(20_memory.md R201). -/
def Obligations.BasePointerAndSegmentWriters : Prop :=
  ∀ (i : Instr) (s t : State), exec i s = .next t →
    (mayWriteBp i = false → t.bp = s.bp) ∧ (mayWriteHeap i = false → t.heap = s.heap) ∧
    (mayWriteStack i = false → t.stack = s.stack)

/-- A faulting instruction other than POP, POPF, RET and SYSCALL has done nothing but raise the fault
(60_exceptions.md R604). -/
def Obligations.FaultsHaveNoOtherEffect : Prop :=
  ∀ (i : Instr) (s t : State), faultsAfterEffects i = false → s.runState = .running →
    exec i s = .next t → t.runState = .faulted →
    ∃ k : FaultKind, t = { s with runState := .faulted, cause := k.code }

/-- Raising a fault writes STATE and CAUSE, with the codes of R601, and nothing else (R603). -/
def Obligations.FaultEntry : Prop :=
  (∀ (s : State) (k : FaultKind), s.raise k = { s with runState := .faulted, cause := k.code }) ∧
  FaultKind.code .invalidCodeAddr = 0x01 ∧ FaultKind.code .invalidStackAddr = 0x02 ∧
  FaultKind.code .divByZero = 0x03 ∧ FaultKind.code .typeMismatch = 0x04 ∧
  FaultKind.code .invalidReg = 0x05 ∧ FaultKind.code .invalidHeapType = 0x06 ∧
  FaultKind.code .invalidSysCall = 0x07 ∧ FaultKind.code .invalidSysCallArg = 0x08 ∧
  FaultKind.code .notImplemented = 0x09 ∧ FaultKind.code .illegalInstruction = 0x0A ∧
  FaultKind.code .resourceExhausted = 0x0B

/-! ### Loop control and moves -/

/-- NOP (R409) changes nothing; HALT (R410, R407) ends the run HALTED with CAUSE 0 and changes nothing
else. -/
def Obligations.NopAndHaltComplete : Prop :=
  HasWord .nop 0x00 0 0 0 0 ∧ HasWord .halt 0x01 0 0 0 0 ∧
  ∀ s : State, exec .nop s = .next s ∧
    exec .halt s = .next { s with runState := .halted, cause := 0 }

/-- LDI, LDF, MOV and MOVF write their value to their destination and nothing else (41_move.md
R420-R423). -/
def Obligations.LoadsAndMovesComplete : Prop :=
  ∀ (s : State) (rd rs : XReg) (fd fs : FReg) (v : Word),
    (HasWord (.ldi rd v) 0x08 rd.spec 0 0 v ∧
      ∃ t, exec (.ldi rd v) s = .next t ∧ WritesX s rd v t) ∧
    (HasWord (.ldf fd v) 0x09 fd.spec 0 0 v ∧
      ∃ t, exec (.ldf fd v) s = .next t ∧ WritesF s fd v t) ∧
    (HasWord (.mov rd rs) 0x0A rd.spec rs.spec 0 0 ∧
      ∃ t, exec (.mov rd rs) s = .next t ∧ WritesX s rd (s.getX rs) t) ∧
    (HasWord (.movf fd fs) 0x0B fd.spec fs.spec 0 0 ∧
      ∃ t, exec (.movf fd fs) s = .next t ∧ WritesF s fd (s.getF fs) t)

/-! ### Integer arithmetic (42_int_arith.md) -/

/-- ADD, SUB and MUL: the exact unsigned result where it fits 64 bits; otherwise the destination is left
and OF is set; OF is never cleared (R440-R443). -/
def Obligations.AddSubMulComplete : Prop :=
  ∀ (s : State) (rd a b : XReg),
    (HasWord (.add rd a b) 0x10 rd.spec a.spec b.spec 0 ∧
      ∃ t, exec (.add rd a b) s = .next t ∧ ChecksX s rd ((s.getX a).toNat + (s.getX b).toNat) t) ∧
    (HasWord (.sub rd a b) 0x11 rd.spec a.spec b.spec 0 ∧
      ∃ t, exec (.sub rd a b) s = .next t ∧ ChecksX s rd ((s.getX a).toNat - (s.getX b).toNat) t) ∧
    (HasWord (.mul rd a b) 0x12 rd.spec a.spec b.spec 0 ∧
      ∃ t, exec (.mul rd a b) s = .next t ∧ ChecksX s rd ((s.getX a).toNat * (s.getX b).toNat) t)

/-- ADDI, SUBI and MULI, with the immediate as an unsigned second operand (R444-R446). -/
def Obligations.AddSubMulImmediateComplete : Prop :=
  ∀ (s : State) (rd a : XReg) (v : Word),
    (HasWord (.addi rd a v) 0x13 rd.spec a.spec 0 v ∧
      ∃ t, exec (.addi rd a v) s = .next t ∧ ChecksX s rd ((s.getX a).toNat + v.toNat) t) ∧
    (HasWord (.subi rd a v) 0x14 rd.spec a.spec 0 v ∧
      ∃ t, exec (.subi rd a v) s = .next t ∧ ChecksX s rd ((s.getX a).toNat - v.toNat) t) ∧
    (HasWord (.muli rd a v) 0x15 rd.spec a.spec 0 v ∧
      ∃ t, exec (.muli rd a v) s = .next t ∧ ChecksX s rd ((s.getX a).toNat * v.toNat) t)

/-- DIV and MOD (R447, R448): by a nonzero divisor the unsigned quotient and remainder, touching nothing
else, OF included; by zero DivByZero and nothing else changed. -/
def Obligations.DivModOutcomes : Prop :=
  ∀ (s : State) (rd a b : XReg),
    HasWord (.div rd a b) 0x16 rd.spec a.spec b.spec 0 ∧
    HasWord (.mod rd a b) 0x17 rd.spec a.spec b.spec 0 ∧
    (s.getX b ≠ 0 →
      (∃ t, exec (.div rd a b) s = .next t ∧ WritesX s rd (t.getX rd) t ∧
        (t.getX rd).toNat = (s.getX a).toNat / (s.getX b).toNat) ∧
      (∃ t, exec (.mod rd a b) s = .next t ∧ WritesX s rd (t.getX rd) t ∧
        (t.getX rd).toNat = (s.getX a).toNat % (s.getX b).toNat)) ∧
    (s.getX b = 0 →
      exec (.div rd a b) s = .next { s with runState := .faulted, cause := 0x03 } ∧
      exec (.mod rd a b) s = .next { s with runState := .faulted, cause := 0x03 })

/-! ### Float arithmetic (43_float_arith.md) -/

/-- FADD, FSUB, FMUL and FDIV write the result of the IEEE 754 operation, or `NAN_RESULT`, which is a NaN, to
the destination and nothing else (R460-R464; logs 2 and 11). -/
def Obligations.FloatArithComplete : Prop :=
  ∀ (s : State) (fd a b : FReg),
    (HasWord (.fadd fd a b) 0x20 fd.spec a.spec b.spec 0 ∧
      ∃ t, exec (.fadd fd a b) s = .next t ∧ WritesFloat s fd (floatAdd (s.getF a) (s.getF b)) t) ∧
    (HasWord (.fsub fd a b) 0x21 fd.spec a.spec b.spec 0 ∧
      ∃ t, exec (.fsub fd a b) s = .next t ∧ WritesFloat s fd (floatSub (s.getF a) (s.getF b)) t) ∧
    (HasWord (.fmul fd a b) 0x22 fd.spec a.spec b.spec 0 ∧
      ∃ t, exec (.fmul fd a b) s = .next t ∧ WritesFloat s fd (floatMul (s.getF a) (s.getF b)) t) ∧
    (HasWord (.fdiv fd a b) 0x23 fd.spec a.spec b.spec 0 ∧
      ∃ t, exec (.fdiv fd a b) s = .next t ∧ WritesFloat s fd (floatDiv (s.getF a) (s.getF b)) t)

/-- FADDI, FSUBI, FMULI and FDIVI, with the immediate as the second operand (R465-R468). -/
def Obligations.FloatImmediateComplete : Prop :=
  ∀ (s : State) (fd a : FReg) (v : Word),
    (HasWord (.faddi fd a v) 0x24 fd.spec a.spec 0 v ∧
      ∃ t, exec (.faddi fd a v) s = .next t ∧ WritesFloat s fd (floatAdd (s.getF a) v) t) ∧
    (HasWord (.fsubi fd a v) 0x25 fd.spec a.spec 0 v ∧
      ∃ t, exec (.fsubi fd a v) s = .next t ∧ WritesFloat s fd (floatSub (s.getF a) v) t) ∧
    (HasWord (.fmuli fd a v) 0x26 fd.spec a.spec 0 v ∧
      ∃ t, exec (.fmuli fd a v) s = .next t ∧ WritesFloat s fd (floatMul (s.getF a) v) t) ∧
    (HasWord (.fdivi fd a v) 0x27 fd.spec a.spec 0 v ∧
      ∃ t, exec (.fdivi fd a v) s = .next t ∧ WritesFloat s fd (floatDiv (s.getF a) v) t)

/-- The rounding of a quotient of units of `2^-1074` (00_scope.md R12): the result is infinity exactly
from halfway past the largest finite magnitude; below it, no finite magnitude is nearer, and where
another is as near, the result's last bit is 0. -/
def Obligations.RoundingIsNearestTiesToEven : Prop :=
  ∀ n d : Nat, 0 < d →
    (roundMagnitude n d = infMagnitude ↔ d * ((2 ^ 54 - 1) * 2 ^ 2044) ≤ n) ∧
    roundMagnitude n d ≤ infMagnitude ∧
    (roundMagnitude n d < infMagnitude → ∀ m, m < infMagnitude → m ≠ roundMagnitude n d →
      let err := ((floatUnits (BitVec.ofNat 64 (roundMagnitude n d)) * d : Nat) : Int) - n
      let other := ((floatUnits (BitVec.ofNat 64 m) * d : Nat) : Int) - n
      err.natAbs < other.natAbs ∨ (err.natAbs = other.natAbs ∧ roundMagnitude n d % 2 = 0))

/-- On finite operands a sum, difference, product or quotient by a nonzero value is the exact result
rounded to nearest, ties to even, or the infinity of its sign (R12, R460; log 11 for the bound of
infinity). Values are whole numbers of units of `2^-1074`. -/
def Obligations.FloatResultsAreNearest : Prop :=
  ∀ a b : Word, floatExp a < 2047 → floatExp b < 2047 →
    (∃ r, floatAdd a b = some r ∧ RoundsTo (floatSigned a + floatSigned b) 1 r) ∧
    (∃ r, floatSub a b = some r ∧ RoundsTo (floatSigned a - floatSigned b) 1 r) ∧
    (∃ r, floatMul a b = some r ∧ RoundsTo (floatSigned a * floatSigned b) (2 ^ 1074) r) ∧
    (floatIsZero b = false → ∃ r, floatDiv a b = some r ∧
      RoundsTo (floatSigned a * 2 ^ 1074 * if floatSign b = true then -1 else 1) (floatUnits b) r)

/-- IEEE 754's special cases (R460-R464; log 11). A result is a NaN for a NaN operand, opposite infinities
added, like infinities subtracted, zero times infinity, zero by zero, infinity by infinity, and for nothing
else. A zero sum or difference of finite values is -0.0 only where both addends are (R461, R462); a zero
product or quotient, and every infinite product or quotient of an infinity or by a zero, has the exclusive
or of the signs; an infinity added to or subtracted from a finite value keeps or flips its sign. -/
def Obligations.FloatSpecialCases : Prop :=
  ∀ a b : Word, let neg := floatSign a != floatSign b
    (floatAdd a b = none ↔ floatIsNaN a = true ∨ floatIsNaN b = true ∨
      (floatIsInf a = true ∧ floatIsInf b = true ∧ floatSign a ≠ floatSign b)) ∧
    (floatSub a b = none ↔ floatIsNaN a = true ∨ floatIsNaN b = true ∨
      (floatIsInf a = true ∧ floatIsInf b = true ∧ floatSign a = floatSign b)) ∧
    (floatMul a b = none ↔ floatIsNaN a = true ∨ floatIsNaN b = true ∨
      (floatIsInf a = true ∧ floatIsZero b = true) ∨ (floatIsZero a = true ∧ floatIsInf b = true)) ∧
    (floatDiv a b = none ↔ floatIsNaN a = true ∨ floatIsNaN b = true ∨
      (floatIsZero a = true ∧ floatIsZero b = true) ∨ (floatIsInf a = true ∧ floatIsInf b = true)) ∧
    (floatExp a < 2047 → floatExp b < 2047 →
      (floatSigned a + floatSigned b = 0 → floatAdd a b =
        some (signedZero (floatIsZero a && floatIsZero b && floatSign a && floatSign b))) ∧
      (floatSigned a - floatSigned b = 0 → floatSub a b =
        some (signedZero (floatIsZero a && floatIsZero b && floatSign a && !floatSign b))) ∧
      (floatIsZero a = true ∨ floatIsZero b = true → floatMul a b = some (signedZero neg)) ∧
      (floatIsZero a = true → floatIsZero b = false → floatDiv a b = some (signedZero neg)) ∧
      (floatIsZero a = false → floatIsZero b = true → floatDiv a b = some (signedInf neg))) ∧
    (floatIsInf a = true →
      (floatExp b < 2047 ∨ b = a → floatAdd a b = some a) ∧
      (floatExp b < 2047 ∨ (floatIsInf b = true ∧ floatSign b ≠ floatSign a) →
        floatSub a b = some a) ∧
      (floatIsNaN b = false → floatIsZero b = false → floatMul a b = some (signedInf neg)) ∧
      (floatExp b < 2047 → floatDiv a b = some (signedInf neg))) ∧
    (floatIsInf b = true → floatExp a < 2047 →
      floatAdd a b = some b ∧ floatSub a b = some (signedInf (!floatSign b)) ∧
      (floatIsZero a = false → floatMul a b = some (signedInf neg)) ∧
      floatDiv a b = some (signedZero neg))

/-- `NAN_RESULT` is a NaN, for every choice of the host, and every NaN pattern is one that the host can
choose: the parameter leaves nothing out (R6, R12). No step changes it (R702). -/
def Obligations.DrawsAreExactlyTheNaNs : Prop :=
  (∀ s : State, floatIsNaN s.nanResult = true) ∧
  (∀ b : Word, floatIsNaN b = true →
    ∃ c, ∀ s : State, s.params.nanResult = c → s.nanResult = b) ∧
  ∀ s t : State, step s = .next t → t.nanResult = s.nanResult

/-! ### Bitwise and unary (44_bitwise_unary.md) -/

/-- AND, OR, XOR and NOT, bit by bit (R480-R483). -/
def Obligations.BitwiseComplete : Prop :=
  ∀ (s : State) (rd a b : XReg),
    (HasWord (.and rd a b) 0x30 rd.spec a.spec b.spec 0 ∧
      ∃ t, exec (.and rd a b) s = .next t ∧ WritesX s rd (t.getX rd) t ∧
      ∀ j, j < 64 → (t.getX rd).getLsbD j = ((s.getX a).getLsbD j && (s.getX b).getLsbD j)) ∧
    (HasWord (.or rd a b) 0x31 rd.spec a.spec b.spec 0 ∧
      ∃ t, exec (.or rd a b) s = .next t ∧ WritesX s rd (t.getX rd) t ∧
      ∀ j, j < 64 → (t.getX rd).getLsbD j = ((s.getX a).getLsbD j || (s.getX b).getLsbD j)) ∧
    (HasWord (.xor rd a b) 0x32 rd.spec a.spec b.spec 0 ∧
      ∃ t, exec (.xor rd a b) s = .next t ∧ WritesX s rd (t.getX rd) t ∧
      ∀ j, j < 64 → (t.getX rd).getLsbD j = ((s.getX a).getLsbD j != (s.getX b).getLsbD j)) ∧
    (HasWord (.not rd a) 0x33 rd.spec a.spec 0 0 ∧
      ∃ t, exec (.not rd a) s = .next t ∧ WritesX s rd (t.getX rd) t ∧
      ∀ j, j < 64 → (t.getX rd).getLsbD j = !(s.getX a).getLsbD j)

/-- NEG writes the two's-complement negation, except that the minimum sets OF and leaves the destination
(R484). -/
def Obligations.NegComplete : Prop :=
  ∀ (s : State) (rd a : XReg), HasWord (.neg rd a) 0x34 rd.spec a.spec 0 0 ∧
    ∃ t, exec (.neg rd a) s = .next t ∧
      ((s.getX a).toNat = 2 ^ 63 → t = { s with ovf := true }) ∧
      ((s.getX a).toNat ≠ 2 ^ 63 →
        WritesX s rd (t.getX rd) t ∧ (t.getX rd).toNat = (2 ^ 64 - (s.getX a).toNat) % 2 ^ 64)

/-- FNEG flips bit 63 of any pattern and touches nothing else (R485, which the spec marks as its own
knowledge, 93_implementation_defined.md G3). -/
def Obligations.FnegComplete : Prop :=
  ∀ (s : State) (fd a : FReg), HasWord (.fneg fd a) 0x35 fd.spec a.spec 0 0 ∧
    ∃ t, exec (.fneg fd a) s = .next t ∧ WritesF s fd (t.getF fd) t ∧
      ∀ j, j < 64 → (t.getF fd).getLsbD j = ((s.getF a).getLsbD j != decide (j = 63))

/-- SHL and SHR by one bit, logical; a set bit shifted out sets OF and leaves the destination (R486,
R487). -/
def Obligations.ShiftsComplete : Prop :=
  ∀ (s : State) (rd a : XReg),
    (HasWord (.shl rd a) 0x36 rd.spec a.spec 0 0 ∧ ∃ t, exec (.shl rd a) s = .next t ∧
      (2 ^ 63 ≤ (s.getX a).toNat → t = { s with ovf := true }) ∧
      ((s.getX a).toNat < 2 ^ 63 →
        WritesX s rd (t.getX rd) t ∧ (t.getX rd).toNat = (s.getX a).toNat * 2)) ∧
    (HasWord (.shr rd a) 0x37 rd.spec a.spec 0 0 ∧ ∃ t, exec (.shr rd a) s = .next t ∧
      ((s.getX a).toNat % 2 = 1 → t = { s with ovf := true }) ∧
      ((s.getX a).toNat % 2 = 0 →
        WritesX s rd (t.getX rd) t ∧ (t.getX rd).toNat = (s.getX a).toNat / 2))

/-! ### Heap access (45_heap_stack_access.md, 20_memory.md) -/

/-- LDH (R500, R211) at the address in `ra`: on a hit the integer of the cell or its fault, on a miss 0 with
the heap grown, or ResourceExhausted at the capacity. -/
def Obligations.LdhOutcomes : Prop :=
  ∀ (s : State) (rd ra : XReg), Memory.wf s.heap →
    let a := (s.getX ra).toNat
    HasWord (.ldh rd ra) 0x40 rd.spec ra.spec 0 0 ∧
    (a < s.heap.len →
      (∀ v, s.heap.read a = .scalar (.int v) → ∃ t, exec (.ldh rd ra) s = .next t ∧ WritesX s rd v t) ∧
      (∀ v l, s.heap.read a = .intArr (v :: l) → ∃ t, exec (.ldh rd ra) s = .next t ∧ WritesX s rd v t) ∧
      (∀ b, s.heap.read a = .scalar (.flt b) →
        exec (.ldh rd ra) s = .next { s with runState := .faulted, cause := 0x04 }) ∧
      (s.heap.read a = .intArr [] ∨ (∃ l, s.heap.read a = .fltArr l) →
        exec (.ldh rd ra) s = .next { s with runState := .faulted, cause := 0x06 })) ∧
    (s.heap.len ≤ a → fits s.params.heapCap (a + 1) = true →
      ∃ t, exec (.ldh rd ra) s = .next t ∧ GrowsHeap s a (.scalar (.int 0)) t ∧
        t.getX rd = 0 ∧ (∀ r, r ≠ rd → t.getX r = s.getX r) ∧ t = { s with x := t.x, heap := t.heap }) ∧
    (s.heap.len ≤ a → fits s.params.heapCap (a + 1) = false →
      exec (.ldh rd ra) s = .next { s with runState := .faulted, cause := 0x0B })

/-- LDHF (R501, R211), as LDH for the float kind; the cell a miss accesses becomes +0.0. -/
def Obligations.LdhfOutcomes : Prop :=
  ∀ (s : State) (fd : FReg) (ra : XReg), Memory.wf s.heap →
    let a := (s.getX ra).toNat
    HasWord (.ldhf fd ra) 0x41 fd.spec ra.spec 0 0 ∧
    (a < s.heap.len →
      (∀ v, s.heap.read a = .scalar (.flt v) → ∃ t, exec (.ldhf fd ra) s = .next t ∧ WritesF s fd v t) ∧
      (∀ v l, s.heap.read a = .fltArr (v :: l) →
        ∃ t, exec (.ldhf fd ra) s = .next t ∧ WritesF s fd v t) ∧
      (∀ v, s.heap.read a = .scalar (.int v) →
        exec (.ldhf fd ra) s = .next { s with runState := .faulted, cause := 0x04 }) ∧
      (s.heap.read a = .fltArr [] ∨ (∃ l, s.heap.read a = .intArr l) →
        exec (.ldhf fd ra) s = .next { s with runState := .faulted, cause := 0x06 })) ∧
    (s.heap.len ≤ a → fits s.params.heapCap (a + 1) = true →
      ∃ t, exec (.ldhf fd ra) s = .next t ∧ GrowsHeap s a (.scalar (.flt 0)) t ∧
        t.getF fd = 0 ∧ (∀ r, r ≠ fd → t.getF r = s.getF r) ∧ t = { s with f := t.f, heap := t.heap }) ∧
    (s.heap.len ≤ a → fits s.params.heapCap (a + 1) = false →
      exec (.ldhf fd ra) s = .next { s with runState := .faulted, cause := 0x0B })

/-- STH (R502, R212): the cell stored, every other cell, register and segment as before; its faults; on a
miss the heap grown to hold the value. -/
def Obligations.SthOutcomes : Prop :=
  ∀ (s : State) (rs ra : XReg), Memory.wf s.heap →
    let a := (s.getX ra).toNat
    let v := s.getX rs
    HasWord (.sth rs ra) 0x42 rs.spec ra.spec 0 0 ∧
    (a < s.heap.len →
      (∀ u, s.heap.read a = .scalar u →
        ∃ t, exec (.sth rs ra) s = .next t ∧ WritesCell s a (.scalar (.int v)) t) ∧
      (∀ u l, s.heap.read a = .intArr (u :: l) →
        ∃ t, exec (.sth rs ra) s = .next t ∧ WritesCell s a (.intArr (v :: l)) t) ∧
      (s.heap.read a = .intArr [] ∨ (∃ l, s.heap.read a = .fltArr l) →
        exec (.sth rs ra) s = .next { s with runState := .faulted, cause := 0x06 })) ∧
    (s.heap.len ≤ a → fits s.params.heapCap (a + 1) = true →
      ∃ t, exec (.sth rs ra) s = .next t ∧ GrowsHeap s a (.scalar (.int v)) t ∧
        t = { s with heap := t.heap }) ∧
    (s.heap.len ≤ a → fits s.params.heapCap (a + 1) = false →
      exec (.sth rs ra) s = .next { s with runState := .faulted, cause := 0x0B })

/-- STHF (R503, R212), as STH for the float kind. -/
def Obligations.SthfOutcomes : Prop :=
  ∀ (s : State) (fs : FReg) (ra : XReg), Memory.wf s.heap →
    let a := (s.getX ra).toNat
    let v := s.getF fs
    HasWord (.sthf fs ra) 0x43 fs.spec ra.spec 0 0 ∧
    (a < s.heap.len →
      (∀ u, s.heap.read a = .scalar u →
        ∃ t, exec (.sthf fs ra) s = .next t ∧ WritesCell s a (.scalar (.flt v)) t) ∧
      (∀ u l, s.heap.read a = .fltArr (u :: l) →
        ∃ t, exec (.sthf fs ra) s = .next t ∧ WritesCell s a (.fltArr (v :: l)) t) ∧
      (s.heap.read a = .fltArr [] ∨ (∃ l, s.heap.read a = .intArr l) →
        exec (.sthf fs ra) s = .next { s with runState := .faulted, cause := 0x06 })) ∧
    (s.heap.len ≤ a → fits s.params.heapCap (a + 1) = true →
      ∃ t, exec (.sthf fs ra) s = .next t ∧ GrowsHeap s a (.scalar (.flt v)) t ∧
        t = { s with heap := t.heap }) ∧
    (s.heap.len ≤ a → fits s.params.heapCap (a + 1) = false →
      exec (.sthf fs ra) s = .next { s with runState := .faulted, cause := 0x0B })

/-- A heap read repeated with the same kind gives the same value and no longer changes the heap (R213: heap
auto-grow idempotence); a read after a write of the same kind gives the value written and changes nothing
(R211, R212, R219). -/
def Obligations.HeapReadsAreStable : Prop :=
  ∀ (cap : Option Nat) (h h' : Heap) (a : Nat), Memory.wf h →
    (∀ k v, heapReadScalar cap h a k = .ok (v, h') → heapReadScalar cap h' a k = .ok (v, h')) ∧
    (∀ t, heapWriteScalar cap h a t = .ok h' →
      heapReadScalar cap h' a t.kind = .ok (t.payload, h'))

/-! ### Stack-relative access, push and pop (45_heap_stack_access.md, 47_push_pop.md) -/

/-- LDS and LDSF at slot `bp + x[ro]`, computed without wrap (R504-R506): the slot of the kind, TypeMismatch
for the other kind, InvalidStackAddr out of range. -/
def Obligations.StackLoadOutcomes : Prop :=
  ∀ (s : State) (rd ro : XReg) (fd : FReg),
    let ea := s.bp.toNat + (s.getX ro).toNat
    HasWord (.lds rd ro) 0x44 rd.spec ro.spec 0 0 ∧ HasWord (.ldsf fd ro) 0x45 fd.spec ro.spec 0 0 ∧
    (∀ v, s.stack[ea]? = some (.int v) →
      (∃ t, exec (.lds rd ro) s = .next t ∧ WritesX s rd v t) ∧
      exec (.ldsf fd ro) s = .next { s with runState := .faulted, cause := 0x04 }) ∧
    (∀ b, s.stack[ea]? = some (.flt b) →
      (∃ t, exec (.ldsf fd ro) s = .next t ∧ WritesF s fd b t) ∧
      exec (.lds rd ro) s = .next { s with runState := .faulted, cause := 0x04 }) ∧
    (s.stack.length ≤ ea →
      exec (.lds rd ro) s = .next { s with runState := .faulted, cause := 0x02 } ∧
      exec (.ldsf fd ro) s = .next { s with runState := .faulted, cause := 0x02 })

/-- STS and STSF at slot `bp + x[ro]` (R504, R507, R508): the slot is replaced whatever its tag, every other
slot is kept; out of range InvalidStackAddr and nothing changed. -/
def Obligations.StackStoreOutcomes : Prop :=
  ∀ (s : State) (rs ro : XReg) (fs : FReg),
    let ea := s.bp.toNat + (s.getX ro).toNat
    HasWord (.sts rs ro) 0x46 rs.spec ro.spec 0 0 ∧ HasWord (.stsf fs ro) 0x47 fs.spec ro.spec 0 0 ∧
    (ea < s.stack.length →
      (∃ t, exec (.sts rs ro) s = .next t ∧ t = { s with stack := t.stack } ∧
        t.stack.length = s.stack.length ∧ t.stack[ea]? = some (.int (s.getX rs)) ∧
        ∀ j, j ≠ ea → t.stack[j]? = s.stack[j]?) ∧
      (∃ t, exec (.stsf fs ro) s = .next t ∧ t = { s with stack := t.stack } ∧
        t.stack.length = s.stack.length ∧ t.stack[ea]? = some (.flt (s.getF fs)) ∧
        ∀ j, j ≠ ea → t.stack[j]? = s.stack[j]?)) ∧
    (s.stack.length ≤ ea →
      exec (.sts rs ro) s = .next { s with runState := .faulted, cause := 0x02 } ∧
      exec (.stsf fs ro) s = .next { s with runState := .faulted, cause := 0x02 })

/-- PUSH and PUSHF append a tagged value, or raise ResourceExhausted at the capacity with nothing changed
(R540, R541, R204). -/
def Obligations.PushOutcomes : Prop :=
  ∀ (s : State) (rs : XReg) (fs : FReg),
    HasWord (.push rs) 0x60 rs.spec 0 0 0 ∧ HasWord (.pushf fs) 0x61 fs.spec 0 0 0 ∧
    (fits s.params.stackCap (s.stack.length + 1) = true →
      exec (.push rs) s = .next { s with stack := s.stack ++ [.int (s.getX rs)] } ∧
      exec (.pushf fs) s = .next { s with stack := s.stack ++ [.flt (s.getF fs)] }) ∧
    (fits s.params.stackCap (s.stack.length + 1) = false →
      exec (.push rs) s = .next { s with runState := .faulted, cause := 0x0B } ∧
      exec (.pushf fs) s = .next { s with runState := .faulted, cause := 0x0B })

/-- POP and POPF (R542, R543): the top slot of the kind is removed and written; a slot of the other kind is
removed and TypeMismatch raised; on an empty stack InvalidStackAddr and nothing changed. -/
def Obligations.PopOutcomes : Prop :=
  ∀ (s : State) (rd : XReg) (fd : FReg) (st : List Tagged) (v : Word),
    HasWord (.pop rd) 0x62 rd.spec 0 0 0 ∧ HasWord (.popf fd) 0x63 fd.spec 0 0 0 ∧
    (s.stack = st ++ [.int v] →
      (∃ t, exec (.pop rd) s = .next t ∧ WritesX { s with stack := st } rd v t) ∧
      exec (.popf fd) s = .next { s with stack := st, runState := .faulted, cause := 0x04 }) ∧
    (s.stack = st ++ [.flt v] →
      (∃ t, exec (.popf fd) s = .next t ∧ WritesF { s with stack := st } fd v t) ∧
      exec (.pop rd) s = .next { s with stack := st, runState := .faulted, cause := 0x04 }) ∧
    (s.stack = [] →
      exec (.pop rd) s = .next { s with runState := .faulted, cause := 0x02 } ∧
      exec (.popf fd) s = .next { s with runState := .faulted, cause := 0x02 })

/-! ### Jumps (46_jumps.md) -/

/-- The seven jumps (R520-R527): the target register's value in pc when taken, not validated, and everything
unchanged when not; OF is read and kept; equality is of whole 64-bit values. -/
def Obligations.JumpsComplete : Prop :=
  ∀ (s : State) (rt a b : XReg),
    (HasWord (.jmp rt) 0x50 rt.spec 0 0 0 ∧ exec (.jmp rt) s = .next { s with pc := s.getX rt }) ∧
    (HasWord (.jo rt) 0x51 rt.spec 0 0 0 ∧
      exec (.jo rt) s = .next (if s.ovf = true then { s with pc := s.getX rt } else s)) ∧
    (HasWord (.jno rt) 0x52 rt.spec 0 0 0 ∧
      exec (.jno rt) s = .next (if s.ovf = false then { s with pc := s.getX rt } else s)) ∧
    (HasWord (.jeq rt a b) 0x53 rt.spec a.spec b.spec 0 ∧ exec (.jeq rt a b) s =
      .next (if s.getX a = s.getX b then { s with pc := s.getX rt } else s)) ∧
    (HasWord (.jne rt a b) 0x54 rt.spec a.spec b.spec 0 ∧ exec (.jne rt a b) s =
      .next (if s.getX a ≠ s.getX b then { s with pc := s.getX rt } else s)) ∧
    (HasWord (.jz rt a) 0x55 rt.spec a.spec 0 0 ∧
      exec (.jz rt a) s = .next (if s.getX a = 0 then { s with pc := s.getX rt } else s)) ∧
    (HasWord (.jnz rt a) 0x56 rt.spec a.spec 0 0 ∧
      exec (.jnz rt a) s = .next (if s.getX a ≠ 0 then { s with pc := s.getX rt } else s))

/-! ### Call and return (48_call_ret.md) -/

/-- CALL (R560): with room for two slots it pushes bp and pc, sets bp to the new top index and jumps, all
else unchanged; without, ResourceExhausted and nothing changed. -/
def Obligations.CallOutcomes : Prop :=
  ∀ (s : State) (rt : XReg), s.stack.length + 1 < 2 ^ 64 →
    HasWord (.call rt) 0x70 rt.spec 0 0 0 ∧
    (fits s.params.stackCap (s.stack.length + 2) = true →
      ∃ t, exec (.call rt) s = .next t ∧ t.stack = s.stack ++ [.int s.bp, .int s.pc] ∧
        t.bp.toNat = t.stack.length - 1 ∧ t.pc = s.getX rt ∧
        t = { s with stack := t.stack, bp := t.bp, pc := t.pc }) ∧
    (fits s.params.stackCap (s.stack.length + 2) = false →
      exec (.call rt) s = .next { s with runState := .faulted, cause := 0x0B })

/-- RET (R561), by what the stack truncated to bp + 1 holds at its top: two integers are restored into pc
and bp; each fault keeps the steps before it. -/
def Obligations.RetOutcomes : Prop :=
  ∀ (s : State) (st : List Tagged) (b p f : Word),
    HasWord .ret 0x71 0 0 0 0 ∧
    (s.stack.take (s.bp.toNat + 1) = st ++ [.int b, .int p] →
      exec .ret s = .next { s with stack := st, pc := p, bp := b }) ∧
    (s.stack.take (s.bp.toNat + 1) = st ++ [.flt f, .int p] →
      exec .ret s = .next { s with stack := st, pc := p, runState := .faulted, cause := 0x04 }) ∧
    (s.stack.take (s.bp.toNat + 1) = [.int p] →
      exec .ret s = .next { s with stack := [], pc := p, runState := .faulted, cause := 0x02 }) ∧
    (s.stack.take (s.bp.toNat + 1) = st ++ [.flt f] →
      exec .ret s = .next { s with stack := st, runState := .faulted, cause := 0x04 }) ∧
    (s.stack = [] → exec .ret s = .next { s with runState := .faulted, cause := 0x02 })

/-- Frame symmetry (R563): after a CALL from `s` into `t`, a RET from any later `u` whose bp is the callee's
and whose stack still has the frame's two link slots, with anything above them, restores the bp, pc and
stack length that `s` had, keeps the slots below the frame as `u` had them, and changes nothing else. -/
def Obligations.FrameSymmetry : Prop :=
  ∀ (s t u : State) (rt : XReg), s.stack.length + 1 < 2 ^ 64 → exec (.call rt) s = .next t →
    t.runState = s.runState → s.runState = .running → u.bp = t.bp →
    u.stack[s.stack.length]? = t.stack[s.stack.length]? →
    u.stack[s.stack.length + 1]? = t.stack[s.stack.length + 1]? →
    exec .ret u = .next { u with bp := s.bp, pc := s.pc, stack := u.stack.take s.stack.length } ∧
    (u.stack.take s.stack.length).length = s.stack.length

/-! ### Syscalls and the reserved opcodes (49_syscall_reserved.md) -/

/-- SYSCALL (R580, R583): an index outside the table raises InvalidSysCall with nothing changed; a function
that returns has its writes made and its result folded, effects kept whatever the result is; one that never
returns leaves the core stuck (93_implementation_defined.md K15). -/
def Obligations.SyscallOutcomes : Prop :=
  ∀ (s : State) (ri : XReg),
    HasWord (.syscall ri) 0x72 ri.spec 0 0 0 ∧
    (s.params.syscalls.length ≤ (s.getX ri).toNat →
      exec (.syscall ri) s = .next { s with runState := .faulted, cause := 0x07 }) ∧
    (∀ e, s.params.syscalls[(s.getX ri).toNat]? = some e →
      (∀ r, syscallReply e s = some r →
        let u := applyWrites { s with sysCalls := s.sysCalls + 1 } r.writes
        (r.result = .ok → exec (.syscall ri) s = .next u) ∧
        (r.result = .halt → exec (.syscall ri) s = .next { u with runState := .halted, cause := 0 }) ∧
        (∀ k, r.result = .fault k →
          exec (.syscall ri) s = .next { u with runState := .faulted, cause := k.code })) ∧
      (syscallReply e s = none → exec (.syscall ri) s = .fault .syscallNeverReturns))

/-- What a syscall function may write (R582; as a list of writes, log 3): each write sets what it names
to the value given, unchecked (OF to 0 too, log 21; array cells too, log 22), and nothing else; the
writes are made in order; together they reach every state that differs in registers, OF, pc, bp, heap
and stack only; and no list of them reaches CODE, the parameters, STATE or CAUSE. -/
def Obligations.SyscallFunctionsHaveLimitedRights : Prop :=
  (∀ s : State,
    (∀ r v, WritesX s r v (applyWrite s (.setX r v))) ∧
    (∀ r v, WritesF s r v (applyWrite s (.setF r v))) ∧
    (∀ b, applyWrite s (.setOF b) = { s with ovf := b }) ∧
    (∀ v, applyWrite s (.setPc v) = { s with pc := v }) ∧
    (∀ v, applyWrite s (.setBp v) = { s with bp := v }) ∧
    (∀ cs, ∃ h, applyWrite s (.setHeap cs) = { s with heap := h } ∧ h.toList = cs ∧ Memory.wf h) ∧
    (∀ st, applyWrite s (.setStack st) = { s with stack := st }) ∧
    applyWrites s [] = s ∧ ∀ w ws, applyWrites s (w :: ws) = applyWrites (applyWrite s w) ws) ∧
  (∀ s t : State, Memory.wf t.heap →
    t = { s with x := t.x, f := t.f, ovf := t.ovf, pc := t.pc, bp := t.bp, heap := t.heap, stack := t.stack } →
    ∃ ws, applyWrites s ws = t) ∧
  ∀ (s : State) (ws : List SysWrite),
    let u := applyWrites s ws
    u.code = s.code ∧ u.params = s.params ∧ u.runState = s.runState ∧ u.cause = s.cause

/-- The example write syscall (R586; log 14), as a table entry whose stream accepts everything: with enough
bytes from the address on, status 0 and the count, and the output is those bytes; otherwise
InvalidSysCallArg with no register written and no output. -/
def Obligations.ExampleWriteOutcomes : Prop :=
  ∀ (s : State) (ri : XReg),
    s.params.syscalls[(s.getX ri).toNat]? = some (.exampleWrite .accepts) →
    let bs := heapBytesFrom s.heap (s.getX .r1).toNat
    let n := (s.getX .r2).toNat
    (n ≤ bs.length →
      (∃ t, exec (.syscall ri) s = .next t ∧ t.getX .r3 = 0 ∧ t.getX .r4 = s.getX .r2 ∧
        (∀ r, r ≠ .r3 → r ≠ .r4 → t.getX r = s.getX r) ∧
        t = { s with x := t.x, sysCalls := s.sysCalls + 1 }) ∧
      exampleWriteOutput .accepts s = bs.take n) ∧
    (bs.length < n →
      exec (.syscall ri) s =
        .next { s with sysCalls := s.sysCalls + 1, runState := .faulted, cause := 0x08 } ∧
      exampleWriteOutput .accepts s = [])

/-- IN and OUT decode from any word with their opcode (R310), raise NotImplemented and change nothing else
(R584, R585). -/
def Obligations.InOutRaiseNotImplemented : Prop :=
  (∀ w : InstrWord, (w.extractLsb' 0 8 = 0x7E → decode w = .ok .inp) ∧
    (w.extractLsb' 0 8 = 0x7F → decode w = .ok .out)) ∧
  ∀ s : State, exec .inp s = .next { s with runState := .faulted, cause := 0x09 } ∧
    exec .out s = .next { s with runState := .faulted, cause := 0x09 }

/-! ### Reset and the host interface (70_reset_and_hazards.md, 10_state.md) -/

/-- Every piece of state after a CPU reset, a VM reset and construction, whatever the parameters (R115);
`State.reset` is the construction with the model's default parameters (log 1). -/
def Obligations.ResetState : Prop :=
  (∀ p : Params, ZeroedCpu (State.construct p) ∧ EmptySegments (State.construct p)) ∧
  (∀ s t : State, hostOp .cpuReset s = .next t →
    ZeroedCpu t ∧ t.code = s.code ∧ t.heap = s.heap ∧ t.stack = s.stack) ∧
  (∀ s t : State, hostOp .vmReset s = .next t → ZeroedCpu t ∧ EmptySegments t) ∧
  ZeroedCpu State.reset ∧ EmptySegments State.reset

/-- CPU reset zeroes registers, OF, pc, bp, STATE and CAUSE and keeps everything else (R700); VM reset also
empties the segments, so that a run after it faults InvalidCodeAddr at its first fetch (R701); neither is
allowed while RUNNING. No other host operation clears OF, and no step does but a SYSCALL whose function
writes OF (R582; log 21). -/
def Obligations.HostResets : Prop :=
  ∀ s : State,
    (s.runState ≠ .running →
      (∃ t, hostOp .cpuReset s = .next t ∧ ZeroedCpu t ∧
        t = { s with x := t.x, f := t.f, ovf := false, pc := 0, bp := 0, runState := .idle, cause := 0 }) ∧
      (∃ t, hostOp .vmReset s = .next t ∧ ZeroedCpu t ∧ EmptySegments t ∧
        t = { s with
          x := t.x, f := t.f, ovf := false, pc := 0, bp := 0, runState := .idle, cause := 0,
          code := [], heap := t.heap, stack := [] } ∧
        ∃ u, hostOp .run t = .next u ∧ ∀ v, PassesHook u v →
          step u = .next { v with runState := .faulted, cause := 0x01 })) ∧
    (s.runState = .running →
      hostOp .cpuReset s = .refused .hostOperationWhileRunning ∧
      hostOp .vmReset s = .refused .hostOperationWhileRunning) ∧
    (∀ op t, hostOp op s = .next t → op ≠ .cpuReset → op ≠ .vmReset → t.ovf = s.ovf) ∧
    (∀ t, step s = .next t → s.ovf = true → t.ovf = false →
      ∃ u w ri, PassesHook s u ∧ s.code[s.pc.toNat]? = some w ∧ decode w = .ok (.syscall ri) ∧
        syscallWrites SysWrite.setsOF { u with pc := s.pc + 1 } ri = true)

/-- `load` replaces the given segments, an omitted one and everything else, pc and OF included, is kept; a
heap or stack beyond its capacity is refused, and so is every `load` while RUNNING (R703). That code is at
most `2^64 - 1` words is R202. -/
def Obligations.LoadReplacesSegments : Prop :=
  ∀ (s : State) (code : List InstrWord) (heap : Option (List HeapCell)) (stack : Option (List Tagged)),
    code.length ≤ 2 ^ 64 - 1 →
    (s.runState = .running →
      hostOp (.load code heap stack) s = .refused .hostOperationWhileRunning) ∧
    (s.runState ≠ .running →
      ((∀ h, heap = some h → fits s.params.heapCap h.length = true) →
        (∀ st, stack = some st → fits s.params.stackCap st.length = true) →
        ∃ t, hostOp (.load code heap stack) s = .next t ∧
          (heap = none → t.heap = s.heap) ∧ (∀ h, heap = some h → t.heap.toList = h) ∧
          (stack = none → t.stack = s.stack) ∧ (∀ st, stack = some st → t.stack = st) ∧
          t = { s with code := code, heap := t.heap, stack := t.stack }) ∧
      (∀ h, heap = some h → fits s.params.heapCap h.length = false →
        hostOp (.load code heap stack) s = .refused .loadTooLong) ∧
      (∀ st, stack = some st → fits s.params.stackCap st.length = false →
        hostOp (.load code heap stack) s = .refused .loadTooLong))

/-- `run` sets RUNNING and CAUSE 0 and changes nothing else (R704); while a run is in progress every host
operation is refused (R706). -/
def Obligations.RunStartsAndExcludesTheHost : Prop :=
  ∀ s : State,
    (s.runState ≠ .running → hostOp .run s = .next { s with runState := .running, cause := 0 }) ∧
    (s.runState = .running → ∀ op, hostOp op s = .refused .hostOperationWhileRunning)

/-- The host words: FLAGS has OF in bit 0 and nothing else (10_state.md R112); STATUS has STATE, numbered 0 to
4, in bits 2:0 and CAUSE in bits 15:8, and every other bit reads as 0 (R113; a word of 32 bits, log 15). -/
def Obligations.HostWordsLayout : Prop :=
  RunState.code .idle = 0 ∧ RunState.code .running = 1 ∧ RunState.code .halted = 2 ∧
  RunState.code .faulted = 3 ∧ RunState.code .stopped = 4 ∧
  ∀ s : State,
    s.statusWord.extractLsb' 0 3 = s.runState.code ∧ s.statusWord.extractLsb' 3 5 = 0 ∧
    s.statusWord.extractLsb' 8 8 = s.cause ∧ s.statusWord.extractLsb' 16 16 = 0 ∧
    s.flagsWord.getLsbD 0 = s.ovf ∧ (∀ j, 1 ≤ j → s.flagsWord.getLsbD j = false)
end

