-- ==== Sys2Proof/Laws/State.lean ====
section
/-! SUPPORT. One lemma per field and update of the state, and the register banks' read-after-write
laws, so that no proof unfolds a record update. -/

namespace Sys2Proof.Machine

variable (s : State)

/-! ### setX -/

@[simp] theorem State.setX_x (i : XReg) (v : Word) : (s.setX i v).x = s.x.set i v := rfl
@[simp] theorem State.setX_f (i : XReg) (v : Word) : (s.setX i v).f = s.f := rfl
@[simp] theorem State.setX_ovf (i : XReg) (v : Word) : (s.setX i v).ovf = s.ovf := rfl
@[simp] theorem State.setX_pc (i : XReg) (v : Word) : (s.setX i v).pc = s.pc := rfl
@[simp] theorem State.setX_bp (i : XReg) (v : Word) : (s.setX i v).bp = s.bp := rfl
@[simp] theorem State.setX_runState (i : XReg) (v : Word) : (s.setX i v).runState = s.runState := rfl
@[simp] theorem State.setX_cause (i : XReg) (v : Word) : (s.setX i v).cause = s.cause := rfl
@[simp] theorem State.setX_code (i : XReg) (v : Word) : (s.setX i v).code = s.code := rfl
@[simp] theorem State.setX_heap (i : XReg) (v : Word) : (s.setX i v).heap = s.heap := rfl
@[simp] theorem State.setX_stack (i : XReg) (v : Word) : (s.setX i v).stack = s.stack := rfl
@[simp] theorem State.setX_params (i : XReg) (v : Word) : (s.setX i v).params = s.params := rfl
@[simp] theorem State.setX_sysCalls (i : XReg) (v : Word) : (s.setX i v).sysCalls = s.sysCalls := rfl
@[simp] theorem State.setX_hookCalls (i : XReg) (v : Word) : (s.setX i v).hookCalls = s.hookCalls := rfl

/-! ### setF -/

@[simp] theorem State.setF_x (i : FReg) (v : Word) : (s.setF i v).x = s.x := rfl
@[simp] theorem State.setF_f (i : FReg) (v : Word) : (s.setF i v).f = s.f.set i v := rfl
@[simp] theorem State.setF_ovf (i : FReg) (v : Word) : (s.setF i v).ovf = s.ovf := rfl
@[simp] theorem State.setF_pc (i : FReg) (v : Word) : (s.setF i v).pc = s.pc := rfl
@[simp] theorem State.setF_bp (i : FReg) (v : Word) : (s.setF i v).bp = s.bp := rfl
@[simp] theorem State.setF_runState (i : FReg) (v : Word) : (s.setF i v).runState = s.runState := rfl
@[simp] theorem State.setF_cause (i : FReg) (v : Word) : (s.setF i v).cause = s.cause := rfl
@[simp] theorem State.setF_code (i : FReg) (v : Word) : (s.setF i v).code = s.code := rfl
@[simp] theorem State.setF_heap (i : FReg) (v : Word) : (s.setF i v).heap = s.heap := rfl
@[simp] theorem State.setF_stack (i : FReg) (v : Word) : (s.setF i v).stack = s.stack := rfl
@[simp] theorem State.setF_params (i : FReg) (v : Word) : (s.setF i v).params = s.params := rfl
@[simp] theorem State.setF_sysCalls (i : FReg) (v : Word) : (s.setF i v).sysCalls = s.sysCalls := rfl
@[simp] theorem State.setF_hookCalls (i : FReg) (v : Word) : (s.setF i v).hookCalls = s.hookCalls := rfl

/-! ### setPc -/

@[simp] theorem State.setPc_x (v : Word) : (s.setPc v).x = s.x := rfl
@[simp] theorem State.setPc_f (v : Word) : (s.setPc v).f = s.f := rfl
@[simp] theorem State.setPc_ovf (v : Word) : (s.setPc v).ovf = s.ovf := rfl
@[simp] theorem State.setPc_pc (v : Word) : (s.setPc v).pc = v := rfl
@[simp] theorem State.setPc_bp (v : Word) : (s.setPc v).bp = s.bp := rfl
@[simp] theorem State.setPc_runState (v : Word) : (s.setPc v).runState = s.runState := rfl
@[simp] theorem State.setPc_cause (v : Word) : (s.setPc v).cause = s.cause := rfl
@[simp] theorem State.setPc_code (v : Word) : (s.setPc v).code = s.code := rfl
@[simp] theorem State.setPc_heap (v : Word) : (s.setPc v).heap = s.heap := rfl
@[simp] theorem State.setPc_stack (v : Word) : (s.setPc v).stack = s.stack := rfl
@[simp] theorem State.setPc_params (v : Word) : (s.setPc v).params = s.params := rfl
@[simp] theorem State.setPc_sysCalls (v : Word) : (s.setPc v).sysCalls = s.sysCalls := rfl
@[simp] theorem State.setPc_hookCalls (v : Word) : (s.setPc v).hookCalls = s.hookCalls := rfl

/-! ### setBp -/

@[simp] theorem State.setBp_x (v : Word) : (s.setBp v).x = s.x := rfl
@[simp] theorem State.setBp_f (v : Word) : (s.setBp v).f = s.f := rfl
@[simp] theorem State.setBp_ovf (v : Word) : (s.setBp v).ovf = s.ovf := rfl
@[simp] theorem State.setBp_pc (v : Word) : (s.setBp v).pc = s.pc := rfl
@[simp] theorem State.setBp_bp (v : Word) : (s.setBp v).bp = v := rfl
@[simp] theorem State.setBp_runState (v : Word) : (s.setBp v).runState = s.runState := rfl
@[simp] theorem State.setBp_cause (v : Word) : (s.setBp v).cause = s.cause := rfl
@[simp] theorem State.setBp_code (v : Word) : (s.setBp v).code = s.code := rfl
@[simp] theorem State.setBp_heap (v : Word) : (s.setBp v).heap = s.heap := rfl
@[simp] theorem State.setBp_stack (v : Word) : (s.setBp v).stack = s.stack := rfl
@[simp] theorem State.setBp_params (v : Word) : (s.setBp v).params = s.params := rfl
@[simp] theorem State.setBp_sysCalls (v : Word) : (s.setBp v).sysCalls = s.sysCalls := rfl
@[simp] theorem State.setBp_hookCalls (v : Word) : (s.setBp v).hookCalls = s.hookCalls := rfl

/-! ### setHeap -/

@[simp] theorem State.setHeap_x (h : Heap) : (s.setHeap h).x = s.x := rfl
@[simp] theorem State.setHeap_f (h : Heap) : (s.setHeap h).f = s.f := rfl
@[simp] theorem State.setHeap_ovf (h : Heap) : (s.setHeap h).ovf = s.ovf := rfl
@[simp] theorem State.setHeap_pc (h : Heap) : (s.setHeap h).pc = s.pc := rfl
@[simp] theorem State.setHeap_bp (h : Heap) : (s.setHeap h).bp = s.bp := rfl
@[simp] theorem State.setHeap_runState (h : Heap) : (s.setHeap h).runState = s.runState := rfl
@[simp] theorem State.setHeap_cause (h : Heap) : (s.setHeap h).cause = s.cause := rfl
@[simp] theorem State.setHeap_code (h : Heap) : (s.setHeap h).code = s.code := rfl
@[simp] theorem State.setHeap_heap (h : Heap) : (s.setHeap h).heap = h := rfl
@[simp] theorem State.setHeap_stack (h : Heap) : (s.setHeap h).stack = s.stack := rfl
@[simp] theorem State.setHeap_params (h : Heap) : (s.setHeap h).params = s.params := rfl
@[simp] theorem State.setHeap_sysCalls (h : Heap) : (s.setHeap h).sysCalls = s.sysCalls := rfl
@[simp] theorem State.setHeap_hookCalls (h : Heap) : (s.setHeap h).hookCalls = s.hookCalls := rfl

/-! ### setStack -/

@[simp] theorem State.setStack_x (st : List Tagged) : (s.setStack st).x = s.x := rfl
@[simp] theorem State.setStack_f (st : List Tagged) : (s.setStack st).f = s.f := rfl
@[simp] theorem State.setStack_ovf (st : List Tagged) : (s.setStack st).ovf = s.ovf := rfl
@[simp] theorem State.setStack_pc (st : List Tagged) : (s.setStack st).pc = s.pc := rfl
@[simp] theorem State.setStack_bp (st : List Tagged) : (s.setStack st).bp = s.bp := rfl
@[simp] theorem State.setStack_runState (st : List Tagged) : (s.setStack st).runState = s.runState := rfl
@[simp] theorem State.setStack_cause (st : List Tagged) : (s.setStack st).cause = s.cause := rfl
@[simp] theorem State.setStack_code (st : List Tagged) : (s.setStack st).code = s.code := rfl
@[simp] theorem State.setStack_heap (st : List Tagged) : (s.setStack st).heap = s.heap := rfl
@[simp] theorem State.setStack_stack (st : List Tagged) : (s.setStack st).stack = st := rfl
@[simp] theorem State.setStack_params (st : List Tagged) : (s.setStack st).params = s.params := rfl
@[simp] theorem State.setStack_sysCalls (st : List Tagged) : (s.setStack st).sysCalls = s.sysCalls := rfl
@[simp] theorem State.setStack_hookCalls (st : List Tagged) : (s.setStack st).hookCalls = s.hookCalls := rfl

/-! ### raise -/

@[simp] theorem State.raise_x (k : FaultKind) : (s.raise k).x = s.x := rfl
@[simp] theorem State.raise_f (k : FaultKind) : (s.raise k).f = s.f := rfl
@[simp] theorem State.raise_ovf (k : FaultKind) : (s.raise k).ovf = s.ovf := rfl
@[simp] theorem State.raise_pc (k : FaultKind) : (s.raise k).pc = s.pc := rfl
@[simp] theorem State.raise_bp (k : FaultKind) : (s.raise k).bp = s.bp := rfl
@[simp] theorem State.raise_runState (k : FaultKind) : (s.raise k).runState = .faulted := rfl
@[simp] theorem State.raise_cause (k : FaultKind) : (s.raise k).cause = k.code := rfl
@[simp] theorem State.raise_code (k : FaultKind) : (s.raise k).code = s.code := rfl
@[simp] theorem State.raise_heap (k : FaultKind) : (s.raise k).heap = s.heap := rfl
@[simp] theorem State.raise_stack (k : FaultKind) : (s.raise k).stack = s.stack := rfl
@[simp] theorem State.raise_params (k : FaultKind) : (s.raise k).params = s.params := rfl
@[simp] theorem State.raise_sysCalls (k : FaultKind) : (s.raise k).sysCalls = s.sysCalls := rfl
@[simp] theorem State.raise_hookCalls (k : FaultKind) : (s.raise k).hookCalls = s.hookCalls := rfl

/-! ### halt -/

@[simp] theorem State.halt_x : s.halt.x = s.x := rfl
@[simp] theorem State.halt_f : s.halt.f = s.f := rfl
@[simp] theorem State.halt_ovf : s.halt.ovf = s.ovf := rfl
@[simp] theorem State.halt_pc : s.halt.pc = s.pc := rfl
@[simp] theorem State.halt_bp : s.halt.bp = s.bp := rfl
@[simp] theorem State.halt_runState : s.halt.runState = .halted := rfl
@[simp] theorem State.halt_cause : s.halt.cause = 0 := rfl
@[simp] theorem State.halt_code : s.halt.code = s.code := rfl
@[simp] theorem State.halt_heap : s.halt.heap = s.heap := rfl
@[simp] theorem State.halt_stack : s.halt.stack = s.stack := rfl
@[simp] theorem State.halt_params : s.halt.params = s.params := rfl
@[simp] theorem State.halt_sysCalls : s.halt.sysCalls = s.sysCalls := rfl
@[simp] theorem State.halt_hookCalls : s.halt.hookCalls = s.hookCalls := rfl

/-! ### stop -/

@[simp] theorem State.stop_x : s.stop.x = s.x := rfl
@[simp] theorem State.stop_f : s.stop.f = s.f := rfl
@[simp] theorem State.stop_ovf : s.stop.ovf = s.ovf := rfl
@[simp] theorem State.stop_pc : s.stop.pc = s.pc := rfl
@[simp] theorem State.stop_bp : s.stop.bp = s.bp := rfl
@[simp] theorem State.stop_runState : s.stop.runState = .stopped := rfl
@[simp] theorem State.stop_cause : s.stop.cause = s.cause := rfl
@[simp] theorem State.stop_code : s.stop.code = s.code := rfl
@[simp] theorem State.stop_heap : s.stop.heap = s.heap := rfl
@[simp] theorem State.stop_stack : s.stop.stack = s.stack := rfl
@[simp] theorem State.stop_params : s.stop.params = s.params := rfl
@[simp] theorem State.stop_sysCalls : s.stop.sysCalls = s.sysCalls := rfl
@[simp] theorem State.stop_hookCalls : s.stop.hookCalls = s.hookCalls := rfl

/-! ### setOverflow -/

@[simp] theorem State.setOverflow_x : s.setOverflow.x = s.x := rfl
@[simp] theorem State.setOverflow_f : s.setOverflow.f = s.f := rfl
@[simp] theorem State.setOverflow_ovf : s.setOverflow.ovf = true := rfl
@[simp] theorem State.setOverflow_pc : s.setOverflow.pc = s.pc := rfl
@[simp] theorem State.setOverflow_bp : s.setOverflow.bp = s.bp := rfl
@[simp] theorem State.setOverflow_runState : s.setOverflow.runState = s.runState := rfl
@[simp] theorem State.setOverflow_cause : s.setOverflow.cause = s.cause := rfl
@[simp] theorem State.setOverflow_code : s.setOverflow.code = s.code := rfl
@[simp] theorem State.setOverflow_heap : s.setOverflow.heap = s.heap := rfl
@[simp] theorem State.setOverflow_stack : s.setOverflow.stack = s.stack := rfl
@[simp] theorem State.setOverflow_params : s.setOverflow.params = s.params := rfl
@[simp] theorem State.setOverflow_sysCalls : s.setOverflow.sysCalls = s.sysCalls := rfl
@[simp] theorem State.setOverflow_hookCalls : s.setOverflow.hookCalls = s.hookCalls := rfl

/-! ### countHook -/

@[simp] theorem State.countHook_x : s.countHook.x = s.x := rfl
@[simp] theorem State.countHook_f : s.countHook.f = s.f := rfl
@[simp] theorem State.countHook_ovf : s.countHook.ovf = s.ovf := rfl
@[simp] theorem State.countHook_pc : s.countHook.pc = s.pc := rfl
@[simp] theorem State.countHook_bp : s.countHook.bp = s.bp := rfl
@[simp] theorem State.countHook_runState : s.countHook.runState = s.runState := rfl
@[simp] theorem State.countHook_cause : s.countHook.cause = s.cause := rfl
@[simp] theorem State.countHook_code : s.countHook.code = s.code := rfl
@[simp] theorem State.countHook_heap : s.countHook.heap = s.heap := rfl
@[simp] theorem State.countHook_stack : s.countHook.stack = s.stack := rfl
@[simp] theorem State.countHook_params : s.countHook.params = s.params := rfl
@[simp] theorem State.countHook_sysCalls : s.countHook.sysCalls = s.sysCalls := rfl
@[simp] theorem State.countHook_hookCalls : s.countHook.hookCalls = s.hookCalls + 1 := rfl

/-! ### Register banks -/

theorem XBank.get_set (b : XBank) (i j : XReg) (v : Word) :
    (b.set i v).get j = if i = j then v else b.get j := by
  cases i <;> cases j <;> rfl

theorem FBank.get_set (b : FBank) (i j : FReg) (v : Word) :
    (b.set i v).get j = if i = j then v else b.get j := by
  cases i <;> cases j <;> rfl

@[simp] theorem XBank.get_set_self (b : XBank) (i : XReg) (v : Word) : (b.set i v).get i = v := by
  simp [XBank.get_set]

@[simp] theorem FBank.get_set_self (b : FBank) (i : FReg) (v : Word) : (b.set i v).get i = v := by
  simp [FBank.get_set]

theorem XBank.get_set_of_ne (b : XBank) {i j : XReg} (v : Word) (h : i ≠ j) :
    (b.set i v).get j = b.get j := by
  simp [XBank.get_set, h]

theorem FBank.get_set_of_ne (b : FBank) {i j : FReg} (v : Word) (h : i ≠ j) :
    (b.set i v).get j = b.get j := by
  simp [FBank.get_set, h]

/-- Two integer banks that read alike are equal. -/
theorem XBank.ext_get {a b : XBank} (h : ∀ i, a.get i = b.get i) : a = b := by
  cases a; cases b
  simp only [XBank.mk.injEq]
  exact ⟨h .r0, h .r1, h .r2, h .r3, h .r4, h .r5, h .r6, h .r7⟩

/-- Two float banks that read alike are equal. -/
theorem FBank.ext_get {a b : FBank} (h : ∀ i, a.get i = b.get i) : a = b := by
  cases a; cases b
  simp only [FBank.mk.injEq]
  exact ⟨h .f0, h .f1, h .f2, h .f3, h .f4, h .f5, h .f6, h .f7⟩

@[simp] theorem XBank.zero_get (i : XReg) : XBank.zero.get i = 0 := by cases i <;> rfl

@[simp] theorem FBank.zero_get (i : FReg) : FBank.zero.get i = 0 := by cases i <;> rfl

@[simp] theorem State.getX_setX_self (i : XReg) (v : Word) : (s.setX i v).getX i = v := by
  simp [State.getX]

@[simp] theorem State.getF_setF_self (i : FReg) (v : Word) : (s.setF i v).getF i = v := by
  simp [State.getF]

theorem State.getX_setX_of_ne {i j : XReg} (v : Word) (h : i ≠ j) :
    (s.setX i v).getX j = s.getX j := by
  simp [State.getX, XBank.get_set_of_ne _ _ h]

theorem State.getF_setF_of_ne {i j : FReg} (v : Word) (h : i ≠ j) :
    (s.setF i v).getF j = s.getF j := by
  simp [State.getF, FBank.get_set_of_ne _ _ h]

@[simp] theorem State.setX_getF (i : XReg) (v : Word) (j : FReg) : (s.setX i v).getF j = s.getF j := rfl
@[simp] theorem State.setF_getX (i : FReg) (v : Word) (j : XReg) : (s.setF i v).getX j = s.getX j := rfl
@[simp] theorem State.setPc_getX (v : Word) (j : XReg) : (s.setPc v).getX j = s.getX j := rfl
@[simp] theorem State.setPc_getF (v : Word) (j : FReg) : (s.setPc v).getF j = s.getF j := rfl
@[simp] theorem State.setBp_getX (v : Word) (j : XReg) : (s.setBp v).getX j = s.getX j := rfl
@[simp] theorem State.setBp_getF (v : Word) (j : FReg) : (s.setBp v).getF j = s.getF j := rfl
@[simp] theorem State.setHeap_getX (h : Heap) (j : XReg) : (s.setHeap h).getX j = s.getX j := rfl
@[simp] theorem State.setHeap_getF (h : Heap) (j : FReg) : (s.setHeap h).getF j = s.getF j := rfl
@[simp] theorem State.setStack_getX (st : List Tagged) (j : XReg) : (s.setStack st).getX j = s.getX j := rfl
@[simp] theorem State.setStack_getF (st : List Tagged) (j : FReg) : (s.setStack st).getF j = s.getF j := rfl
@[simp] theorem State.raise_getX (k : FaultKind) (j : XReg) : (s.raise k).getX j = s.getX j := rfl
@[simp] theorem State.raise_getF (k : FaultKind) (j : FReg) : (s.raise k).getF j = s.getF j := rfl
@[simp] theorem State.halt_getX (j : XReg) : s.halt.getX j = s.getX j := rfl
@[simp] theorem State.halt_getF (j : FReg) : s.halt.getF j = s.getF j := rfl
@[simp] theorem State.stop_getX (j : XReg) : s.stop.getX j = s.getX j := rfl
@[simp] theorem State.stop_getF (j : FReg) : s.stop.getF j = s.getF j := rfl
@[simp] theorem State.setOverflow_getX (j : XReg) : s.setOverflow.getX j = s.getX j := rfl
@[simp] theorem State.setOverflow_getF (j : FReg) : s.setOverflow.getF j = s.getF j := rfl
@[simp] theorem State.countHook_getX (j : XReg) : s.countHook.getX j = s.getX j := rfl
@[simp] theorem State.countHook_getF (j : FReg) : s.countHook.getF j = s.getF j := rfl

end Sys2Proof.Machine
end

