-- ==== Sys2Proof/Laws/Memory.lean ====
section
/-! SUPPORT. The heap keeps its canonical form under every operation, reads give what was written,
and the heap primitives' effects (20_memory.md R210-R213), each said once. -/

namespace Sys2Proof.Machine

/-- The list half of `Memory.wf`: addresses strictly rising, no listed `zeroCell`. -/
abbrev cellsWf (l : List (Nat × HeapCell)) : Prop :=
  l.Pairwise (fun p q => p.1 < q.1) ∧ ∀ p ∈ l, p.2 ≠ zeroCell

/-! ### Lists of cells -/

theorem lookupCell_of_lt {l : List (Nat × HeapCell)} {a : Nat} (h : ∀ p ∈ l, a < p.1) :
    lookupCell l a = zeroCell := by
  induction l with
  | nil => rfl
  | cons p l ih =>
    obtain ⟨k, c⟩ := p
    have hk : a < k := h (k, c) (by simp)
    simp only [lookupCell]
    rw [if_neg (by omega), ih (fun q hq => h q (by simp [hq]))]

/-- What a list of cells gives after a store: the cell at its address, the old cell elsewhere. -/
theorem lookupCell_storeCell {l : List (Nat × HeapCell)} (h : l.Pairwise (fun p q => p.1 < q.1))
    (a b : Nat) (c : HeapCell) :
    lookupCell (storeCell l a c) b = if a = b then c else lookupCell l b := by
  induction l with
  | nil => by_cases hc : c = zeroCell <;> simp [storeCell, lookupCell, hc]
  | cons p l ih =>
    obtain ⟨k, d⟩ := p
    obtain ⟨hp, hl⟩ := List.pairwise_cons.1 h
    simp only at hp
    rcases lt_trichotomy a k with hak | hak | hak
    · have hz : lookupCell ((k, d) :: l) a = zeroCell :=
        lookupCell_of_lt fun q hq => by
          rcases List.mem_cons.1 hq with rfl | hq
          · exact hak
          · exact hak.trans (hp q hq)
      rw [storeCell, if_pos hak]
      by_cases hc : c = zeroCell
      · rw [if_pos hc]
        split_ifs with hab
        · rw [← hab, hz, hc]
        · rfl
      · rw [if_neg hc]
        simp only [lookupCell]
    · subst hak
      rw [storeCell, if_neg (lt_irrefl a), if_pos rfl]
      by_cases hc : c = zeroCell
      · rw [if_pos hc]
        simp only [lookupCell]
        split_ifs with hab
        · rw [← hab, lookupCell_of_lt hp, hc]
        · rfl
      · rw [if_neg hc]
        simp only [lookupCell]
        split_ifs <;> rfl
    · rw [storeCell, if_neg (by omega), if_neg (by omega)]
      simp only [lookupCell, ih hl]
      split_ifs <;> first | rfl | omega

/-- Every cell listed after a store was listed before, or is the stored one. -/
theorem mem_storeCell {l : List (Nat × HeapCell)} {a : Nat} {c : HeapCell} {q : Nat × HeapCell}
    (h : q ∈ storeCell l a c) : q ∈ l ∨ q = (a, c) ∧ c ≠ zeroCell := by
  induction l with
  | nil =>
    by_cases hc : c = zeroCell
    · simp [storeCell, hc] at h
    · simp only [storeCell, if_neg hc, List.mem_singleton] at h
      exact .inr ⟨h, hc⟩
  | cons p l ih =>
    obtain ⟨k, d⟩ := p
    simp only [storeCell] at h
    split_ifs at h with h1 hc h2 hc
    · exact .inl h
    · rcases List.mem_cons.1 h with rfl | h
      · exact .inr ⟨rfl, hc⟩
      · exact .inl h
    · exact .inl (List.mem_cons_of_mem _ h)
    · rcases List.mem_cons.1 h with rfl | h
      · exact .inr ⟨rfl, hc⟩
      · exact .inl (List.mem_cons_of_mem _ h)
    · rcases List.mem_cons.1 h with rfl | h
      · exact .inl (by simp)
      · rcases ih h with h | h
        · exact .inl (List.mem_cons_of_mem _ h)
        · exact .inr h

/-- A store keeps the canonical form of a list of cells. -/
theorem storeCell_wf {l : List (Nat × HeapCell)} (h : cellsWf l) (a : Nat) (c : HeapCell) :
    cellsWf (storeCell l a c) := by
  refine ⟨?_, fun q hq => ?_⟩
  · obtain ⟨h, -⟩ := h
    induction l with
    | nil => by_cases hc : c = zeroCell <;> simp [storeCell, hc]
    | cons p l ih =>
      obtain ⟨k, d⟩ := p
      obtain ⟨hp, hl⟩ := List.pairwise_cons.1 h
      simp only [storeCell]
      split_ifs with h1 hc h2 hc
      · exact h
      · refine List.pairwise_cons.2 ⟨fun q hq => ?_, h⟩
        rcases List.mem_cons.1 hq with rfl | hq
        · exact h1
        · exact h1.trans (hp q hq)
      · exact hl
      · exact List.pairwise_cons.2 ⟨fun q hq => h2 ▸ hp q hq, hl⟩
      · refine List.pairwise_cons.2 ⟨fun q hq => ?_, ih hl⟩
        rcases mem_storeCell hq with hq | ⟨rfl, -⟩
        · exact hp q hq
        · show k < a
          omega
  · rcases mem_storeCell hq with hq | ⟨rfl, hc⟩
    · exact h.2 q hq
    · exact hc

/-! ### The heap -/

theorem Memory.wf.cells {h : Heap} (w : Memory.wf h) : cellsWf h.cells :=
  ⟨w.1, fun p hp => (w.2 p hp).2⟩

theorem Memory.wf_empty : Memory.wf Heap.empty := ⟨List.Pairwise.nil, by simp [Heap.empty]⟩

/-- In canonical form, an address at or above the length is not listed. -/
theorem Memory.wf.read_of_le {h : Heap} (w : Memory.wf h) {a : Nat} (ha : h.len ≤ a) :
    h.read a = zeroCell := by
  obtain ⟨len, cells⟩ := h
  simp only at ha
  obtain ⟨-, w⟩ := w
  simp only at w
  simp only [Heap.read]
  induction cells with
  | nil => rfl
  | cons p l ih =>
    obtain ⟨k, c⟩ := p
    have hk : k < len := (w (k, c) (by simp)).1
    simp only [lookupCell]
    rw [if_neg (by omega), ih fun q hq => w q (by simp [hq])]

@[simp] theorem Heap.write_len (h : Heap) (a : Nat) (c : HeapCell) : (h.write a c).len = h.len := rfl

/-- A read after a write gives the cell written, and every other cell as before. -/
theorem Heap.read_write {h : Heap} (w : Memory.wf h) (a b : Nat) (c : HeapCell) :
    (h.write a c).read b = if a = b then c else h.read b :=
  lookupCell_storeCell w.1 a b c

/-- A write below the length keeps the canonical form. -/
theorem Heap.write_wf {h : Heap} (w : Memory.wf h) {a : Nat} (ha : a < h.len) (c : HeapCell) :
    Memory.wf (h.write a c) := by
  obtain ⟨hp, hz⟩ := storeCell_wf w.cells a c
  refine ⟨hp, fun q hq => ⟨?_, hz q hq⟩⟩
  rcases mem_storeCell hq with hq | ⟨rfl, -⟩
  · exact (w.2 q hq).1
  · exact ha

/-- A longer heap with the same cells is in canonical form: the new cells are `zeroCell`. -/
theorem Memory.wf.extend {h : Heap} (w : Memory.wf h) {n : Nat} (hn : h.len ≤ n) :
    Memory.wf { h with len := n } :=
  ⟨w.1, fun p hp => ⟨lt_of_lt_of_le (w.2 p hp).1 hn, (w.2 p hp).2⟩⟩

/-- All that `heapGrow` can answer (R210). -/
theorem heapGrow_cases (cap : Option Nat) (h : Heap) (a : Nat) (k : Kind) :
    (a < h.len ∧ heapGrow cap h a k = .ok (h, false)) ∨
    (h.len ≤ a ∧ fits cap (a + 1) = true ∧
      heapGrow cap h a k = .ok (Heap.write { h with len := a + 1 } a (.scalar (k.tag 0)), true)) ∨
    (h.len ≤ a ∧ fits cap (a + 1) = false ∧ heapGrow cap h a k = .error .resourceExhausted) := by
  unfold heapGrow
  by_cases ha : a < h.len
  · exact .inl ⟨ha, if_pos ha⟩
  · rw [if_neg ha]
    by_cases hf : fits cap (a + 1) = true
    · exact .inr (.inl ⟨by omega, hf, if_pos hf⟩)
    · exact .inr (.inr ⟨by omega, by simpa using hf, if_neg hf⟩)

/-- Growth keeps the canonical form, never shortens the heap, has the address in it, and keeps every
other cell. -/
theorem heapGrow_spec {cap : Option Nat} {h h' : Heap} {a : Nat} {k : Kind} {b : Bool}
    (w : Memory.wf h) (e : heapGrow cap h a k = .ok (h', b)) :
    Memory.wf h' ∧ h.len ≤ h'.len ∧ a < h'.len ∧ (∀ j, j ≠ a → h'.read j = h.read j) := by
  rcases heapGrow_cases cap h a k with ⟨ha, e'⟩ | ⟨ha, -, e'⟩ | ⟨-, -, e'⟩ <;> rw [e'] at e
  · injection e with e; injection e with e1 e2; subst e1
    exact ⟨w, le_refl _, ha, fun _ _ => rfl⟩
  · injection e with e; injection e with e1 e2; subst e1
    have we : Memory.wf { h with len := a + 1 } := w.extend (by omega)
    refine ⟨Heap.write_wf we (by simp) _, by simp; omega, by simp, fun j hj => ?_⟩
    rw [Heap.read_write we, if_neg (Ne.symm hj)]
    rfl
  · cases e

/-- A scalar read keeps the canonical form and every other cell (R211). -/
theorem heapReadScalar_spec {cap : Option Nat} {h h' : Heap} {a : Nat} {k : Kind} {v : Word}
    (w : Memory.wf h) (e : heapReadScalar cap h a k = .ok (v, h')) :
    Memory.wf h' ∧ h.len ≤ h'.len ∧ a < h'.len ∧ (∀ j, j ≠ a → h'.read j = h.read j) := by
  unfold heapReadScalar at e
  split at e
  · cases e
  · rename_i g hg
    injection e with e; injection e with _ e; subst e
    exact heapGrow_spec w hg
  · rename_i g hg
    split at e
    · cases e
    · injection e with e; injection e with _ e; subst e
      exact heapGrow_spec w hg

/-- A scalar write keeps the canonical form and every other cell (R212). -/
theorem heapWriteScalar_spec {cap : Option Nat} {h h' : Heap} {a : Nat} {t : Tagged}
    (w : Memory.wf h) (e : heapWriteScalar cap h a t = .ok h') :
    Memory.wf h' ∧ h.len ≤ h'.len ∧ a < h'.len ∧ (∀ j, j ≠ a → h'.read j = h.read j) := by
  unfold heapWriteScalar at e
  split at e
  · cases e
  · rename_i g b hg
    obtain ⟨wg, hl, ha, hj⟩ := heapGrow_spec w hg
    split at e
    · cases e
    · injection e with e; subst e
      refine ⟨Heap.write_wf wg ha _, hl, ha, fun j hne => ?_⟩
      rw [Heap.read_write wg, if_neg (Ne.symm hne), hj j hne]

/-! ### A heap from a list of cells -/

theorem mem_listCells {n : Nat} {cs : List HeapCell} {p : Nat × HeapCell} (h : p ∈ listCells n cs) :
    n ≤ p.1 ∧ p.1 < n + cs.length ∧ p.2 ≠ zeroCell := by
  induction cs generalizing n with
  | nil => simp [listCells] at h
  | cons c cs ih =>
    simp only [listCells] at h
    split_ifs at h with hc
    · obtain ⟨h1, h2, h3⟩ := ih h
      refine ⟨by omega, ?_, h3⟩
      simp only [List.length_cons]; omega
    · rcases List.mem_cons.1 h with rfl | h
      · exact ⟨le_refl _, by simp, hc⟩
      · obtain ⟨h1, h2, h3⟩ := ih h
        refine ⟨by omega, ?_, h3⟩
        simp only [List.length_cons]; omega

/-- The heap of a list of cells is in canonical form. -/
theorem Heap.ofList_wf (cs : List HeapCell) : Memory.wf (Heap.ofList cs) := by
  refine ⟨?_, fun p hp => ?_⟩
  · simp only [Heap.ofList]
    generalize 0 = n
    induction cs generalizing n with
    | nil => exact List.Pairwise.nil
    | cons c cs ih =>
      simp only [listCells]
      split_ifs
      · exact ih _
      · exact List.pairwise_cons.2 ⟨fun q hq => by have := (mem_listCells hq).1; simp only; omega, ih _⟩
  · obtain ⟨-, h2, h3⟩ := mem_listCells (n := 0) hp
    exact ⟨by simpa [Heap.ofList] using h2, h3⟩

/-! ### The canonical form is unique -/

/-- Two canonical lists that give the same cell at every address are the same list. -/
theorem cellsWf_ext {l m : List (Nat × HeapCell)} (hl : cellsWf l) (hm : cellsWf m)
    (h : ∀ a, lookupCell l a = lookupCell m a) : l = m := by
  induction l generalizing m with
  | nil =>
    cases m with
    | nil => rfl
    | cons q m =>
      have := h q.1
      simp only [lookupCell, ↓reduceIte] at this
      exact absurd this.symm (hm.2 q (by simp))
  | cons p l ih =>
    obtain ⟨lp, ll⟩ := List.pairwise_cons.1 hl.1
    have hp : p.2 ≠ zeroCell := hl.2 p (by simp)
    have rp : lookupCell (p :: l) p.1 = p.2 := by simp [lookupCell]
    cases m with
    | nil => exact absurd (rp.symm.trans (h p.1)) hp
    | cons q m =>
      obtain ⟨mq, mm⟩ := List.pairwise_cons.1 hm.1
      have hq : q.2 ≠ zeroCell := hm.2 q (by simp)
      have rq : lookupCell (q :: m) q.1 = q.2 := by simp [lookupCell]
      have key : p.1 = q.1 := by
        rcases lt_trichotomy p.1 q.1 with hlt | e | hlt
        · refine absurd (rp.symm.trans ((h p.1).trans (lookupCell_of_lt fun r hr => ?_))) hp
          rcases List.mem_cons.1 hr with rfl | hr
          · exact hlt
          · exact hlt.trans (mq r hr)
        · exact e
        · refine absurd (rq.symm.trans ((h q.1).symm.trans (lookupCell_of_lt fun r hr => ?_))) hq
          rcases List.mem_cons.1 hr with rfl | hr
          · exact hlt
          · exact hlt.trans (lp r hr)
      have val : p.2 = q.2 := by rw [← rp, h p.1, key, rq]
      obtain rfl : p = q := Prod.ext key val
      congr 1
      refine ih ⟨ll, fun r hr => hl.2 r (by simp [hr])⟩ ⟨mm, fun r hr => hm.2 r (by simp [hr])⟩ fun a => ?_
      have ha := h a
      simp only [lookupCell] at ha
      split_ifs at ha with e
      · rw [← e, lookupCell_of_lt lp, lookupCell_of_lt mq]
      · exact ha

theorem lookupCell_listCells (cs : List HeapCell) (n j : Nat) :
    lookupCell (listCells n cs) (n + j) = (cs[j]?).getD zeroCell := by
  induction cs generalizing n j with
  | nil => rfl
  | cons c cs ih =>
    have next : ∀ j, lookupCell (listCells (n + 1) cs) (n + (j + 1)) = (cs[j]?).getD zeroCell := fun j => by
      rw [show n + (j + 1) = n + 1 + j by omega, ih]
    simp only [listCells]
    split_ifs with hc
    · cases j with
      | zero =>
        rw [lookupCell_of_lt fun p hp => by have := (mem_listCells hp).1; omega]
        simp [hc]
      | succ j => simpa using next j
    · cases j with
      | zero => simp [lookupCell]
      | succ j => simpa [lookupCell] using next j

/-- The cells of the heap of a list are those of the list. -/
@[simp] theorem Heap.toList_ofList (cs : List HeapCell) : (Heap.ofList cs).toList = cs := by
  refine List.ext_getElem? fun j => ?_
  have hj := lookupCell_listCells cs 0 j
  rw [Nat.zero_add] at hj
  simp only [Heap.toList, Heap.ofList, List.getElem?_map]
  rcases lt_or_ge j cs.length with h | h
  · rw [List.getElem?_range h, List.getElem?_eq_getElem h]
    simp [Heap.read, hj, h]
  · rw [List.getElem?_eq_none (by simpa using h), List.getElem?_eq_none h]; rfl

/-- A heap in canonical form is the heap of its list of cells. -/
theorem Heap.ofList_toList {h : Heap} (w : Memory.wf h) : Heap.ofList h.toList = h := by
  have hlen : (Heap.ofList h.toList).len = h.len := by simp [Heap.ofList, Heap.toList]
  have hcells : (Heap.ofList h.toList).cells = h.cells := by
    refine cellsWf_ext (Heap.ofList_wf _).cells w.cells fun a => ?_
    have ha := lookupCell_listCells h.toList 0 a
    rw [Nat.zero_add] at ha
    refine ha.trans ?_
    simp only [Heap.toList, List.getElem?_map]
    rcases lt_or_ge a h.len with hlt | hle
    · rw [List.getElem?_range hlt]; rfl
    · rw [List.getElem?_eq_none (by simpa using hle)]; exact (w.read_of_le hle).symm
  obtain ⟨len, cells⟩ := h
  exact congrArg₂ Heap.mk hlen hcells

end Sys2Proof.Machine
end

