-- ==== Sys2Proof/Laws/Ops.lean ====
section
/-! SUPPORT. One lemma per shared operation that says once everything it can do; proofs cite these
and do not unfold the operation. -/

namespace Sys2Proof.Machine

/-! ### The stack (20_memory.md R204-R207) -/

theorem stackPush_cases (cap : Option Nat) (st : List Tagged) (t : Tagged) :
    (fits cap (st.length + 1) = true ∧ stackPush cap st t = .ok (st ++ [t])) ∨
    (fits cap (st.length + 1) = false ∧ stackPush cap st t = .error .resourceExhausted) := by
  unfold stackPush
  cases h : fits cap (st.length + 1) <;> simp

theorem stackPop_nil : stackPop [] = .error .invalidStackAddr := rfl

@[simp] theorem stackPop_append (st : List Tagged) (t : Tagged) : stackPop (st ++ [t]) = .ok (t, st) := by
  simp [stackPop]

theorem stackPop_cases (st : List Tagged) :
    (st = [] ∧ stackPop st = .error .invalidStackAddr) ∨
    (∃ st' t, st = st' ++ [t] ∧ stackPop st = .ok (t, st')) := by
  rcases List.eq_nil_or_concat st with rfl | ⟨st', t, rfl⟩
  · exact .inl ⟨rfl, rfl⟩
  · exact .inr ⟨st', t, by simp, by simp⟩

theorem stackRead_cases (st : List Tagged) (i : Nat) :
    (∃ h : i < st.length, stackRead st i = .ok st[i]) ∨
    (st.length ≤ i ∧ stackRead st i = .error .invalidStackAddr) := by
  unfold stackRead
  by_cases h : i < st.length
  · exact .inl ⟨h, by rw [List.getElem?_eq_getElem h]⟩
  · exact .inr ⟨by omega, by rw [List.getElem?_eq_none (by omega)]⟩

theorem stackWrite_cases (st : List Tagged) (i : Nat) (t : Tagged) :
    (i < st.length ∧ stackWrite st i t = .ok (st.set i t)) ∨
    (st.length ≤ i ∧ stackWrite st i t = .error .invalidStackAddr) := by
  unfold stackWrite
  by_cases h : i < st.length
  · exact .inl ⟨h, if_pos h⟩
  · exact .inr ⟨by omega, if_neg h⟩

theorem expectKind_cases (k : Kind) (t : Tagged) :
    (t.kind = k ∧ expectKind k t = .ok t.payload) ∨
    (t.kind ≠ k ∧ expectKind k t = .error .typeMismatch) := by
  unfold expectKind
  by_cases h : t.kind = k
  · exact .inl ⟨h, if_pos h⟩
  · exact .inr ⟨h, if_neg h⟩

/-! ### Writes of results -/

/-- A checked write (42_int_arith.md R440): the result in the register, or OF and nothing else. -/
theorem checkedWrite_cases (s : State) (rd : XReg) (r : Int) :
    (0 ≤ r ∧ r ≤ 2 ^ 64 - 1 ∧ checkedWrite s rd r = s.setX rd (BitVec.ofNat 64 r.toNat)) ∨
    (¬(0 ≤ r ∧ r ≤ 2 ^ 64 - 1) ∧ checkedWrite s rd r = s.setOverflow) := by
  unfold checkedWrite
  by_cases h : 0 ≤ r ∧ r ≤ 2 ^ 64 - 1
  · exact .inl ⟨h.1, h.2, if_pos h⟩
  · exact .inr ⟨h, if_neg h⟩

theorem writeUnless_cases (s : State) (b : Bool) (rd : XReg) (v : Word) :
    (b = true ∧ writeUnless s b rd v = s.setOverflow) ∨
    (b = false ∧ writeUnless s b rd v = s.setX rd v) := by
  cases b
  · exact .inr ⟨rfl, rfl⟩
  · exact .inl ⟨rfl, rfl⟩

@[simp] theorem writeFloat_some (s : State) (fd : FReg) (v : Word) :
    writeFloat s fd (some v) = s.setF fd v := rfl

@[simp] theorem writeFloat_none (s : State) (fd : FReg) :
    writeFloat s fd none = s.setF fd s.nanResult := rfl

/-- `NAN_RESULT` is the bits of one NaN pattern, the given one where the host's choice names it. -/
theorem nanResult_cases (s : State) :
    (∃ id, s.params.nanResult = .unknown id ∧ s.nanResult = nanBits (Config.nanResult id)) ∨
    ∃ p, s.params.nanResult = .pattern p ∧ s.nanResult = nanBits p := by
  unfold State.nanResult
  cases h : s.params.nanResult
  · exact .inl ⟨_, rfl, rfl⟩
  · exact .inr ⟨_, rfl, rfl⟩

/-- `NAN_RESULT` depends on the parameters alone. -/
theorem nanResult_congr {s t : State} (h : t.params = s.params) : t.nanResult = s.nanResult := by
  simp only [State.nanResult, h]

theorem jumpIf_cases (s : State) (b : Bool) (rt : XReg) :
    (b = true ∧ jumpIf s b rt = s.setPc (s.getX rt)) ∨ (b = false ∧ jumpIf s b rt = s) := by
  cases b
  · exact .inr ⟨rfl, rfl⟩
  · exact .inl ⟨rfl, rfl⟩

/-! ### Accesses that may raise -/

/-- What an access that may raise answers: always a next state. -/
theorem orRaise_cases (s : State) {α : Type} (r : Except FaultKind α) (k : α → State) :
    (∃ e, r = .error e ∧ orRaise s r k = .next (s.raise e)) ∨
    (∃ v, r = .ok v ∧ orRaise s r k = .next (k v)) := by
  cases r with
  | error e => exact .inl ⟨e, rfl, rfl⟩
  | ok v => exact .inr ⟨v, rfl, rfl⟩

theorem stackGet_cases (st : List Tagged) (i : Nat) (k : Kind) :
    (∃ h : i < st.length, st[i].kind = k ∧ stackGet st i k = .ok st[i].payload) ∨
    (∃ h : i < st.length, st[i].kind ≠ k ∧ stackGet st i k = .error .typeMismatch) ∨
    (st.length ≤ i ∧ stackGet st i k = .error .invalidStackAddr) := by
  rcases stackRead_cases st i with ⟨h, e⟩ | ⟨h, e⟩
  · rcases expectKind_cases k st[i] with ⟨hk, e'⟩ | ⟨hk, e'⟩
    · exact .inl ⟨h, hk, by rw [stackGet, e]; exact e'⟩
    · exact .inr (.inl ⟨h, hk, by rw [stackGet, e]; exact e'⟩)
  · exact .inr (.inr ⟨h, by rw [stackGet, e]⟩)

/-- What a pop answers (R542, R543): InvalidStackAddr with nothing changed; TypeMismatch with the slot
gone; or the write of the payload with the slot gone. -/
theorem popKind_cases (s : State) (k : Kind) (write : State → Word → State) :
    (s.stack = [] ∧ popKind s k write = .next (s.raise .invalidStackAddr)) ∨
    (∃ st t, s.stack = st ++ [t] ∧ t.kind ≠ k ∧
      popKind s k write = .next ((s.setStack st).raise .typeMismatch)) ∨
    (∃ st t, s.stack = st ++ [t] ∧ t.kind = k ∧
      popKind s k write = .next (write (s.setStack st) t.payload)) := by
  rcases stackPop_cases s.stack with ⟨h, e⟩ | ⟨st, t, h, e⟩
  · exact .inl ⟨h, by rw [popKind, e]⟩
  · rcases expectKind_cases k t with ⟨hk, e'⟩ | ⟨hk, e'⟩
    · exact .inr (.inr ⟨st, t, h, hk, by rw [popKind, e]; simp [e', orRaise]⟩)
    · exact .inr (.inl ⟨st, t, h, hk, by rw [popKind, e]; simp [e', orRaise]⟩)

/-- What one of RET's pops answers (R561). -/
theorem popLink_cases (s : State) (write : State → Word → State) :
    (s.stack = [] ∧ popLink s write = (s.raise .invalidStackAddr, false)) ∨
    (∃ st b, s.stack = st ++ [.flt b] ∧
      popLink s write = ((s.setStack st).raise .typeMismatch, false)) ∨
    (∃ st v, s.stack = st ++ [.int v] ∧ popLink s write = (write (s.setStack st) v, true)) := by
  rcases stackPop_cases s.stack with ⟨h, e⟩ | ⟨st, t, h, e⟩
  · exact .inl ⟨h, by rw [popLink, e]⟩
  · cases t with
    | int v => exact .inr (.inr ⟨st, v, h, by rw [popLink, e]; rfl⟩)
    | flt b => exact .inr (.inl ⟨st, b, h, by rw [popLink, e]; rfl⟩)

/-! ### Syscall functions -/

/-- What the writes of a syscall function leave alone (49_syscall_reserved.md R582). -/
theorem applyWrites_frame (s : State) (ws : List SysWrite) :
    (applyWrites s ws).code = s.code ∧ (applyWrites s ws).params = s.params ∧
    (applyWrites s ws).runState = s.runState ∧ (applyWrites s ws).cause = s.cause ∧
    (applyWrites s ws).sysCalls = s.sysCalls ∧ (applyWrites s ws).hookCalls = s.hookCalls := by
  induction ws generalizing s with
  | nil => exact ⟨rfl, rfl, rfl, rfl, rfl, rfl⟩
  | cons w ws ih =>
    have := ih (applyWrite s w)
    cases w <;> exact this

/-- The writes of a syscall function keep the heap's canonical form. -/
theorem applyWrites_wf {s : State} (h : Memory.wf s.heap) (ws : List SysWrite) :
    Memory.wf (applyWrites s ws).heap := by
  induction ws generalizing s with
  | nil => exact h
  | cons w ws ih =>
    refine ih (s := applyWrite s w) ?_
    cases w <;> first | exact h | exact Heap.ofList_wf _

theorem foldReply_cases (s : State) (r : SysReply) :
    (r.result = .ok ∧ foldReply s r = applyWrites s r.writes) ∨
    (r.result = .halt ∧ foldReply s r = (applyWrites s r.writes).halt) ∨
    (∃ k, r.result = .fault k ∧ foldReply s r = (applyWrites s r.writes).raise k) := by
  obtain ⟨ws, res⟩ := r
  cases res with
  | ok => exact .inl ⟨rfl, rfl⟩
  | halt => exact .inr (.inl ⟨rfl, rfl⟩)
  | fault k => exact .inr (.inr ⟨k, rfl, rfl⟩)

/-- What SYSCALL answers (R580). -/
theorem execSyscall_cases (ri : XReg) (s : State) :
    (s.params.syscalls.length ≤ (s.getX ri).toNat ∧
      execSyscall ri s = .next (s.raise .invalidSysCall)) ∨
    (∃ e, s.params.syscalls[(s.getX ri).toNat]? = some e ∧ syscallReply e s = none ∧
      execSyscall ri s = .fault .syscallNeverReturns) ∨
    (∃ e r, s.params.syscalls[(s.getX ri).toNat]? = some e ∧ syscallReply e s = some r ∧
      execSyscall ri s = .next (foldReply { s with sysCalls := s.sysCalls + 1 } r)) := by
  cases h : s.params.syscalls[(s.getX ri).toNat]? with
  | none => exact .inl ⟨List.getElem?_eq_none_iff.1 h, by simp only [execSyscall, h]⟩
  | some e =>
    cases hr : syscallReply e s with
    | none => exact .inr (.inl ⟨e, rfl, hr, by simp only [execSyscall, h, hr]⟩)
    | some r => exact .inr (.inr ⟨e, r, rfl, hr, by simp only [execSyscall, h, hr]⟩)

/-! ### One step -/

theorem decodeAndExecute_cases (w : InstrWord) (s : State) :
    (decode w = .illegalInstruction ∧
      decodeAndExecute w s = .next (s.raise .illegalInstruction)) ∨
    (decode w = .invalidReg ∧ decodeAndExecute w s = .next (s.raise .invalidReg)) ∨
    (∃ i, decode w = .ok i ∧ decodeAndExecute w s = exec i s) := by
  unfold decodeAndExecute
  cases h : decode w with
  | illegalInstruction => exact .inl ⟨rfl, rfl⟩
  | invalidReg => exact .inr (.inl ⟨rfl, rfl⟩)
  | ok i => exact .inr (.inr ⟨i, rfl, rfl⟩)

theorem fetchAndExecute_cases (s : State) :
    (s.code.length ≤ s.pc.toNat ∧ fetchAndExecute s = .next (s.raise .invalidCodeAddr)) ∨
    (∃ w, s.code[s.pc.toNat]? = some w ∧
      fetchAndExecute s = decodeAndExecute w (s.setPc (s.pc + 1))) := by
  unfold fetchAndExecute
  cases h : s.code[s.pc.toNat]? with
  | none => exact .inl ⟨List.getElem?_eq_none_iff.1 h, rfl⟩
  | some w => exact .inr ⟨w, rfl, rfl⟩

/-- What one cycle can do up to the fetch (40_cycle.md R400, R401). -/
theorem cycle_cases (s : State) :
    (∃ h, s.params.hook = some h ∧ hookAnswer h s = none ∧ cycle s = .fault .hookNeverReturns) ∨
    (∃ h, s.params.hook = some h ∧ hookAnswer h s = some .stop ∧ cycle s = .next s.countHook.stop) ∨
    (∃ h, s.params.hook = some h ∧ hookAnswer h s = some .goOn ∧
      cycle s = fetchAndExecute s.countHook) ∨
    (s.params.hook = none ∧ cycle s = fetchAndExecute s) := by
  cases hk : s.params.hook with
  | none => exact .inr (.inr (.inr ⟨rfl, by simp only [cycle, hk]⟩))
  | some h =>
    cases ha : hookAnswer h s with
    | none => exact .inl ⟨h, rfl, ha, by simp only [cycle, hk, ha]⟩
    | some a =>
      cases a with
      | stop => exact .inr (.inl ⟨h, rfl, ha, by simp only [cycle, hk, ha]⟩)
      | goOn => exact .inr (.inr (.inl ⟨h, rfl, ha, by simp only [cycle, hk, ha]⟩))

/-- What one step can do: wait, or a cycle while RUNNING. -/
theorem step_cases (s : State) :
    (s.runState ≠ .running ∧ step s = .next s) ∨ (s.runState = .running ∧ step s = cycle s) := by
  cases h : s.runState <;> simp [step, coreStep, h]

end Sys2Proof.Machine
end

