-- ==== Sys2Proof/Laws/Effect.lean ====
section
/-! SUPPORT. Everything an instruction and a step can do to the state, said once: proofs about all
instructions take `exec_effect` apart and do not unfold the meanings. -/

namespace Sys2Proof.Machine

/-- What an instruction other than SYSCALL can make of a state: one constructor per way, with the event that
sets OF (10_state.md R110) decided in each. -/
inductive Effect (i : Instr) (s : State) : State → Prop
  | same (ho : ¬overflows s i) : Effect i s s
  | halt (hi : i = .halt) : Effect i s s.halt
  | setX (d : XReg) (v : Word) (hd : intDestination i = some d) (ho : ¬overflows s i) :
      Effect i s (s.setX d v)
  | setF (d : FReg) (v : Word) (hd : floatDestination i = some d) (ho : ¬overflows s i) :
      Effect i s (s.setF d v)
  | overflow (ho : overflows s i) : Effect i s s.setOverflow
  | raise (k : FaultKind) (ho : ¬overflows s i) : Effect i s (s.raise k)
  | jump (v : Word) (hp : mayWritePc s i = true) (ho : ¬overflows s i) : Effect i s (s.setPc v)
  | heapLoad (a : Nat) (d : XReg) (v : Word) (h : Heap)
      (hr : heapReadScalar s.params.heapCap s.heap a .int = .ok (v, h))
      (hw : mayWriteHeap i = true) (hd : intDestination i = some d) (ho : ¬overflows s i) :
      Effect i s ((s.setHeap h).setX d v)
  | heapLoadF (a : Nat) (d : FReg) (v : Word) (h : Heap)
      (hr : heapReadScalar s.params.heapCap s.heap a .flt = .ok (v, h))
      (hw : mayWriteHeap i = true) (hd : floatDestination i = some d) (ho : ¬overflows s i) :
      Effect i s ((s.setHeap h).setF d v)
  | heapStore (a : Nat) (t : Tagged) (h : Heap)
      (hr : heapWriteScalar s.params.heapCap s.heap a t = .ok h)
      (hw : mayWriteHeap i = true) (ho : ¬overflows s i) : Effect i s (s.setHeap h)
  | stackStore (a : Nat) (t : Tagged) (hw : mayWriteStack i = true) (ho : ¬overflows s i) :
      Effect i s (s.setStack (s.stack.set a t))
  | push (t : Tagged) (hf : fits s.params.stackCap (s.stack.length + 1) = true)
      (hw : mayWriteStack i = true) (ho : ¬overflows s i) : Effect i s (s.setStack (s.stack ++ [t]))
  | popMismatch (st : List Tagged) (t : Tagged) (hs : s.stack = st ++ [t])
      (hw : mayWriteStack i = true) (hf : faultsAfterEffects i = true) (ho : ¬overflows s i) :
      Effect i s ((s.setStack st).raise .typeMismatch)
  | pop (st : List Tagged) (t : Tagged) (d : XReg) (v : Word) (hs : s.stack = st ++ [t])
      (hw : mayWriteStack i = true) (hd : intDestination i = some d) (ho : ¬overflows s i) :
      Effect i s ((s.setStack st).setX d v)
  | popF (st : List Tagged) (t : Tagged) (d : FReg) (v : Word) (hs : s.stack = st ++ [t])
      (hw : mayWriteStack i = true) (hd : floatDestination i = some d) (ho : ¬overflows s i) :
      Effect i s ((s.setStack st).setF d v)
  | call (v : Word) (hf : fits s.params.stackCap (s.stack.length + 2) = true)
      (hi : ∃ r, i = .call r) : Effect i s ((pushFrame s).setPc v)
  | ret (st : List Tagged) (p b : Word) (hi : i = .ret) (hl : st.length ≤ s.stack.length) :
      Effect i s { s with stack := st, pc := p, bp := b }
  | retFault (st : List Tagged) (p : Word) (k : FaultKind) (hi : i = .ret)
      (hl : st.length ≤ s.stack.length) :
      Effect i s { s with stack := st, pc := p, runState := .faulted, cause := k.code }

theorem effect_checkedWrite {i : Instr} {s : State} {d : XReg} {r : Int} (hd : intDestination i = some d)
    (ho : overflows s i ↔ ¬(0 ≤ r ∧ r ≤ 2^64-1)) : Effect i s (checkedWrite s d r) := by
  rcases checkedWrite_cases s d r with ⟨h0, h1, e⟩ | ⟨h, e⟩ <;> rw [e]
  · exact .setX _ _ hd (by rw [ho]; simp; omega)
  · exact .overflow (by rw [ho]; exact h)

theorem effect_writeUnless {i : Instr} {s : State} {d : XReg} {b : Bool} {v : Word}
    (hd : intDestination i = some d) (ho : overflows s i ↔ b = true) : Effect i s (writeUnless s b d v) := by
  rcases writeUnless_cases s b d v with ⟨h, e⟩ | ⟨h, e⟩ <;> rw [e]
  · exact .overflow (ho.2 h)
  · exact .setX _ _ hd (by rw [ho, h]; simp)

theorem effect_writeFloat {i : Instr} {s : State} {d : FReg} {r : Option Word}
    (hd : floatDestination i = some d) (ho : ¬overflows s i) : Effect i s (writeFloat s d r) :=
  .setF d _ hd ho

theorem effect_jumpIf {i : Instr} {s : State} {b : Bool} {rt : XReg}
    (hp : mayWritePc s i = b) (ho : ¬overflows s i) : Effect i s (jumpIf s b rt) := by
  rcases jumpIf_cases s b rt with ⟨h, e⟩ | ⟨h, e⟩ <;> rw [e]
  · exact .jump _ (by rw [hp, h]) ho
  · exact .same ho

theorem effect_orRaise {i : Instr} {s t : State} {α : Type} {r : Except FaultKind α}
    {k : α → State} (ho : ¬overflows s i) (h : orRaise s r k = .next t)
    (hk : ∀ v, r = .ok v → Effect i s (k v)) : Effect i s t := by
  rcases orRaise_cases s r k with ⟨e, _, h'⟩ | ⟨v, hv, h'⟩ <;> rw [h'] at h <;> injection h with h <;>
    subst h
  · exact .raise _ ho
  · exact hk v hv

theorem length_le_of_take_eq {st st' : List Tagged} {n : Nat} {x : Tagged} (h : st.take n = st' ++ [x]) :
    st'.length ≤ st.length := by
  have := congrArg List.length h
  simp at this; omega

/-- Every instruction but SYSCALL makes of a state one of the listed effects. -/
theorem exec_effect {i : Instr} {s t : State} (hs : isSyscall i = false) (h : exec i s = .next t) :
    Effect i s t := by
  cases i <;> try (simp [isSyscall] at hs; done)
  all_goals simp only [exec] at h
  all_goals try (injection h with h; subst h)
  case nop => exact .same (by simp [overflows])
  case halt => exact .halt rfl
  case ldi => exact .setX _ _ rfl (by simp [overflows])
  case ldf => exact .setF _ _ rfl (by simp [overflows])
  case mov => exact .setX _ _ rfl (by simp [overflows])
  case movf => exact .setF _ _ rfl (by simp [overflows])
  case add => exact effect_checkedWrite rfl (by simp only [overflows]; omega)
  case sub => exact effect_checkedWrite rfl (by simp only [overflows]; omega)
  case mul rd a b =>
    have : ((s.getX a).toNat : Int) * (s.getX b).toNat = (((s.getX a).toNat * (s.getX b).toNat : Nat) : Int) := by push_cast; rfl
    refine effect_checkedWrite rfl ?_; simp only [overflows]; rw [this]; omega
  case addi => exact effect_checkedWrite rfl (by simp only [overflows]; omega)
  case subi => exact effect_checkedWrite rfl (by simp only [overflows]; omega)
  case muli rd a v =>
    have : ((s.getX a).toNat : Int) * v.toNat = (((s.getX a).toNat * v.toNat : Nat) : Int) := by push_cast; rfl
    refine effect_checkedWrite rfl ?_; simp only [overflows]; rw [this]; omega
  case div =>
    simp only [execDiv] at h; split at h <;> injection h with h <;> subst h
    · exact .raise _ (by simp [overflows])
    · exact .setX _ _ rfl (by simp [overflows])
  case mod =>
    simp only [execMod] at h; split at h <;> injection h with h <;> subst h
    · exact .raise _ (by simp [overflows])
    · exact .setX _ _ rfl (by simp [overflows])
  case fadd => exact effect_writeFloat rfl (by simp [overflows])
  case fsub => exact effect_writeFloat rfl (by simp [overflows])
  case fmul => exact effect_writeFloat rfl (by simp [overflows])
  case fdiv => exact effect_writeFloat rfl (by simp [overflows])
  case faddi => exact effect_writeFloat rfl (by simp [overflows])
  case fsubi => exact effect_writeFloat rfl (by simp [overflows])
  case fmuli => exact effect_writeFloat rfl (by simp [overflows])
  case fdivi => exact effect_writeFloat rfl (by simp [overflows])
  case and => exact .setX _ _ rfl (by simp [overflows])
  case or => exact .setX _ _ rfl (by simp [overflows])
  case xor => exact .setX _ _ rfl (by simp [overflows])
  case not => exact .setX _ _ rfl (by simp [overflows])
  case neg rd a =>
    refine effect_writeUnless rfl ?_
    simp only [overflows, negOverflows, beq_iff_eq]
    constructor
    · intro h; apply BitVec.eq_of_toNat_eq; rw [h]; rfl
    · intro h; rw [h]; rfl
  case fneg => exact .setF _ _ rfl (by simp [overflows])
  case shl rd a =>
    have hl := (s.getX a).isLt
    refine effect_writeUnless rfl ?_
    simp only [overflows, shlOverflows, BitVec.getLsbD, Nat.testBit_eq_decide_div_mod_eq, decide_eq_true_eq]; omega
  case shr rd a =>
    refine effect_writeUnless rfl ?_
    simp only [overflows, shrOverflows, BitVec.getLsbD, Nat.testBit_eq_decide_div_mod_eq, decide_eq_true_eq]; omega
  case ldh => exact effect_orRaise (by simp [overflows]) h fun v hv => .heapLoad _ _ _ _ hv rfl rfl (by simp [overflows])
  case ldhf => exact effect_orRaise (by simp [overflows]) h fun v hv => .heapLoadF _ _ _ _ hv rfl rfl (by simp [overflows])
  case sth => exact effect_orRaise (by simp [overflows]) h fun v hv => .heapStore _ _ _ hv rfl (by simp [overflows])
  case sthf => exact effect_orRaise (by simp [overflows]) h fun v hv => .heapStore _ _ _ hv rfl (by simp [overflows])
  case lds => exact effect_orRaise (by simp [overflows]) h fun v hv => .setX _ _ rfl (by simp [overflows])
  case ldsf => exact effect_orRaise (by simp [overflows]) h fun v hv => .setF _ _ rfl (by simp [overflows])
  case sts rs ro =>
    refine effect_orRaise (by simp [overflows]) h fun v hv => ?_
    rcases stackWrite_cases s.stack (stackAddress s ro) (.int (s.getX rs)) with ⟨_, e⟩ | ⟨_, e⟩ <;>
      rw [e] at hv <;> cases hv
    exact .stackStore _ _ rfl (by simp [overflows])
  case stsf fs ro =>
    refine effect_orRaise (by simp [overflows]) h fun v hv => ?_
    rcases stackWrite_cases s.stack (stackAddress s ro) (.flt (s.getF fs)) with ⟨_, e⟩ | ⟨_, e⟩ <;>
      rw [e] at hv <;> cases hv
    exact .stackStore _ _ rfl (by simp [overflows])
  case jmp => exact .jump _ rfl (by simp [overflows])
  case jo => exact effect_jumpIf rfl (by simp [overflows])
  case jno => exact effect_jumpIf rfl (by simp [overflows])
  case jeq => exact effect_jumpIf (by rw [Bool.eq_iff_iff]; simp [mayWritePc]) (by simp [overflows])
  case jne => exact effect_jumpIf (by rw [Bool.eq_iff_iff]; simp [mayWritePc]) (by simp [overflows])
  case jz => exact effect_jumpIf (by rw [Bool.eq_iff_iff]; simp [mayWritePc]) (by simp [overflows])
  case jnz => exact effect_jumpIf (by rw [Bool.eq_iff_iff]; simp [mayWritePc]) (by simp [overflows])
  case push rs =>
    refine effect_orRaise (by simp [overflows]) h fun v hv => ?_
    rcases stackPush_cases s.params.stackCap s.stack (.int (s.getX rs)) with ⟨hf, e⟩ | ⟨_, e⟩ <;>
      rw [e] at hv <;> cases hv
    exact .push _ hf rfl (by simp [overflows])
  case pushf rs =>
    refine effect_orRaise (by simp [overflows]) h fun v hv => ?_
    rcases stackPush_cases s.params.stackCap s.stack (.flt (s.getF rs)) with ⟨hf, e⟩ | ⟨_, e⟩ <;>
      rw [e] at hv <;> cases hv
    exact .push _ hf rfl (by simp [overflows])
  case pop rd =>
    rcases popKind_cases s .int (fun s' v => s'.setX rd v) with ⟨_, e⟩ | ⟨st, x, hst, _, e⟩ | ⟨st, x, hst, _, e⟩ <;>
      simp only [execPop] at h <;> rw [e] at h <;> injection h with h <;> subst h
    · exact .raise _ (by simp [overflows])
    · exact .popMismatch _ _ hst rfl rfl (by simp [overflows])
    · exact .pop _ _ _ _ hst rfl rfl (by simp [overflows])
  case popf rd =>
    rcases popKind_cases s .flt (fun s' v => s'.setF rd v) with ⟨_, e⟩ | ⟨st, x, hst, _, e⟩ | ⟨st, x, hst, _, e⟩ <;>
      simp only [execPopf] at h <;> rw [e] at h <;> injection h with h <;> subst h
    · exact .raise _ (by simp [overflows])
    · exact .popMismatch _ _ hst rfl rfl (by simp [overflows])
    · exact .popF _ _ _ _ hst rfl rfl (by simp [overflows])
  case call rt =>
    simp only [execCall] at h; split at h <;> injection h with h <;> subst h
    · exact .call _ (by assumption) ⟨_, rfl⟩
    · exact .raise _ (by simp [overflows])
  case ret =>
    simp only [execRet] at h
    rcases popLink_cases (s.setStack (stackTruncate s.stack (s.bp.toNat + 1))) State.setPc with ⟨he, e⟩ | ⟨st, b, hst, e⟩ | ⟨st, v, hst, e⟩ <;>
      rw [e] at h <;> simp only at h <;> injection h with h <;> subst h
    · exact .retFault _ _ .invalidStackAddr rfl (by simp [stackTruncate])
    · exact .retFault _ _ .typeMismatch rfl (length_le_of_take_eq (by simpa [stackTruncate] using hst))
    · have hl := length_le_of_take_eq (st := s.stack) (by simpa [stackTruncate] using hst)
      set u := State.setPc ((s.setStack (stackTruncate s.stack (s.bp.toNat + 1))).setStack st) v with hu
      have hus : u.stack = st := rfl
      rcases popLink_cases u State.setBp with ⟨he, e⟩ | ⟨st', b, hst', e⟩ | ⟨st', v', hst', e⟩ <;>
        rw [e] <;> simp only
      · exact .retFault st v .invalidStackAddr rfl hl
      · exact .retFault st' v .typeMismatch rfl (by rw [hus] at hst'; rw [hst'] at hl; simp at hl; omega)
      · exact .ret st' v v' rfl (by rw [hus] at hst'; rw [hst'] at hl; simp at hl; omega)
  case inp => exact .raise _ (by simp [overflows])
  case out => exact .raise _ (by simp [overflows])

/-- What SYSCALL makes of a state (49_syscall_reserved.md R580). -/
theorem exec_syscall_next {s t : State} {ri : XReg} (h : exec (.syscall ri) s = .next t) :
    (s.params.syscalls[(s.getX ri).toNat]? = none ∧ t = s.raise .invalidSysCall) ∨
    ∃ e r, s.params.syscalls[(s.getX ri).toNat]? = some e ∧ syscallReply e s = some r ∧
      t = foldReply { s with sysCalls := s.sysCalls + 1 } r := by
  simp only [exec] at h
  rcases execSyscall_cases ri s with ⟨h1, e⟩ | ⟨_, _, _, e⟩ | ⟨e', r, h1, h2, e⟩ <;> rw [e] at h <;>
    cases h
  · exact .inl ⟨List.getElem?_eq_none h1, rfl⟩
  · exact .inr ⟨e', r, h1, h2, rfl⟩

/-- What the cycle from the fetch on makes of a state: InvalidCodeAddr; or, with pc one further, a decode
fault or an instruction (40_cycle.md R402-R405). -/
def FetchEffect (u t : State) : Prop :=
  t = u.raise .invalidCodeAddr ∨
    (u.pc.toNat < u.code.length ∧
      (t = (u.setPc (u.pc + 1)).raise .illegalInstruction ∨
        t = (u.setPc (u.pc + 1)).raise .invalidReg ∨ ∃ i, exec i (u.setPc (u.pc + 1)) = .next t))

theorem fetchAndExecute_effect {u t : State} (h : fetchAndExecute u = .next t) : FetchEffect u t := by
  rcases fetchAndExecute_cases u with ⟨_, e⟩ | ⟨w, hw, e⟩ <;> rw [e] at h
  · cases h; exact .inl rfl
  · refine .inr ⟨(List.getElem?_eq_some_iff.1 hw).1, ?_⟩
    rcases decodeAndExecute_cases w (u.setPc (u.pc + 1)) with ⟨_, e⟩ | ⟨_, e⟩ | ⟨i, _, e⟩ <;> rw [e] at h
    · cases h; exact .inl rfl
    · cases h; exact .inr (.inl rfl)
    · exact .inr (.inr ⟨i, h⟩)

/-- What a step makes of a state: nothing where no run is in progress; the hook's stop; or a cycle, the
hook's call counted where there is a hook. -/
theorem step_effect {s t : State} (h : step s = .next t) :
    (s.runState ≠ .running ∧ t = s) ∨
    (s.runState = .running ∧
      (t = s.countHook.stop ∨ ∃ u, (u = s ∨ u = s.countHook) ∧ FetchEffect u t)) := by
  rcases step_cases s with ⟨hr, e⟩ | ⟨hr, e⟩ <;> rw [e] at h
  · cases h; exact .inl ⟨hr, rfl⟩
  · refine .inr ⟨hr, ?_⟩
    rcases cycle_cases s with ⟨_, _, _, e⟩ | ⟨_, _, _, e⟩ | ⟨_, _, _, e⟩ | ⟨_, e⟩ <;> rw [e] at h
    · cases h
    · cases h; exact .inl rfl
    · exact .inr ⟨_, .inr rfl, fetchAndExecute_effect h⟩
    · exact .inr ⟨_, .inl rfl, fetchAndExecute_effect h⟩

end Sys2Proof.Machine
end

