-- ==== Sys2Proof/Laws/Encoding.lean ====
section
/-! SUPPORT. The fields of a word and the word of fields are each other's inverses, and so are a
register and its specifier (30_encoding.md R300, R301). -/

namespace Sys2Proof

/-- Decoding the fields of an assembled word gives the fields back (R300). -/
@[simp] theorem fieldsOf_wordOf (r : Fields) : fieldsOf (wordOf r) = r := by
  cases r with
  | mk opc a b c rsv imm =>
    simp only [fieldsOf, wordOf, Fields.mk.injEq]
    refine ⟨?_, ?_, ?_, ?_, ?_, ?_⟩ <;>
      · apply BitVec.eq_of_getLsbD_eq
        intro i hi
        simp only [BitVec.getLsbD_extractLsb', BitVec.getLsbD_append, hi, decide_true, Bool.true_and]
        repeat rw [if_neg (by omega)]
        try rw [if_pos (by omega)]
        congr 1
        omega

/-- A word is the one its fields assemble to (R300). -/
@[simp] theorem wordOf_fieldsOf (w : InstrWord) : wordOf (fieldsOf w) = w := by
  apply BitVec.eq_of_getLsbD_eq
  intro i hi
  simp only [wordOf, fieldsOf, BitVec.getLsbD_append, BitVec.getLsbD_extractLsb']
  split_ifs with h1 h2 h3 h4 h5 <;>
    · rw [decide_eq_true (by omega), Bool.true_and]
      congr 1
      omega

@[simp] theorem fieldsOf_encode (i : Instr) : fieldsOf (encode i) = encodeFields i :=
  fieldsOf_wordOf _

/-- Two words with the same fields are the same word. -/
theorem fieldsOf_injective {v w : InstrWord} (h : fieldsOf v = fieldsOf w) : v = w := by
  rw [← wordOf_fieldsOf v, h, wordOf_fieldsOf]

@[simp] theorem XReg.ofSpec_spec (r : XReg) : XReg.ofSpec r.spec = some r := by cases r <;> rfl

@[simp] theorem FReg.ofSpec_spec (r : FReg) : FReg.ofSpec r.spec = some r := by cases r <;> rfl

/-- A specifier that names an integer register is that register's (R301). -/
theorem XReg.spec_of_ofSpec (v : BitVec 4) (r : XReg) (h : XReg.ofSpec v = some r) : v = r.spec := by
  revert v r
  decide

/-- A specifier that names a float register is that register's (R301). -/
theorem FReg.spec_of_ofSpec (v : BitVec 4) (r : FReg) (h : FReg.ofSpec v = some r) : v = r.spec := by
  revert v r
  decide

/-- A specifier names an integer register exactly when its bank bit is 0 (R301, R309). -/
theorem XReg.ofSpec_isSome (v : BitVec 4) : (XReg.ofSpec v).isSome = !v.getLsbD 3 := by
  unfold XReg.ofSpec
  cases v.getLsbD 3 <;> rfl

/-- A specifier names a float register exactly when its bank bit is 1 (R301, R309). -/
theorem FReg.ofSpec_isSome (v : BitVec 4) : (FReg.ofSpec v).isSome = v.getLsbD 3 := by
  unfold FReg.ofSpec
  cases v.getLsbD 3 <;> rfl

/-! ### Words and the table's masks, field by field -/

/-- Fieldwise AND. -/
def Fields.and (r m : Fields) : Fields :=
  ⟨r.opc &&& m.opc, r.a &&& m.a, r.b &&& m.b, r.c &&& m.c, r.rsv &&& m.rsv, r.imm &&& m.imm⟩

@[simp] theorem Fields.op_and (opc : BitVec 8) (m : Fields) :
    (Fields.op opc).and m = ⟨opc &&& m.opc, 0, 0, 0, 0, 0⟩ := by
  simp [Fields.op, Fields.and]

@[simp] theorem Fields.regs_and (opc : BitVec 8) (a b c : BitVec 4) (m : Fields) :
    (Fields.regs opc a b c).and m = ⟨opc &&& m.opc, a &&& m.a, b &&& m.b, c &&& m.c, 0, 0⟩ := by
  simp [Fields.regs, Fields.and]

@[simp] theorem Fields.immediate_and (opc : BitVec 8) (a b : BitVec 4) (v : Word) (m : Fields) :
    (Fields.immediate opc a b v).and m = ⟨opc &&& m.opc, a &&& m.a, b &&& m.b, 0, 0, v &&& m.imm⟩ := by
  simp [Fields.immediate, Fields.and]

theorem fieldsOf_and (v w : InstrWord) : fieldsOf (v &&& w) = (fieldsOf v).and (fieldsOf w) := by
  simp [fieldsOf, Fields.and, BitVec.extractLsb'_and]

theorem word_and_eq_iff (w m p : InstrWord) :
    (w &&& m) = p ↔ (fieldsOf w).and (fieldsOf m) = fieldsOf p := by
  rw [← fieldsOf_and]
  exact ⟨fun h => h ▸ rfl, fieldsOf_injective⟩

/-- A row's fixed bits, field by field. -/
theorem OpcodeRow.shapeOk_iff (r : OpcodeRow) (w : InstrWord) :
    r.shapeOk w = true ↔ (fieldsOf w).and (fieldsOf r.mask) = fieldsOf r.pattern := by
  rw [← word_and_eq_iff, OpcodeRow.shapeOk, beq_iff_eq]

/-- A row's bank bits, field by field. -/
theorem OpcodeRow.banksOk_iff (r : OpcodeRow) (w : InstrWord) :
    r.banksOk w = true ↔ (fieldsOf w).and (fieldsOf r.bankMask) = fieldsOf r.bankBits := by
  rw [← word_and_eq_iff, OpcodeRow.banksOk, beq_iff_eq]

@[simp] theorem XReg.spec_and_bank (r : XReg) : r.spec &&& 8#4 = 0#4 := by cases r <;> rfl

@[simp] theorem FReg.spec_and_bank (r : FReg) : r.spec &&& 8#4 = 8#4 := by cases r <;> rfl

/-- An instruction whose fields fit a row of the table has a well-formed word. -/
theorem wellFormedWord_of_row {i : Instr} (k : Nat) {row : OpcodeRow}
    (hk : opcodeTable[k]? = some row)
    (hs : (encodeFields i).and (fieldsOf row.mask) = fieldsOf row.pattern)
    (hb : (encodeFields i).and (fieldsOf row.bankMask) = fieldsOf row.bankBits) :
    wellFormedWord (encode i) = true := by
  refine List.any_eq_true.2 ⟨row, List.mem_of_getElem? hk, ?_⟩
  rw [Bool.and_eq_true, OpcodeRow.shapeOk_iff, OpcodeRow.banksOk_iff, fieldsOf_encode]
  exact ⟨hs, hb⟩

end Sys2Proof
end

