-- ==== Sys2Proof/Laws/PerInstr.lean ====
section
/-! SUPPORT. The family of statements made instruction by instruction: the word of an instruction is a
legal encoding of the opcode table (30_encoding.md R311). -/

namespace Sys2Proof.Laws.EncodeWellFormed

/-- The encoder's word for the instruction is well formed. -/
def Statement (i : Instr) : Prop := wellFormedWord (encode i) = true


theorem nop : Statement (.nop) := by
  refine wellFormedWord_of_row 0 rfl ?_ ?_ <;> simp [encodeFields, fieldsOf]

theorem halt : Statement (.halt) := by
  refine wellFormedWord_of_row 1 rfl ?_ ?_ <;> simp [encodeFields, fieldsOf]

theorem ldi rd imm : Statement (.ldi rd imm) := by
  refine wellFormedWord_of_row 2 rfl ?_ ?_ <;> simp [encodeFields, fieldsOf]

theorem ldf fd imm : Statement (.ldf fd imm) := by
  refine wellFormedWord_of_row 3 rfl ?_ ?_ <;> simp [encodeFields, fieldsOf]

theorem mov rd rs : Statement (.mov rd rs) := by
  refine wellFormedWord_of_row 4 rfl ?_ ?_ <;> simp [encodeFields, fieldsOf]

theorem movf fd fs : Statement (.movf fd fs) := by
  refine wellFormedWord_of_row 5 rfl ?_ ?_ <;> simp [encodeFields, fieldsOf]

theorem add rd rs1 rs2 : Statement (.add rd rs1 rs2) := by
  refine wellFormedWord_of_row 6 rfl ?_ ?_ <;> simp [encodeFields, fieldsOf]

theorem sub rd rs1 rs2 : Statement (.sub rd rs1 rs2) := by
  refine wellFormedWord_of_row 7 rfl ?_ ?_ <;> simp [encodeFields, fieldsOf]

theorem mul rd rs1 rs2 : Statement (.mul rd rs1 rs2) := by
  refine wellFormedWord_of_row 8 rfl ?_ ?_ <;> simp [encodeFields, fieldsOf]

theorem addi rd rs imm : Statement (.addi rd rs imm) := by
  refine wellFormedWord_of_row 9 rfl ?_ ?_ <;> simp [encodeFields, fieldsOf]

theorem subi rd rs imm : Statement (.subi rd rs imm) := by
  refine wellFormedWord_of_row 10 rfl ?_ ?_ <;> simp [encodeFields, fieldsOf]

theorem muli rd rs imm : Statement (.muli rd rs imm) := by
  refine wellFormedWord_of_row 11 rfl ?_ ?_ <;> simp [encodeFields, fieldsOf]

theorem div rd rs1 rs2 : Statement (.div rd rs1 rs2) := by
  refine wellFormedWord_of_row 12 rfl ?_ ?_ <;> simp [encodeFields, fieldsOf]

theorem mod rd rs1 rs2 : Statement (.mod rd rs1 rs2) := by
  refine wellFormedWord_of_row 13 rfl ?_ ?_ <;> simp [encodeFields, fieldsOf]

theorem fadd fd fs1 fs2 : Statement (.fadd fd fs1 fs2) := by
  refine wellFormedWord_of_row 14 rfl ?_ ?_ <;> simp [encodeFields, fieldsOf]

theorem fsub fd fs1 fs2 : Statement (.fsub fd fs1 fs2) := by
  refine wellFormedWord_of_row 15 rfl ?_ ?_ <;> simp [encodeFields, fieldsOf]

theorem fmul fd fs1 fs2 : Statement (.fmul fd fs1 fs2) := by
  refine wellFormedWord_of_row 16 rfl ?_ ?_ <;> simp [encodeFields, fieldsOf]

theorem fdiv fd fs1 fs2 : Statement (.fdiv fd fs1 fs2) := by
  refine wellFormedWord_of_row 17 rfl ?_ ?_ <;> simp [encodeFields, fieldsOf]

theorem faddi fd fs imm : Statement (.faddi fd fs imm) := by
  refine wellFormedWord_of_row 18 rfl ?_ ?_ <;> simp [encodeFields, fieldsOf]

theorem fsubi fd fs imm : Statement (.fsubi fd fs imm) := by
  refine wellFormedWord_of_row 19 rfl ?_ ?_ <;> simp [encodeFields, fieldsOf]

theorem fmuli fd fs imm : Statement (.fmuli fd fs imm) := by
  refine wellFormedWord_of_row 20 rfl ?_ ?_ <;> simp [encodeFields, fieldsOf]

theorem fdivi fd fs imm : Statement (.fdivi fd fs imm) := by
  refine wellFormedWord_of_row 21 rfl ?_ ?_ <;> simp [encodeFields, fieldsOf]

theorem and rd rs1 rs2 : Statement (.and rd rs1 rs2) := by
  refine wellFormedWord_of_row 22 rfl ?_ ?_ <;> simp [encodeFields, fieldsOf]

theorem or rd rs1 rs2 : Statement (.or rd rs1 rs2) := by
  refine wellFormedWord_of_row 23 rfl ?_ ?_ <;> simp [encodeFields, fieldsOf]

theorem xor rd rs1 rs2 : Statement (.xor rd rs1 rs2) := by
  refine wellFormedWord_of_row 24 rfl ?_ ?_ <;> simp [encodeFields, fieldsOf]

theorem not rd rs : Statement (.not rd rs) := by
  refine wellFormedWord_of_row 25 rfl ?_ ?_ <;> simp [encodeFields, fieldsOf]

theorem neg rd rs : Statement (.neg rd rs) := by
  refine wellFormedWord_of_row 26 rfl ?_ ?_ <;> simp [encodeFields, fieldsOf]

theorem fneg fd fs : Statement (.fneg fd fs) := by
  refine wellFormedWord_of_row 27 rfl ?_ ?_ <;> simp [encodeFields, fieldsOf]

theorem shl rd rs : Statement (.shl rd rs) := by
  refine wellFormedWord_of_row 28 rfl ?_ ?_ <;> simp [encodeFields, fieldsOf]

theorem shr rd rs : Statement (.shr rd rs) := by
  refine wellFormedWord_of_row 29 rfl ?_ ?_ <;> simp [encodeFields, fieldsOf]

theorem ldh rd ra : Statement (.ldh rd ra) := by
  refine wellFormedWord_of_row 30 rfl ?_ ?_ <;> simp [encodeFields, fieldsOf]

theorem ldhf fd ra : Statement (.ldhf fd ra) := by
  refine wellFormedWord_of_row 31 rfl ?_ ?_ <;> simp [encodeFields, fieldsOf]

theorem sth rs ra : Statement (.sth rs ra) := by
  refine wellFormedWord_of_row 32 rfl ?_ ?_ <;> simp [encodeFields, fieldsOf]

theorem sthf fs ra : Statement (.sthf fs ra) := by
  refine wellFormedWord_of_row 33 rfl ?_ ?_ <;> simp [encodeFields, fieldsOf]

theorem lds rd ro : Statement (.lds rd ro) := by
  refine wellFormedWord_of_row 34 rfl ?_ ?_ <;> simp [encodeFields, fieldsOf]

theorem ldsf fd ro : Statement (.ldsf fd ro) := by
  refine wellFormedWord_of_row 35 rfl ?_ ?_ <;> simp [encodeFields, fieldsOf]

theorem sts rs ro : Statement (.sts rs ro) := by
  refine wellFormedWord_of_row 36 rfl ?_ ?_ <;> simp [encodeFields, fieldsOf]

theorem stsf fs ro : Statement (.stsf fs ro) := by
  refine wellFormedWord_of_row 37 rfl ?_ ?_ <;> simp [encodeFields, fieldsOf]

theorem jmp rt : Statement (.jmp rt) := by
  refine wellFormedWord_of_row 38 rfl ?_ ?_ <;> simp [encodeFields, fieldsOf]

theorem jo rt : Statement (.jo rt) := by
  refine wellFormedWord_of_row 39 rfl ?_ ?_ <;> simp [encodeFields, fieldsOf]

theorem jno rt : Statement (.jno rt) := by
  refine wellFormedWord_of_row 40 rfl ?_ ?_ <;> simp [encodeFields, fieldsOf]

theorem jeq rt rs1 rs2 : Statement (.jeq rt rs1 rs2) := by
  refine wellFormedWord_of_row 41 rfl ?_ ?_ <;> simp [encodeFields, fieldsOf]

theorem jne rt rs1 rs2 : Statement (.jne rt rs1 rs2) := by
  refine wellFormedWord_of_row 42 rfl ?_ ?_ <;> simp [encodeFields, fieldsOf]

theorem jz rt rs : Statement (.jz rt rs) := by
  refine wellFormedWord_of_row 43 rfl ?_ ?_ <;> simp [encodeFields, fieldsOf]

theorem jnz rt rs : Statement (.jnz rt rs) := by
  refine wellFormedWord_of_row 44 rfl ?_ ?_ <;> simp [encodeFields, fieldsOf]

theorem push rs : Statement (.push rs) := by
  refine wellFormedWord_of_row 45 rfl ?_ ?_ <;> simp [encodeFields, fieldsOf]

theorem pushf fs : Statement (.pushf fs) := by
  refine wellFormedWord_of_row 46 rfl ?_ ?_ <;> simp [encodeFields, fieldsOf]

theorem pop rd : Statement (.pop rd) := by
  refine wellFormedWord_of_row 47 rfl ?_ ?_ <;> simp [encodeFields, fieldsOf]

theorem popf fd : Statement (.popf fd) := by
  refine wellFormedWord_of_row 48 rfl ?_ ?_ <;> simp [encodeFields, fieldsOf]

theorem call rt : Statement (.call rt) := by
  refine wellFormedWord_of_row 49 rfl ?_ ?_ <;> simp [encodeFields, fieldsOf]

theorem ret : Statement (.ret) := by
  refine wellFormedWord_of_row 50 rfl ?_ ?_ <;> simp [encodeFields, fieldsOf]

theorem syscall ri : Statement (.syscall ri) := by
  refine wellFormedWord_of_row 51 rfl ?_ ?_ <;> simp [encodeFields, fieldsOf]

theorem inp : Statement (.inp) := by
  refine wellFormedWord_of_row 52 rfl ?_ ?_ <;> simp [encodeFields, fieldsOf]

theorem out : Statement (.out) := by
  refine wellFormedWord_of_row 53 rfl ?_ ?_ <;> simp [encodeFields, fieldsOf]

end Sys2Proof.Laws.EncodeWellFormed
end

