-- ==== Sys2Proof/Machine/Asm.lean ====
section
/-! DEFINITION. The assembler syntax of 30_encoding.md R314 and R315, as a function from program text
to instruction words. Text is a list of characters. Like the spec's own vectors, the assembler writes
a register operand of either bank into a field; a wrong bank faults when decoded (R309). What R314
leaves open of the notation is fixed in log 20. -/

namespace Sys2Proof.Machine

/-- Program text. -/
abbrev Text := List Char

/-! ### Splitting text -/

/-- White space within a line. -/
def isBlank (c : Char) : Bool := c == ' ' || c == '\t' || c == '\r'

/-- Text without white space at its ends. -/
def trimText (t : Text) : Text :=
  ((t.dropWhile isBlank).reverse.dropWhile isBlank).reverse

/-- The pieces of a text between occurrences of a separator. -/
def splitText (sep : Char) : Text → List Text
  | [] => [[]]
  | c :: rest =>
    if c == sep then [] :: splitText sep rest
    else
      match splitText sep rest with
      | [] => [[c]]
      | p :: ps => (c :: p) :: ps

/-! ### Numbers -/

/-- The value of a decimal digit. -/
def decDigit (c : Char) : Option Nat :=
  if '0'.toNat ≤ c.toNat ∧ c.toNat ≤ '9'.toNat then some (c.toNat - '0'.toNat) else none

/-- The value of a hexadecimal digit, of either case. -/
def hexDigit (c : Char) : Option Nat :=
  if 'a'.toNat ≤ c.toNat ∧ c.toNat ≤ 'f'.toNat then some (c.toNat - 'a'.toNat + 10)
  else if 'A'.toNat ≤ c.toNat ∧ c.toNat ≤ 'F'.toNat then some (c.toNat - 'A'.toNat + 10)
  else decDigit c

/-- The number that digits stand for in a base, after the ones already read. -/
def readDigits (base : Nat) (digit : Char → Option Nat) : (acc : Nat) → Text → Option Nat
  | acc, [] => some acc
  | acc, c :: rest =>
    match digit c with
    | none => none
    | some d => readDigits base digit (base * acc + d) rest

/-- A decimal number of at least one digit. -/
def decNumber (t : Text) : Option Nat := if t.isEmpty then none else readDigits 10 decDigit 0 t

/-- A hexadecimal number of at least one digit. -/
def hexNumber (t : Text) : Option Nat := if t.isEmpty then none else readDigits 16 hexDigit 0 t

/-! ### Operands (R314) -/

/-- A register operand `r0`-`r7` or `f0`-`f7`, of either case, as its specifier (R301). -/
def registerOperand (t : Text) : Option (BitVec 4) :=
  match t with
  | [b, d] =>
    match decDigit d with
    | some n =>
      if 7 < n then none
      else if b == 'r' || b == 'R' then some (BitVec.ofNat 4 n)
      else if b == 'f' || b == 'F' then some (BitVec.ofNat 4 (8 + n))
      else none
    | none => none
  | _ => none

/-- An integer literal: hexadecimal of at most 16 digits, a negative decimal down to `-2^63` meaning
`2^64 + v`, or a decimal below `2^64`. -/
def integerLiteral (t : Text) : Option Word :=
  match t with
  | '0' :: 'x' :: ds => if ds.length ≤ 16 then (hexNumber ds).map (BitVec.ofNat 64) else none
  | '-' :: ds =>
    match decNumber ds with
    | some n => if 1 ≤ n ∧ n ≤ 2 ^ 63 then some (BitVec.ofNat 64 (2 ^ 64 - n)) else none
    | none => none
  | ds =>
    match decNumber ds with
    | some n => if n < 2 ^ 64 then some (BitVec.ofNat 64 n) else none
    | none => none

/-- A decimal exponent, as the powers of ten to multiply and to divide by. -/
def decimalExponent (t : Text) : Option (Nat × Nat) :=
  match t with
  | '-' :: ds => (decNumber ds).map fun n => (0, n)
  | '+' :: ds => (decNumber ds).map fun n => (n, 0)
  | ds => (decNumber ds).map fun n => (n, 0)

/-- The magnitude bits of an unsigned decimal literal, rounded to nearest, ties to even. -/
def decimalMagnitude (t : Text) : Option Nat :=
  let parts := splitText 'e' (t.map fun c => if c == 'E' then 'e' else c)
  let expo : Option (Nat × Nat) :=
    match parts with
    | [_] => some (0, 0)
    | [_, e] => decimalExponent e
    | _ => none
  let mant : Option (Nat × Nat) :=
    match splitText '.' (parts.headD []) with
    | [i] => (decNumber i).map fun n => (n, 0)
    | [i, f] =>
      if i.isEmpty || f.isEmpty then none else (decNumber (i ++ f)).map fun n => (n, f.length)
    | _ => none
  match mant, expo with
  | some (n, shift), some (up, down) =>
    some (roundMagnitude (n * 10 ^ up * 2 ^ 1074) (10 ^ (shift + down)))
  | _, _ => none

/-- A float literal: `inf`, `-inf`, a raw pattern of 16 hexadecimal digits, or a decimal literal. -/
def floatLiteral (t : Text) : Option Word :=
  match t with
  | ['i', 'n', 'f'] => some (floatInf false)
  | ['-', 'i', 'n', 'f'] => some (floatInf true)
  | '0' :: 'x' :: ds => if ds.length = 16 then (hexNumber ds).map (BitVec.ofNat 64) else none
  | '-' :: ds => (decimalMagnitude ds).map (floatPack true)
  | ds => (decimalMagnitude ds).map (floatPack false)

/-! ### Lines -/

/-- A character of a label's name. -/
def isNameChar (c : Char) : Bool := c.isAlpha || c == '_' || c.isDigit

/-- A label's name: letters, digits and `_`, not a digit first. -/
def isName (t : Text) : Bool := !t.isEmpty && t.all isNameChar && !(t.headD '0').isDigit

/-- A source line: an optional label and an optional mnemonic with its operands. -/
structure SourceLine where
  label : Option Text
  instr : Option (Text × List Text)
  deriving DecidableEq, Repr

/-- Read one line: the comment is dropped, a label stands at the start, operands are separated by
commas (R314). -/
def readLine (line : Text) : Option SourceLine :=
  let code := trimText (line.takeWhile (· != ';'))
  let parts := splitText ':' code
  let body : Text → Option (Text × List Text) := fun b =>
    let b := trimText b
    if b.isEmpty then none
    else
      let mn := b.takeWhile (fun c => !isBlank c)
      let rest := trimText (b.dropWhile (fun c => !isBlank c))
      some (mn, if rest.isEmpty then [] else (splitText ',' rest).map trimText)
  match parts with
  | [b] => some ⟨none, body b⟩
  | [l, b] => if isName (trimText l) then some ⟨some (trimText l), body b⟩ else none
  | _ => none

/-- The number of register operands of a shape, and whether an integer or a float immediate follows
them (R302, R303). -/
def Shape.operands : Shape → Nat × Option Kind
  | .n _ | .any _ => (0, none)
  | .x _ | .f _ => (1, none)
  | .xx _ | .ff _ | .fx _ => (2, none)
  | .xxx _ | .fff _ => (3, none)
  | .xi _ => (1, some .int)
  | .fi _ => (1, some .flt)
  | .xxi _ => (2, some .int)
  | .ffi _ => (2, some .flt)

/-- The opcode of a mnemonic (R305). -/
def opcodeOf (mn : Text) : Option (BitVec 8) :=
  (opcodeTable.find? fun r => r.mnemonic.toList == mn).map fun r => r.pattern.extractLsb' 0 8

/-- The immediate operand of a kind: a literal, or for an integer a label (R314, R315). -/
def immediateOperand (labels : List (Text × Nat)) (k : Kind) (t : Text) : Option Word :=
  match k with
  | .flt => floatLiteral t
  | .int =>
    match integerLiteral t with
    | some v => some v
    | none => (labels.lookup t).map (BitVec.ofNat 64)

/-- The word of one instruction line (R300, R314). -/
def assembleInstr (labels : List (Text × Nat)) (line : Text × List Text) : Option InstrWord := do
  let opc ← opcodeOf line.1
  let shape ← opcodeShape opc
  let (n, immKind) := Shape.operands shape
  let specs ← (line.2.take n).mapM registerOperand
  let imm ←
    match immKind, line.2.drop n with
    | none, [] => some 0
    | some k, [t] => immediateOperand labels k t
    | _, _ => none
  if specs.length = n then
    some (wordOf ⟨opc, specs.getD 0 0, specs.getD 1 0, specs.getD 2 0, 0, imm⟩)
  else none

/-- The labels of a program, each with the code index of the next instruction (R314). A label with no
instruction after it stands for the number of instructions of the program (DESIGN CHOICE, log 20: R314 is
silent there). -/
def labelTable : (index : Nat) → List SourceLine → List (Text × Nat)
  | _, [] => []
  | k, l :: rest =>
    let here := match l.label with | some t => [(t, k)] | none => []
    here ++ labelTable (if l.instr.isSome then k + 1 else k) rest

/-- Assemble a program: read the lines, resolve the labels, encode the instructions; `none` for text
that R314 does not describe. -/
def assemble (program : Text) : Option (List InstrWord) := do
  let lines ← (splitText '\n' program).mapM readLine
  let labels := labelTable 0 lines
  if (labels.map Prod.fst).Nodup then
    (lines.filterMap SourceLine.instr).mapM (assembleInstr labels)
  else none

end Sys2Proof.Machine
end

