-- ==== Sys2Proof/Tests/Slice0.lean ====
section
/-! SUPPORT. The model's own tests: ill-formed words that the check refuses, written-out words that
decode, one-step tests from the vectors of spec/95_test_vectors.md (their numbers in the names), and a
witness for the hypotheses of every obligation that has some. -/

namespace Sys2Proof.Tests

set_option Elab.async false

open Sys2Proof Sys2Proof.Machine

/-! ### Ill-formed words (30_encoding.md R307-R309) -/

/-- An unassigned opcode has no row. -/
theorem test_wellFormed_refuses_unassigned_opcode : wellFormedWord 0x02 = false := by decide +kernel

/-- ADD with bit 63, the last of RSV, set. -/
theorem test_wellFormed_refuses_rsv : wellFormedWord 0x8000000000021010 = false := by decide +kernel

/-- RET with field B set. -/
theorem test_wellFormed_refuses_unused_register : wellFormedWord 0x1071 = false := by decide +kernel

/-- LDS with an immediate. -/
theorem test_wellFormed_refuses_unused_immediate :
    wellFormedWord 0x00000000000000010000000000001044 = false := by decide +kernel

/-- LDHF with an integer destination: the shape is right, the bank is wrong. -/
theorem test_wellFormed_refuses_wrong_bank : wellFormedWord 0x1041 = false := by decide +kernel

/-- The same words as the decoder answers them, by name (vectors V169, V176-V178, V180). -/
theorem test_decode_refuses_by_name :
    decode 0x02 = .illegalInstruction ∧ decode 0x8000000000021010 = .illegalInstruction ∧
    decode 0x1071 = .illegalInstruction ∧
    decode 0x00000000000000010000000000001044 = .illegalInstruction ∧ decode 0x1041 = .invalidReg := by
  decide +kernel

/-- Fifteen bytes are no word (R312). -/
theorem test_decodeBytes_short : decodeBytes (List.replicate 15 0) = .illegalInstruction := by decide

/-- A used register field of the wrong bank in B and in C (V136's and V179's kind), and the priority of a
reserved bit over the bank (V182). -/
theorem test_decode_bank_fields :
    decode 0x9841 = .invalidReg ∧ decode 0xA1010 = .invalidReg ∧
    decode 0x1A1010 = .illegalInstruction := by decide +kernel

/-! ### Words written out from the spec's encodings, every instruction -/

theorem test_decode_control :
    decode 0x00000000000000000000000000000000 = .ok (.nop) ∧
    decode 0x00000000000000000000000000000001 = .ok (.halt) := by
  decide +kernel

theorem test_decode_moves :
    decode 0x00000000DEADBEEF0000000000000308 = .ok (.ldi .r3 0xDEADBEEF) ∧
    decode 0x40040000000000000000000000000909 = .ok (.ldf .f1 0x4004000000000000) ∧
    decode 0x0000000000000000000000000000100A = .ok (.mov .r0 .r1) ∧
    decode 0x0000000000000000000000000000980B = .ok (.movf .f0 .f1) := by
  decide +kernel

theorem test_decode_int :
    decode 0x00000000000000000000000000021010 = .ok (.add .r0 .r1 .r2) ∧
    decode 0x00000000000000000000000000021011 = .ok (.sub .r0 .r1 .r2) ∧
    decode 0x00000000000000000000000000021012 = .ok (.mul .r0 .r1 .r2) ∧
    decode 0x00000000000000010000000000000013 = .ok (.addi .r0 .r0 1) ∧
    decode 0x00000000000000010000000000000214 = .ok (.subi .r2 .r0 1) ∧
    decode 0x00000000000000030000000000001015 = .ok (.muli .r0 .r1 3) ∧
    decode 0x00000000000000000000000000021016 = .ok (.div .r0 .r1 .r2) ∧
    decode 0x00000000000000000000000000021017 = .ok (.mod .r0 .r1 .r2) := by
  decide +kernel

theorem test_decode_float :
    decode 0x000000000000000000000000000A9820 = .ok (.fadd .f0 .f1 .f2) ∧
    decode 0x000000000000000000000000000A9821 = .ok (.fsub .f0 .f1 .f2) ∧
    decode 0x000000000000000000000000000A9822 = .ok (.fmul .f0 .f1 .f2) ∧
    decode 0x000000000000000000000000000A9823 = .ok (.fdiv .f0 .f1 .f2) ∧
    decode 0x3FE00000000000000000000000009824 = .ok (.faddi .f0 .f1 0x3FE0000000000000) ∧
    decode 0x3FE00000000000000000000000009825 = .ok (.fsubi .f0 .f1 0x3FE0000000000000) ∧
    decode 0xC0000000000000000000000000009826 = .ok (.fmuli .f0 .f1 0xC000000000000000) ∧
    decode 0x40100000000000000000000000009827 = .ok (.fdivi .f0 .f1 0x4010000000000000) := by
  decide +kernel

theorem test_decode_bits :
    decode 0x00000000000000000000000000021030 = .ok (.and .r0 .r1 .r2) ∧
    decode 0x00000000000000000000000000021031 = .ok (.or .r0 .r1 .r2) ∧
    decode 0x00000000000000000000000000021032 = .ok (.xor .r0 .r1 .r2) ∧
    decode 0x00000000000000000000000000001033 = .ok (.not .r0 .r1) ∧
    decode 0x00000000000000000000000000001034 = .ok (.neg .r0 .r1) ∧
    decode 0x00000000000000000000000000009835 = .ok (.fneg .f0 .f1) ∧
    decode 0x00000000000000000000000000001036 = .ok (.shl .r0 .r1) ∧
    decode 0x00000000000000000000000000001037 = .ok (.shr .r0 .r1) := by
  decide +kernel

theorem test_decode_access :
    decode 0x00000000000000000000000000001040 = .ok (.ldh .r0 .r1) ∧
    decode 0x00000000000000000000000000001841 = .ok (.ldhf .f0 .r1) ∧
    decode 0x00000000000000000000000000001042 = .ok (.sth .r0 .r1) ∧
    decode 0x00000000000000000000000000001843 = .ok (.sthf .f0 .r1) ∧
    decode 0x00000000000000000000000000001044 = .ok (.lds .r0 .r1) ∧
    decode 0x00000000000000000000000000001845 = .ok (.ldsf .f0 .r1) ∧
    decode 0x00000000000000000000000000001046 = .ok (.sts .r0 .r1) ∧
    decode 0x00000000000000000000000000001847 = .ok (.stsf .f0 .r1) := by
  decide +kernel

theorem test_decode_jumps :
    decode 0x00000000000000000000000000000550 = .ok (.jmp .r5) ∧
    decode 0x00000000000000000000000000000351 = .ok (.jo .r3) ∧
    decode 0x00000000000000000000000000000352 = .ok (.jno .r3) ∧
    decode 0x00000000000000000000000000010653 = .ok (.jeq .r6 .r0 .r1) ∧
    decode 0x00000000000000000000000000010654 = .ok (.jne .r6 .r0 .r1) ∧
    decode 0x00000000000000000000000000000655 = .ok (.jz .r6 .r0) ∧
    decode 0x00000000000000000000000000002656 = .ok (.jnz .r6 .r2) := by
  decide +kernel

theorem test_decode_stack :
    decode 0x00000000000000000000000000000060 = .ok (.push .r0) ∧
    decode 0x00000000000000000000000000000861 = .ok (.pushf .f0) ∧
    decode 0x00000000000000000000000000000462 = .ok (.pop .r4) ∧
    decode 0x00000000000000000000000000000B63 = .ok (.popf .f3) := by
  decide +kernel

theorem test_decode_call :
    decode 0x00000000000000000000000000000170 = .ok (.call .r1) ∧
    decode 0x00000000000000000000000000000071 = .ok (.ret) := by
  decide +kernel

theorem test_decode_system :
    decode 0x00000000000000000000000000000072 = .ok (.syscall .r0) ∧
    decode 0xFFFFFFFFFFFFFFFFFFFFFFFFFFFFFF7E = .ok (.inp) ∧
    decode 0x000000000000007B0000000000000F7F = .ok (.out) := by
  decide +kernel

/-- The worked example's bytes (V193) and V194. -/
theorem test_bytes :
    wordToBytes 0x00000000000000000000000000021110 =
      [0x10, 0x11, 0x02, 0, 0, 0, 0, 0, 0, 0, 0, 0, 0, 0, 0, 0] ∧
    (Tagged.int 0x0102).toBytes = [0x02, 0x01, 0, 0, 0, 0, 0, 0] ∧
    (Tagged.flt 0x3FF0000000000000).toBytes = [0, 0, 0, 0, 0, 0, 0xF0, 0x3F] := by decide +kernel

/-- R314's examples, and a label. -/
theorem test_assemble :
    assemble "ADD r1, r1, r2".toList = some [0x00000000000000000000000000021110] ∧
    assemble "top: LDI R0, top ; go\nJMP r0".toList =
      some [0x00000000000000000000000000000008, 0x00000000000000000000000000000050] := by
  decide +kernel

/-- R314: a decimal float literal, and registers of the bank the text names (V179). -/
theorem test_assemble_float :
    assemble "LDF f1, 2.5".toList = some [0x40040000000000000000000000000909] ∧
    assemble "ADD r0, r1, f2".toList = some [0x000000000000000000000000000A1010] := by decide +kernel

/-! ### One step -/

/-- A run in progress at index `k` of a code segment that holds NOPs and then the word. -/
def start (k : Nat) (w : InstrWord) : State :=
  { State.reset with
    code := List.replicate k 0 ++ [w], pc := BitVec.ofNat 64 k, runState := .running }

/-- The whole next state is `t`. -/
def goesTo (s t : State) : Bool :=
  match step s with
  | .next u => decide (u = t)
  | _ => false

/-- The syscall table of vectors V159-V164. -/
def vectorTable : List SyscallEntry :=
  [.fixed ⟨[.setX .r2 0, .setX .r3 2], .ok⟩, .fixed ⟨[], .fault .invalidSysCallArg⟩,
    .fixed ⟨[.setPc 50], .halt⟩]

/-- V2: `NOP` (R409). -/
theorem test_V2_nop :
    let s := ({ start 9 0x00000000000000000000000000000000 with ovf := true } : State).setX .r0 5
    goesTo s ({ s with pc := 10 } : State) = true := by
  decide +kernel

/-- V3: `HALT` (R410). -/
theorem test_V3_halt :
    let s := start 4 0x00000000000000000000000000000001
    goesTo s ({ s with pc := 5, runState := .halted } : State) = true := by
  decide +kernel

/-- V4: `LDI r3, 3735928559` (R420). -/
theorem test_V4_ldi :
    let s := start 0 0x00000000DEADBEEF0000000000000308
    goesTo s (({ s with pc := 1 } : State).setX .r3 3735928559) = true := by
  decide +kernel

/-- V8: `LDF f0, 0x7FF0000000000001` (R421). -/
theorem test_V8_ldf :
    let s := start 0 0x7FF00000000000010000000000000809
    goesTo s (({ s with pc := 1 } : State).setF .f0 0x7FF0000000000001) = true := by
  decide +kernel

/-- V9: `MOV r0, r1` (R422). -/
theorem test_V9_mov :
    let s := (start 0 0x0000000000000000000000000000100A).setX .r1 42
    goesTo s (({ s with pc := 1 } : State).setX .r0 42) = true := by
  decide +kernel

/-- V12: `MOVF f1, f2` (R423). -/
theorem test_V12_movf :
    let s := (start 0 0x0000000000000000000000000000A90B).setF .f2 0x7FF8000000000123
    goesTo s (({ s with pc := 1 } : State).setF .f1 0x7FF8000000000123) = true := by
  decide +kernel

/-- V16: `ADD r0, r1, r2` (R441). -/
theorem test_V16_add :
    let s := (((start 0 0x00000000000000000000000000021010).setX .r0 9).setX .r1 0xFFFFFFFFFFFFFFFF).setX .r2 1
    goesTo s ({ s with pc := 1, ovf := true } : State) = true := by
  decide +kernel

/-- V19: `ADD r1, r1, r1` (R441). -/
theorem test_V19_add :
    let s := (start 0 0x00000000000000000000000000011110).setX .r1 0x7FFFFFFFFFFFFFFF
    goesTo s (({ s with pc := 1 } : State).setX .r1 0xFFFFFFFFFFFFFFFE) = true := by
  decide +kernel

/-- V20: `SUB r0, r1, r2` (R442). -/
theorem test_V20_sub :
    let s := ((start 0 0x00000000000000000000000000021011).setX .r1 5).setX .r2 3
    goesTo s (({ s with pc := 1 } : State).setX .r0 2) = true := by
  decide +kernel

/-- V21: `SUB r0, r1, r2` (R442). -/
theorem test_V21_sub :
    let s := (((start 0 0x00000000000000000000000000021011).setX .r0 9).setX .r1 3).setX .r2 5
    goesTo s ({ s with pc := 1, ovf := true } : State) = true := by
  decide +kernel

/-- V23: `MUL r0, r1, r2` (R443). -/
theorem test_V23_mul :
    let s := ((start 0 0x00000000000000000000000000021012).setX .r1 0x100000000).setX .r2 2147483648
    goesTo s (({ s with pc := 1 } : State).setX .r0 0x8000000000000000) = true := by
  decide +kernel

/-- V24: `MUL r0, r1, r2` (R443). -/
theorem test_V24_mul :
    let s := (((start 0 0x00000000000000000000000000021012).setX .r0 9).setX .r1 0x100000000).setX .r2 0x100000000
    goesTo s ({ s with pc := 1, ovf := true } : State) = true := by
  decide +kernel

/-- V26: `ADDI r0, r1, 0xFFFFFFFFFFFFFFFF` (R444). -/
theorem test_V26_addi :
    let s := (start 0 0xFFFFFFFFFFFFFFFF0000000000001013).setX .r1 0
    goesTo s (({ s with pc := 1 } : State).setX .r0 0xFFFFFFFFFFFFFFFF) = true := by
  decide +kernel

/-- V27: `ADDI r0, r1, 0xFFFFFFFFFFFFFFFF` (R444). -/
theorem test_V27_addi :
    let s := ((start 0 0xFFFFFFFFFFFFFFFF0000000000001013).setX .r0 9).setX .r1 1
    goesTo s ({ s with pc := 1, ovf := true } : State) = true := by
  decide +kernel

/-- V28: `SUBI r0, r1, 1` (R445). -/
theorem test_V28_subi :
    let s := ((start 0 0x00000000000000010000000000001014).setX .r0 9).setX .r1 0
    goesTo s ({ s with pc := 1, ovf := true } : State) = true := by
  decide +kernel

/-- V29: `SUBI r1, r1, 1` (R445). -/
theorem test_V29_subi :
    let s := (start 0 0x00000000000000010000000000001114).setX .r1 1
    goesTo s (({ s with pc := 1 } : State).setX .r1 0) = true := by
  decide +kernel

/-- V30: `MULI r0, r1, 3` (R446). -/
theorem test_V30_muli :
    let s := (start 0 0x00000000000000030000000000001015).setX .r1 0x5555555555555555
    goesTo s (({ s with pc := 1 } : State).setX .r0 0xFFFFFFFFFFFFFFFF) = true := by
  decide +kernel

/-- V31: `MULI r0, r1, 3` (R446). -/
theorem test_V31_muli :
    let s := ((start 0 0x00000000000000030000000000001015).setX .r0 9).setX .r1 0x5555555555555556
    goesTo s ({ s with pc := 1, ovf := true } : State) = true := by
  decide +kernel

/-- V35: `DIV r0, r1, r2` (R447). -/
theorem test_V35_div :
    let s := (((start 0 0x00000000000000000000000000021016).setX .r0 9).setX .r1 0x8000000000000000).setX .r2 0xFFFFFFFFFFFFFFFF
    goesTo s (({ s with pc := 1 } : State).setX .r0 0) = true := by
  decide +kernel

/-- V36: `DIV r0, r1, r2` (R447). -/
theorem test_V36_div :
    let s := ((({ start 0 0x00000000000000000000000000021016 with ovf := true } : State).setX .r0 9).setX .r1 7).setX .r2 0
    goesTo s ({ s with pc := 1, runState := .faulted, cause := 3 } : State) = true := by
  decide +kernel

/-- V39: `MOD r0, r1, r2` (R448). -/
theorem test_V39_mod :
    let s := ((start 0 0x00000000000000000000000000021017).setX .r1 2).setX .r2 7
    goesTo s (({ s with pc := 1 } : State).setX .r0 2) = true := by
  decide +kernel

/-- V41: `MOD r0, r1, r2` (R448). -/
theorem test_V41_mod :
    let s := ((start 0 0x00000000000000000000000000021017).setX .r1 0xFFFFFFFFFFFFFFFF).setX .r2 0x8000000000000000
    goesTo s (({ s with pc := 1 } : State).setX .r0 0x7FFFFFFFFFFFFFFF) = true := by
  decide +kernel

/-- V44: `FADD f0, f1, f2` (R461). -/
theorem test_V44_fadd :
    let s := ((start 0 0x000000000000000000000000000A9820).setF .f1 0x3FB999999999999A).setF .f2 0x3FC999999999999A
    goesTo s (({ s with pc := 1 } : State).setF .f0 0x3FD3333333333334) = true := by
  decide +kernel

/-- V46: `FADD f0, f1, f2` (R461). -/
theorem test_V46_fadd :
    let s := (((start 0 0x000000000000000000000000000A9820).setF .f0 0x4022000000000000).setF .f1 0x8000000000000000).setF .f2 0x0000000000000000
    goesTo s (({ s with pc := 1 } : State).setF .f0 0x0000000000000000) = true := by
  decide +kernel

/-- V50: `FSUB f0, f1, f2` (R462). -/
theorem test_V50_fsub :
    let s := ((start 0 0x000000000000000000000000000A9821).setF .f1 0x3FB999999999999A).setF .f2 0x3FD3333333333333
    goesTo s (({ s with pc := 1 } : State).setF .f0 0xBFC9999999999999) = true := by
  decide +kernel

/-- V51: `FMUL f0, f1, f2` (R463). -/
theorem test_V51_fmul :
    let s := ((start 0 0x000000000000000000000000000A9822).setF .f1 0x6974E718D7D7625A).setF .f2 0x6974E718D7D7625A
    goesTo s (({ s with pc := 1 } : State).setF .f0 0x7FF0000000000000) = true := by
  decide +kernel

/-- V53: `FMUL f0, f1, f2` (R463). -/
theorem test_V53_fmul :
    let s := ((start 0 0x000000000000000000000000000A9822).setF .f1 0x0000000000000003).setF .f2 0x3FE0000000000000
    goesTo s (({ s with pc := 1 } : State).setF .f0 0x0000000000000002) = true := by
  decide +kernel

/-- V59: `FDIV f0, f1, f2` (R464). -/
theorem test_V59_fdiv :
    let s := ((start 0 0x000000000000000000000000000A9823).setF .f1 0x0010000000000000).setF .f2 0x4000000000000000
    goesTo s (({ s with pc := 1 } : State).setF .f0 0x0008000000000000) = true := by
  decide +kernel

/-- V60: `FADDI f0, f1, 0.5` (R465). -/
theorem test_V60_faddi :
    let s := (start 0 0x3FE00000000000000000000000009824).setF .f1 0x3FF0000000000000
    goesTo s (({ s with pc := 1 } : State).setF .f0 0x3FF8000000000000) = true := by
  decide +kernel

/-- V61: `FSUBI f0, f1, 0.5` (R466). -/
theorem test_V61_fsubi :
    let s := (start 0 0x3FE00000000000000000000000009825).setF .f1 0x3FF0000000000000
    goesTo s (({ s with pc := 1 } : State).setF .f0 0x3FE0000000000000) = true := by
  decide +kernel

/-- V62: `FMULI f0, f1, -2.0` (R467). -/
theorem test_V62_fmuli :
    let s := (start 0 0xC0000000000000000000000000009826).setF .f1 0x3FF8000000000000
    goesTo s (({ s with pc := 1 } : State).setF .f0 0xC008000000000000) = true := by
  decide +kernel

/-- V64: `FDIVI f0, f1, 0.0` (R468). -/
theorem test_V64_fdivi :
    let s := (start 0 0x00000000000000000000000000009827).setF .f1 0xC008000000000000
    goesTo s (({ s with pc := 1 } : State).setF .f0 0xFFF0000000000000) = true := by
  decide +kernel

/-- V65: `FDIVI f1, f1, 3.0` (R468). -/
theorem test_V65_fdivi :
    let s := (start 0 0x40080000000000000000000000009927).setF .f1 0x3FF0000000000000
    goesTo s (({ s with pc := 1 } : State).setF .f1 0x3FD5555555555555) = true := by
  decide +kernel

/-- V66: `AND r0, r1, r2` (R480). -/
theorem test_V66_and :
    let s := ((start 0 0x00000000000000000000000000021030).setX .r1 61680).setX .r2 65280
    goesTo s (({ s with pc := 1 } : State).setX .r0 61440) = true := by
  decide +kernel

/-- V67: `OR r0, r1, r2` (R481). -/
theorem test_V67_or :
    let s := ((start 0 0x00000000000000000000000000021031).setX .r1 61680).setX .r2 65280
    goesTo s (({ s with pc := 1 } : State).setX .r0 65520) = true := by
  decide +kernel

/-- V68: `XOR r0, r1, r2` (R482). -/
theorem test_V68_xor :
    let s := ((start 0 0x00000000000000000000000000021032).setX .r1 61680).setX .r2 65280
    goesTo s (({ s with pc := 1 } : State).setX .r0 4080) = true := by
  decide +kernel

/-- V71: `NOT r0, r1` (R483). -/
theorem test_V71_not :
    let s := (start 0 0x00000000000000000000000000001033).setX .r1 0xFF00FF00FF00FF
    goesTo s (({ s with pc := 1 } : State).setX .r0 0xFF00FF00FF00FF00) = true := by
  decide +kernel

/-- V74: `NEG r0, r1` (R484). -/
theorem test_V74_neg :
    let s := (start 0 0x00000000000000000000000000001034).setX .r1 0xFFFFFFFFFFFFFFFF
    goesTo s (({ s with pc := 1 } : State).setX .r0 1) = true := by
  decide +kernel

/-- V75: `NEG r0, r1` (R484). -/
theorem test_V75_neg :
    let s := ((start 0 0x00000000000000000000000000001034).setX .r0 9).setX .r1 0x8000000000000000
    goesTo s ({ s with pc := 1, ovf := true } : State) = true := by
  decide +kernel

/-- V77: `FNEG f0, f1` (R485). -/
theorem test_V77_fneg :
    let s := (start 0 0x00000000000000000000000000009835).setF .f1 0x3FF8000000000000
    goesTo s (({ s with pc := 1 } : State).setF .f0 0xBFF8000000000000) = true := by
  decide +kernel

/-- V79: `FNEG f0, f1` (R485). -/
theorem test_V79_fneg :
    let s := (start 0 0x00000000000000000000000000009835).setF .f1 0x7FF8000000000000
    goesTo s (({ s with pc := 1 } : State).setF .f0 0xFFF8000000000000) = true := by
  decide +kernel

/-- V81: `SHL r0, r1` (R486). -/
theorem test_V81_shl :
    let s := (start 0 0x00000000000000000000000000001036).setX .r1 0x4000000000000001
    goesTo s (({ s with pc := 1 } : State).setX .r0 0x8000000000000002) = true := by
  decide +kernel

/-- V82: `SHL r0, r1` (R486). -/
theorem test_V82_shl :
    let s := ((start 0 0x00000000000000000000000000001036).setX .r0 9).setX .r1 0x8000000000000000
    goesTo s ({ s with pc := 1, ovf := true } : State) = true := by
  decide +kernel

/-- V85: `SHR r0, r1` (R487). -/
theorem test_V85_shr :
    let s := ((start 0 0x00000000000000000000000000001037).setX .r0 9).setX .r1 7
    goesTo s ({ s with pc := 1, ovf := true } : State) = true := by
  decide +kernel

/-- V86: `SHR r0, r1` (R487). -/
theorem test_V86_shr :
    let s := (start 0 0x00000000000000000000000000001037).setX .r1 0x8000000000000000
    goesTo s (({ s with pc := 1 } : State).setX .r0 0x4000000000000000) = true := by
  decide +kernel

/-- V89: `LDH r0, r1` (R500). -/
theorem test_V89_ldh :
    let s := (({ start 0 0x00000000000000000000000000001040 with heap := Heap.ofList [.scalar (.int 11)] } : State).setX .r0 9).setX .r1 3
    goesTo s (({ s with pc := 1, heap := Heap.ofList [.scalar (.int 11), .scalar (.int 0), .scalar (.int 0), .scalar (.int 0)] } : State).setX .r0 0) = true := by
  decide +kernel

/-- V90: `LDH r0, r1` (R500). -/
theorem test_V90_ldh :
    let s := (({ start 0 0x00000000000000000000000000001040 with heap := Heap.ofList [.scalar (.flt 0x3FF0000000000000)] } : State).setX .r0 9).setX .r1 0
    goesTo s ({ s with pc := 1, runState := .faulted, cause := 4 } : State) = true := by
  decide +kernel

/-- V95: `LDHF f0, r1` (R501). -/
theorem test_V95_ldhf :
    let s := (({ start 0 0x00000000000000000000000000001841 with heap := Heap.ofList [] } : State).setX .r1 2).setF .f0 0x4022000000000000
    goesTo s (({ s with pc := 1, heap := Heap.ofList [.scalar (.int 0), .scalar (.int 0), .scalar (.flt 0x0000000000000000)] } : State).setF .f0 0x0000000000000000) = true := by
  decide +kernel

/-- V96: `LDHF f0, r1` (R501). -/
theorem test_V96_ldhf :
    let s := ({ start 0 0x00000000000000000000000000001841 with heap := Heap.ofList [.fltArr [0x4004000000000000,0x400C000000000000]] } : State).setX .r1 0
    goesTo s (({ s with pc := 1 } : State).setF .f0 0x4004000000000000) = true := by
  decide +kernel

/-- V99: `STH r0, r1` (R502). -/
theorem test_V99_sth :
    let s := (({ start 0 0x00000000000000000000000000001042 with heap := Heap.ofList [] } : State).setX .r0 77).setX .r1 2
    goesTo s ({ s with pc := 1, heap := Heap.ofList [.scalar (.int 0), .scalar (.int 0), .scalar (.int 77)] } : State) = true := by
  decide +kernel

/-- V101: `STH r0, r1` (R502). -/
theorem test_V101_sth :
    let s := (({ start 0 0x00000000000000000000000000001042 with heap := Heap.ofList [.intArr [1,2]] } : State).setX .r0 77).setX .r1 0
    goesTo s ({ s with pc := 1, heap := Heap.ofList [.intArr [77,2]] } : State) = true := by
  decide +kernel

/-- V105: `STHF f0, r1` (R503). -/
theorem test_V105_sthf :
    let s := (({ start 0 0x00000000000000000000000000001843 with heap := Heap.ofList [.scalar (.int 3)] } : State).setX .r1 0).setF .f0 0x3FE0000000000000
    goesTo s ({ s with pc := 1, heap := Heap.ofList [.scalar (.flt 0x3FE0000000000000)] } : State) = true := by
  decide +kernel

/-- V106: `STHF f0, r1` (R503). -/
theorem test_V106_sthf :
    let s := (({ start 0 0x00000000000000000000000000001843 with heap := Heap.ofList [.intArr [1], .fltArr [0x0000000000000000,0x0000000000000000]] } : State).setX .r1 1).setF .f0 0x3FE0000000000000
    goesTo s ({ s with pc := 1, heap := Heap.ofList [.intArr [1], .fltArr [0x3FE0000000000000,0x0000000000000000]] } : State) = true := by
  decide +kernel

/-- V108: `LDS r0, r1` (R505). -/
theorem test_V108_lds :
    let s := ({ start 0 0x00000000000000000000000000001044 with bp := 1, stack := [.int 10, .int 20, .int 30] } : State).setX .r1 1
    goesTo s (({ s with pc := 1 } : State).setX .r0 30) = true := by
  decide +kernel

/-- V112: `LDS r0, r1` (R505). -/
theorem test_V112_lds :
    let s := (({ start 0 0x00000000000000000000000000001044 with bp := 2, stack := [.int 1, .int 2, .int 3] } : State).setX .r0 9).setX .r1 0xFFFFFFFFFFFFFFFF
    goesTo s ({ s with pc := 1, runState := .faulted, cause := 2 } : State) = true := by
  decide +kernel

/-- V114: `LDSF f0, r1` (R506). -/
theorem test_V114_ldsf :
    let s := ({ start 0 0x00000000000000000000000000001845 with stack := [.flt 0x3FF4000000000000] } : State).setX .r1 0
    goesTo s (({ s with pc := 1 } : State).setF .f0 0x3FF4000000000000) = true := by
  decide +kernel

/-- V115: `LDSF f0, r1` (R506). -/
theorem test_V115_ldsf :
    let s := ({ start 0 0x00000000000000000000000000001845 with stack := [.int 5] } : State).setX .r1 0
    goesTo s ({ s with pc := 1, runState := .faulted, cause := 4 } : State) = true := by
  decide +kernel

/-- V116: `STS r0, r1` (R507). -/
theorem test_V116_sts :
    let s := (({ start 0 0x00000000000000000000000000001046 with stack := [.int 1, .flt 0x4000000000000000] } : State).setX .r0 5).setX .r1 1
    goesTo s ({ s with pc := 1, stack := [.int 1, .int 5] } : State) = true := by
  decide +kernel

/-- V117: `STS r0, r1` (R507). -/
theorem test_V117_sts :
    let s := (({ start 0 0x00000000000000000000000000001046 with stack := [.int 1, .flt 0x4000000000000000] } : State).setX .r0 5).setX .r1 2
    goesTo s ({ s with pc := 1, runState := .faulted, cause := 2 } : State) = true := by
  decide +kernel

/-- V118: `STSF f0, r1` (R508). -/
theorem test_V118_stsf :
    let s := (({ start 0 0x00000000000000000000000000001847 with stack := [.int 1] } : State).setX .r1 0).setF .f0 0xBFF0000000000000
    goesTo s ({ s with pc := 1, stack := [.flt 0xBFF0000000000000] } : State) = true := by
  decide +kernel

/-- V119: `STSF f0, r1` (R508). -/
theorem test_V119_stsf :
    let s := (({ start 0 0x00000000000000000000000000001847 with stack := [] } : State).setX .r1 0).setF .f0 0xBFF0000000000000
    goesTo s ({ s with pc := 1, runState := .faulted, cause := 2 } : State) = true := by
  decide +kernel

/-- V121: `JMP r1` (R520). -/
theorem test_V121_jmp :
    let s := (start 3 0x00000000000000000000000000000150).setX .r1 0xFFFFFFFFFFFFFFFF
    goesTo s ({ s with pc := 0xFFFFFFFFFFFFFFFF } : State) = true := by
  decide +kernel

/-- V122: `JO r1` (R521). -/
theorem test_V122_jo :
    let s := ({ start 3 0x00000000000000000000000000000151 with ovf := true } : State).setX .r1 40
    goesTo s ({ s with pc := 40 } : State) = true := by
  decide +kernel

/-- V123: `JO r1` (R521). -/
theorem test_V123_jo :
    let s := (start 3 0x00000000000000000000000000000151).setX .r1 40
    goesTo s ({ s with pc := 4 } : State) = true := by
  decide +kernel

/-- V124: `JNO r1` (R522). -/
theorem test_V124_jno :
    let s := (start 3 0x00000000000000000000000000000152).setX .r1 40
    goesTo s ({ s with pc := 40 } : State) = true := by
  decide +kernel

/-- V125: `JNO r1` (R522). -/
theorem test_V125_jno :
    let s := ({ start 3 0x00000000000000000000000000000152 with ovf := true } : State).setX .r1 40
    goesTo s ({ s with pc := 4 } : State) = true := by
  decide +kernel

/-- V126: `JEQ r1, r2, r3` (R523). -/
theorem test_V126_jeq :
    let s := (((start 3 0x00000000000000000000000000032153).setX .r1 40).setX .r2 7).setX .r3 7
    goesTo s ({ s with pc := 40 } : State) = true := by
  decide +kernel

/-- V127: `JEQ r1, r2, r3` (R523). -/
theorem test_V127_jeq :
    let s := (((start 3 0x00000000000000000000000000032153).setX .r1 40).setX .r2 7).setX .r3 8
    goesTo s ({ s with pc := 4 } : State) = true := by
  decide +kernel

/-- V129: `JNE r1, r2, r3` (R524). -/
theorem test_V129_jne :
    let s := (((start 3 0x00000000000000000000000000032154).setX .r1 40).setX .r2 7).setX .r3 8
    goesTo s ({ s with pc := 40 } : State) = true := by
  decide +kernel

/-- V130: `JNE r1, r2, r3` (R524). -/
theorem test_V130_jne :
    let s := (((start 3 0x00000000000000000000000000032154).setX .r1 40).setX .r2 7).setX .r3 7
    goesTo s ({ s with pc := 4 } : State) = true := by
  decide +kernel

/-- V131: `JZ r1, r2` (R525). -/
theorem test_V131_jz :
    let s := ((start 3 0x00000000000000000000000000002155).setX .r1 40).setX .r2 0
    goesTo s ({ s with pc := 40 } : State) = true := by
  decide +kernel

/-- V132: `JZ r1, r2` (R525). -/
theorem test_V132_jz :
    let s := ((start 3 0x00000000000000000000000000002155).setX .r1 40).setX .r2 1
    goesTo s ({ s with pc := 4 } : State) = true := by
  decide +kernel

/-- V134: `JNZ r1, r2` (R526). -/
theorem test_V134_jnz :
    let s := ((start 3 0x00000000000000000000000000002156).setX .r1 40).setX .r2 1
    goesTo s ({ s with pc := 40 } : State) = true := by
  decide +kernel

/-- V135: `JNZ r1, r2` (R526). -/
theorem test_V135_jnz :
    let s := ((start 3 0x00000000000000000000000000002156).setX .r1 40).setX .r2 0
    goesTo s ({ s with pc := 4 } : State) = true := by
  decide +kernel

/-- V138: `PUSH r1` (R540). -/
theorem test_V138_push :
    let s := ({ start 0 0x00000000000000000000000000000160 with stack := [] } : State).setX .r1 5
    goesTo s ({ s with pc := 1, stack := [.int 5] } : State) = true := by
  decide +kernel

/-- V139: `PUSH r1` (R540). -/
theorem test_V139_push :
    let s := ({ start 0 0x00000000000000000000000000000160 with stack := [.int 0], params := { Params.default with stackCap := some 1 } } : State).setX .r1 5
    goesTo s ({ s with pc := 1, runState := .faulted, cause := 11 } : State) = true := by
  decide +kernel

/-- V140: `PUSHF f1` (R541). -/
theorem test_V140_pushf :
    let s := ({ start 0 0x00000000000000000000000000000961 with stack := [.int 1] } : State).setF .f1 0x4000000000000000
    goesTo s ({ s with pc := 1, stack := [.int 1, .flt 0x4000000000000000] } : State) = true := by
  decide +kernel

/-- V141: `POP r1` (R542). -/
theorem test_V141_pop :
    let s := ({ start 0 0x00000000000000000000000000000162 with stack := [.int 1, .int 2] } : State)
    goesTo s (({ s with pc := 1, stack := [.int 1] } : State).setX .r1 2) = true := by
  decide +kernel

/-- V143: `POP r1` (R542). -/
theorem test_V143_pop :
    let s := ({ start 0 0x00000000000000000000000000000162 with stack := [.int 1, .flt 0x4000000000000000] } : State).setX .r1 9
    goesTo s ({ s with pc := 1, stack := [.int 1], runState := .faulted, cause := 4 } : State) = true := by
  decide +kernel

/-- V145: `POPF f1` (R543). -/
theorem test_V145_popf :
    let s := ({ start 0 0x00000000000000000000000000000963 with stack := [.flt 0x4000000000000000] } : State)
    goesTo s (({ s with pc := 1, stack := [] } : State).setF .f1 0x4000000000000000) = true := by
  decide +kernel

/-- V146: `POPF f1` (R543). -/
theorem test_V146_popf :
    let s := ({ start 0 0x00000000000000000000000000000963 with stack := [.int 3] } : State)
    goesTo s ({ s with pc := 1, stack := [], runState := .faulted, cause := 4 } : State) = true := by
  decide +kernel

/-- V149: `CALL r1` (R560). -/
theorem test_V149_call :
    let s := ({ start 7 0x00000000000000000000000000000170 with bp := 2, stack := [.int 0, .int 3, .int 9] } : State).setX .r1 100
    goesTo s ({ s with pc := 100, bp := 4, stack := [.int 0, .int 3, .int 9, .int 2, .int 8] } : State) = true := by
  decide +kernel

/-- V150: `CALL r1` (R560). -/
theorem test_V150_call :
    let s := ({ start 7 0x00000000000000000000000000000170 with stack := [.int 0], params := { Params.default with stackCap := some 2 } } : State).setX .r1 100
    goesTo s ({ s with pc := 8, runState := .faulted, cause := 11 } : State) = true := by
  decide +kernel

/-- V153: `RET` (R561). -/
theorem test_V153_ret :
    let s := ({ start 100 0x00000000000000000000000000000071 with bp := 4, stack := [.int 0, .int 3, .int 9, .int 2, .int 8] } : State)
    goesTo s ({ s with pc := 8, bp := 2, stack := [.int 0, .int 3, .int 9] } : State) = true := by
  decide +kernel

/-- V156: `RET` (R561). -/
theorem test_V156_ret :
    let s := ({ start 100 0x00000000000000000000000000000071 with bp := 1, stack := [.flt 0x0000000000000000, .int 8] } : State)
    goesTo s ({ s with pc := 8, stack := [], runState := .faulted, cause := 4 } : State) = true := by
  decide +kernel

/-- V159: `SYSCALL r0` (R580). -/
theorem test_V159_syscall :
    let s := ({ start 0 0x00000000000000000000000000000072 with params := { Params.default with syscalls := vectorTable } } : State).setX .r0 0
    goesTo s (({ s with pc := 1, sysCalls := 1 } : State).setX .r3 2) = true := by
  decide +kernel

/-- V161: `SYSCALL r0` (R583). -/
theorem test_V161_syscall :
    let s := ({ start 0 0x00000000000000000000000000000072 with params := { Params.default with syscalls := vectorTable } } : State).setX .r0 2
    goesTo s ({ s with pc := 50, runState := .halted, sysCalls := 1 } : State) = true := by
  decide +kernel

/-- V166: a raw word (R584). -/
theorem test_V166_in :
    let s := start 0 0xFFFFFFFFFFFFFFFFFFFFFFFFFFFFFF7E
    goesTo s ({ s with pc := 1, runState := .faulted, cause := 9 } : State) = true := by
  decide +kernel

/-- V168: a raw word (R585). -/
theorem test_V168_out :
    let s := start 0 0x000000000000007B0000000000000F7F
    goesTo s ({ s with pc := 1, runState := .faulted, cause := 9 } : State) = true := by
  decide +kernel

/-- V58: `0.0 / 0.0` writes the pattern that the host chose at construction. -/
theorem test_V58_fdiv_nan :
    let s := State.construct { Params.default with nanResult := .pattern ⟨true, 4⟩ }
    (match exec (.fdiv .f0 .f1 .f2) s with
     | .next t => decide (t = s.setF .f0 0xFFF0000000000005)
     | _ => false) = true := by
  decide +kernel

/-- V184: a run on an empty code segment faults InvalidCodeAddr at pc 0. -/
theorem test_V184_empty_code :
    let s := { State.reset with runState := .running }
    goesTo s { s with runState := .faulted, cause := 1 } = true := by decide +kernel

/-- V186: a hook that answers Stop at its first call. -/
theorem test_V186_hook_stop :
    let s := { start 0 0 with params := { Params.default with hook := some (.stepLimit 0) } }
    goesTo s { s with runState := .stopped, hookCalls := 1 } = true := by decide +kernel

/-- V188: the CPU reset of a faulted state keeps the segments. -/
theorem test_V188_cpuReset :
    let s := { start 3 1 with runState := .faulted, cause := 3, ovf := true, stack := [.int 4] }
    cpuReset s = { State.reset with code := s.code, stack := s.stack } := by decide +kernel

/-- The host's status word of a faulted state (V184). -/
theorem test_statusWord :
    State.statusWord { State.reset with runState := .faulted, cause := 1 } = 0x0103 := by decide

/-- The table's numbering: the host's own entry points on one word. -/
theorem test_withFetchWord :
    decodeTableWord 128 0x00000000000000050000000000000108 = some (.ldi .r1 5) ∧
    goesTo (State.reset.withFetchWord 128 0x00000000000000050000000000000108)
      (State.setX { State.reset.withFetchWord 128 0x00000000000000050000000000000108 with
        pc := 1 } .r1 5) = true := by decide +kernel

/-! ### Witnesses: states and operands that meet the hypotheses of the statements -/

/-- A running state in which register `Ri` holds `i`: as a heap address `Ri` reaches each kind of cell, `R6`
is the first miss (which the capacity still admits) and `R7` the first that it does not; as a stack offset
`R0` and `R2` reach integers, `R1` a float and `R3` is the first out of range. The code is the word `w` at
index 0. -/
def rich (w : InstrWord) : State :=
  { State.reset with
    x := ⟨0, 1, 2, 3, 4, 5, 6, 7⟩
    f := ⟨0, 0x3FF0000000000000, 0x7FF0000000000000, 0x7FF8000000000000, 0, 0, 0, 0⟩
    runState := .running
    code := [w]
    heap := Heap.ofList [.scalar (.int 11), .scalar (.flt 5), .intArr [4, 5], .intArr [], .fltArr [6],
      .fltArr []]
    stack := [.int 10, .flt 5, .int 7]
    params := { Params.default with stackCap := some 5, heapCap := some 7, syscalls := vectorTable } }

/-- The same with a hook that answers Continue at this call. -/
def hooked (w : InstrWord) : State :=
  { rich w with params := { (rich w).params with hook := some (.stepLimit 1) } }

theorem witness_PassesHook :
    PassesHook (rich 0) (rich 0) ∧ PassesHook (hooked 0) { hooked 0 with hookCalls := 1 } :=
  ⟨.inl ⟨rfl, rfl⟩, .inr ⟨.stepLimit 1, rfl, by decide, rfl⟩⟩

theorem witness_LegalWordIsUnique :
    decode 0x021010 = .ok (.add .r0 .r1 .r2) ∧ Instr.add .r0 .r1 .r2 ≠ .inp ∧
    Instr.add .r0 .r1 .r2 ≠ .out := by decide +kernel

theorem witness_DecoderFollowsTheTable :
    (∃ i, decode 0x021010 = .ok i) ∧ decode 0x02 = .illegalInstruction ∧
    decode 0x1041 = .invalidReg := ⟨⟨.add .r0 .r1 .r2, by decide +kernel⟩, by decide +kernel⟩

theorem witness_OpcodeRowsAreDisjoint :
    (opcodeTable.filter fun r => r.shapeOk 0x021010).length = 1 := by decide +kernel

theorem witness_StepRunsTheDecodedInstruction :
    (rich 0x021010).runState = .running ∧ PassesHook (rich 0x021010) (rich 0x021010) ∧
    (rich 0x021010).code[(rich 0x021010).pc.toNat]? = some 0x021010 ∧
    decode 0x021010 = .ok (.add .r0 .r1 .r2) :=
  ⟨rfl, .inl ⟨rfl, rfl⟩, by decide, by decide +kernel⟩

theorem witness_UndecodableWordFaultsPastIt :
    (rich 0x02).runState = .running ∧ PassesHook (hooked 0x02) { hooked 0x02 with hookCalls := 1 } ∧
    (rich 0x02).code[(rich 0x02).pc.toNat]? = some 0x02 ∧ decode 0x02 = .illegalInstruction ∧
    (rich 0x1041).code[(rich 0x1041).pc.toNat]? = some 0x1041 ∧ decode 0x1041 = .invalidReg :=
  ⟨rfl, .inr ⟨.stepLimit 1, rfl, by decide, rfl⟩, by decide, by decide +kernel, by decide,
    by decide +kernel⟩

/-- The boundary opcodes of every unassigned range, and their neighbours that are assigned. -/
theorem witness_UnassignedOpcodeIsIllegal :
    (∀ n ∈ [0x02, 0x07, 0x0C, 0x0F, 0x18, 0x1F, 0x28, 0x2F, 0x38, 0x3F, 0x48, 0x4F, 0x57, 0x5F, 0x64,
      0x6F, 0x73, 0x7D, 0x80, 0xFF], unassignedOpcode n) ∧
    (∀ n ∈ [0x01, 0x08, 0x0B, 0x10, 0x17, 0x20, 0x27, 0x30, 0x37, 0x40, 0x47, 0x50, 0x56, 0x60, 0x63,
      0x70, 0x72, 0x7E, 0x7F], ¬unassignedOpcode n) ∧
    (rich 0xFF).runState = .running ∧ PassesHook (rich 0xFF) (rich 0xFF) ∧
    (rich 0xFF).code[(rich 0xFF).pc.toNat]? = some 0xFF ∧
    unassignedOpcode ((0xFF : InstrWord).extractLsb' 0 8).toNat :=
  ⟨by decide, by decide, rfl, .inl ⟨rfl, rfl⟩, by decide, by decide⟩

/-- The first index out of range. -/
theorem witness_FetchOutOfRangeKeepsPc :
    let s := { rich 0 with pc := 1 }
    s.runState = .running ∧ PassesHook s s ∧ s.code.length ≤ s.pc.toNat :=
  ⟨rfl, .inl ⟨rfl, rfl⟩, by decide⟩

theorem witness_HookStopEndsTheRun :
    let s := { hooked 0 with hookCalls := 1 }
    s.runState = .running ∧ s.params.hook = some (.stepLimit 1) ∧
    hookAnswer (.stepLimit 1) s = some .stop := ⟨rfl, rfl, by decide⟩

/-- A jump not taken, and a SYSCALL whose function writes no pc. -/
theorem witness_PcAdvancesByOne :
    let s := rich 0x0151
    let t := { s with pc := 1 }
    s.codeFits ∧ s.runState = .running ∧ PassesHook s s ∧
    s.code[s.pc.toNat]? = some 0x0151 ∧ decode 0x0151 = .ok (.jo .r1) ∧
    mayWritePc t (.jo .r1) = false ∧ goesTo s t = true ∧
    mayWritePc t (.syscall .r0) = false ∧ mayWritePc t (.syscall .r2) = true :=
  ⟨by decide, rfl, .inl ⟨rfl, rfl⟩, by decide, by decide +kernel, by decide, by decide +kernel,
    by decide, by decide⟩

/-- A step that grows the heap, and one that faults. -/
theorem witness_EveryStepKeepsInv :
    (rich 0x6042).Inv ∧ (∃ t, step (rich 0x6042) = .next t) ∧
    (rich 0x02).Inv ∧ ∃ t, step (rich 0x02) = .next t :=
  ⟨⟨by decide, by decide, by decide⟩, ⟨_, rfl⟩, ⟨by decide, by decide, by decide⟩, ⟨_, rfl⟩⟩

theorem witness_HostOperationsKeepInv :
    State.reset.Inv ∧ hostOp .run State.reset = .next (startRun State.reset) :=
  ⟨⟨by decide, by decide, by decide⟩, rfl⟩

/-- PUSH to the capacity: from four slots to five. -/
theorem witness_InstructionsKeepCapacities :
    let s := { rich 0 with stack := [.int 1, .int 2, .int 3, .int 4] }
    isSyscall (.push .r1) = false ∧ s.WithinCapacity ∧
    exec (.push .r1) s = .next { s with stack := [.int 1, .int 2, .int 3, .int 4, .int 1] } :=
  ⟨rfl, ⟨by decide, by decide⟩, rfl⟩

theorem witness_NoStepWritesCodeOrParameters : ∃ t, step (rich 0x0172) = .next t := ⟨_, rfl⟩

/-- An overflow, and a SYSCALL whose function does not write OF. -/
theorem witness_OverflowSetByItsEventsOnly :
    exec (.sub .r0 .r1 .r2) (rich 0) = .next { rich 0 with ovf := true } ∧
    isSyscall (.sub .r0 .r1 .r2) = false ∧ overflows (rich 0) (.sub .r0 .r1 .r2) ∧
    (∃ t, exec (.syscall .r0) (rich 0) = .next t) ∧
    syscallWrites SysWrite.setsOF (rich 0) .r0 = false :=
  ⟨rfl, rfl, show (rich 0).x.r1.toNat < (rich 0).x.r2.toNat by decide, ⟨_, rfl⟩, by decide⟩

theorem witness_OnlyDestinationRegisterWritten :
    isSyscall (.mov .r0 .r1) = false ∧ intDestination (.mov .r0 .r1) ≠ some .r1 ∧
    floatDestination (.mov .r0 .r1) ≠ some .f0 ∧ ∃ t, exec (.mov .r0 .r1) (rich 0) = .next t :=
  ⟨rfl, by decide, by decide, _, rfl⟩

theorem witness_BasePointerAndSegmentWriters :
    mayWriteBp (.push .r0) = false ∧ mayWriteHeap (.push .r0) = false ∧
    mayWriteStack (.sth .r0 .r1) = false ∧ (∃ t, exec (.push .r0) (rich 0) = .next t) ∧
    ∃ t, exec (.sth .r0 .r1) (rich 0) = .next t := ⟨rfl, rfl, rfl, ⟨_, rfl⟩, ⟨_, rfl⟩⟩

theorem witness_FaultsHaveNoOtherEffect :
    faultsAfterEffects (.ldh .r0 .r1) = false ∧ (rich 0).runState = .running ∧
    exec (.ldh .r0 .r1) (rich 0) = .next ((rich 0).raise .typeMismatch) ∧
    ((rich 0).raise .typeMismatch).runState = .faulted := ⟨rfl, rfl, rfl, rfl⟩

theorem witness_DivModOutcomes :
    (rich 0).getX .r1 ≠ 0 ∧ (rich 0).getX .r0 = 0 := by decide

/-- A value below the overflow threshold, and one at it. -/
theorem witness_RoundingIsNearestTiesToEven :
    roundMagnitude 5 2 < infMagnitude ∧ (7 : Nat) < infMagnitude ∧ 7 ≠ roundMagnitude 5 2 ∧
    1 * ((2 ^ 54 - 1) * 2 ^ 2044) ≤ (2 ^ 54 - 1) * 2 ^ 2044 := by
  refine ⟨by decide +kernel, by decide, by decide +kernel, ?_⟩
  omega

/-- Finite operands with a nonzero divisor; the largest finite value plus half its last place meets the bound
of infinity exactly and one place less does not; a tie. -/
theorem witness_FloatResultsAreNearest :
    let a : Word := 0x7FEFFFFFFFFFFFFF
    let b : Word := 0x7C90000000000000
    let c : Word := 0x7C8FFFFFFFFFFFFF
    floatExp a < 2047 ∧ floatExp b < 2047 ∧ floatIsZero b = false ∧
    (floatSigned a + floatSigned b).natAbs = 1 * ((2 ^ 54 - 1) * 2 ^ 2044) ∧
    floatAdd a b = some 0x7FF0000000000000 ∧
    (floatSigned a + floatSigned c).natAbs < 1 * ((2 ^ 54 - 1) * 2 ^ 2044) ∧ floatAdd a c = some a ∧
    floatSub 0x3FF0000000000001 0xBCA0000000000000 = some 0x3FF0000000000002 ∧
    floatSub 0x3FF0000000000000 0xBCA0000000000000 = some 0x3FF0000000000000 := by
  decide +kernel

/-- Operands for each clause: zeros of both signs, equal and opposite finite values, infinities. -/
theorem witness_FloatSpecialCases :
    let one : Word := 0x3FF0000000000000
    let inf : Word := 0x7FF0000000000000
    let nz : Word := 0x8000000000000000
    floatExp nz < 2047 ∧ floatExp one < 2047 ∧ floatIsZero one = false ∧ floatIsZero nz = true ∧
    floatIsZero 0 = true ∧ floatSigned nz + floatSigned nz = 0 ∧ floatSigned nz - floatSigned 0 = 0 ∧
    floatSigned one - floatSigned one = 0 ∧ floatIsInf inf = true ∧ floatIsNaN one = false ∧
    floatIsInf 0xFFF0000000000000 = true ∧ floatSign 0xFFF0000000000000 ≠ floatSign inf := by
  decide +kernel

theorem witness_DrawsAreExactlyTheNaNs :
    floatIsNaN 0xFFF8000000000000 = true ∧
    (State.construct { Params.default with nanResult := .pattern ⟨true, 4⟩ }).params.nanResult =
      .pattern ⟨true, 4⟩ ∧
    step (rich 0) = .next { rich 0 with pc := 1 } := ⟨by decide +kernel, rfl, by rfl⟩

/-- The minimum, and its two neighbours. -/
theorem witness_NegComplete :
    (State.setX (rich 0) .r1 0x8000000000000000).getX .r1 = BitVec.ofNat 64 (2 ^ 63) ∧
    (0x8000000000000000 : Word).toNat = 2 ^ 63 ∧ (0x8000000000000001 : Word).toNat ≠ 2 ^ 63 ∧
    (0x7FFFFFFFFFFFFFFF : Word).toNat ≠ 2 ^ 63 := by decide +kernel

theorem witness_ShiftsComplete :
    2 ^ 63 ≤ (0x8000000000000000 : Word).toNat ∧ (0x7FFFFFFFFFFFFFFF : Word).toNat < 2 ^ 63 ∧
    (7 : Word).toNat % 2 = 1 ∧ (6 : Word).toNat % 2 = 0 := by decide +kernel

/-- Every clause of the four heap statements: each kind of cell, the first miss, the first miss beyond
the capacity. -/
theorem witness_LdhOutcomes :
    let s := rich 0
    Memory.wf s.heap ∧ s.heap.len = 6 ∧
    s.heap.read 0 = .scalar (.int 11) ∧ s.heap.read 1 = .scalar (.flt 5) ∧
    s.heap.read 2 = .intArr [4, 5] ∧ s.heap.read 3 = .intArr [] ∧ s.heap.read 4 = .fltArr [6] ∧
    s.heap.read 5 = .fltArr [] ∧ (s.getX .r5).toNat < s.heap.len ∧
    s.heap.len ≤ (s.getX .r6).toNat ∧ fits s.params.heapCap ((s.getX .r6).toNat + 1) = true ∧
    s.heap.len ≤ (s.getX .r7).toNat ∧ fits s.params.heapCap ((s.getX .r7).toNat + 1) = false := by
  decide +kernel

theorem witness_LdhfOutcomes :
    let s := rich 0
    Memory.wf s.heap ∧ s.heap.read (s.getX .r1).toNat = .scalar (.flt 5) ∧
    s.heap.read (s.getX .r4).toNat = .fltArr [6] ∧ s.heap.read (s.getX .r0).toNat = .scalar (.int 11) ∧
    s.heap.read (s.getX .r5).toNat = .fltArr [] ∧ s.heap.read (s.getX .r2).toNat = .intArr [4, 5] ∧
    (s.getX .r5).toNat < s.heap.len ∧ s.heap.len ≤ (s.getX .r6).toNat := by decide +kernel

theorem witness_SthOutcomes :
    let s := rich 0
    Memory.wf s.heap ∧ s.heap.read (s.getX .r1).toNat = .scalar (.flt 5) ∧
    s.heap.read (s.getX .r2).toNat = .intArr [4, 5] ∧ s.heap.read (s.getX .r3).toNat = .intArr [] ∧
    s.heap.read (s.getX .r4).toNat = .fltArr [6] ∧ (s.getX .r5).toNat < s.heap.len := by decide +kernel

theorem witness_SthfOutcomes :
    let s := rich 0
    Memory.wf s.heap ∧ s.heap.read (s.getX .r0).toNat = .scalar (.int 11) ∧
    s.heap.read (s.getX .r4).toNat = .fltArr [6] ∧ s.heap.read (s.getX .r5).toNat = .fltArr [] ∧
    s.heap.read (s.getX .r2).toNat = .intArr [4, 5] ∧ (s.getX .r5).toNat < s.heap.len := by decide +kernel

/-- A read and a write that grow the heap. -/
theorem witness_HeapReadsAreStable :
    Memory.wf Heap.empty ∧
    heapReadScalar none Heap.empty 2 .int = .ok (0, ⟨3, []⟩) ∧
    heapWriteScalar none Heap.empty 2 (.flt 0) = .ok ⟨3, [(2, .scalar (.flt 0))]⟩ :=
  ⟨by decide, rfl, rfl⟩

/-- Slots of both kinds and the first offset out of range, for loads and stores. -/
theorem witness_StackLoadOutcomes :
    let s := rich 0
    s.stack[s.bp.toNat + (s.getX .r2).toNat]? = some (.int 7) ∧
    s.stack[s.bp.toNat + (s.getX .r1).toNat]? = some (.flt 5) ∧
    s.stack.length ≤ s.bp.toNat + (s.getX .r3).toNat := by decide

theorem witness_StackStoreOutcomes :
    let s := rich 0
    s.bp.toNat + (s.getX .r2).toNat < s.stack.length ∧
    s.stack.length ≤ s.bp.toNat + (s.getX .r3).toNat := by decide

/-- One slot free, and none. -/
theorem witness_PushOutcomes :
    fits (some 4) ((rich 0).stack.length + 1) = true ∧
    fits (some 3) ((rich 0).stack.length + 1) = false := by decide

theorem witness_PopOutcomes :
    (rich 0).stack = [.int 10, .flt 5] ++ [.int 7] ∧
    ({ rich 0 with stack := [.flt 5] } : State).stack = [] ++ [.flt 5] ∧ State.reset.stack = [] := by decide

/-- Two slots free, and one. -/
theorem witness_CallOutcomes :
    (rich 0).stack.length + 1 < 2 ^ 64 ∧
    fits (rich 0).params.stackCap ((rich 0).stack.length + 2) = true ∧
    fits (some 4) ((rich 0).stack.length + 2) = false := by decide

/-- A frame, one with each kind of wrong slot, a lone slot, and the empty stack. -/
theorem witness_RetOutcomes :
    let s := { rich 0 with bp := 1 }
    ({ s with stack := [.int 0, .int 8, .flt 5] } : State).stack.take (s.bp.toNat + 1) =
      [] ++ [.int 0, .int 8] ∧
    ({ s with stack := [.flt 0, .int 8] } : State).stack.take (s.bp.toNat + 1) =
      [] ++ [.flt 0, .int 8] ∧
    ({ s with stack := [.int 8] } : State).stack.take (s.bp.toNat + 1) = [.int 8] ∧
    ({ s with stack := [.int 0, .flt 5] } : State).stack.take (s.bp.toNat + 1) =
      [.int 0] ++ [.flt 5] ∧ State.reset.stack = [] := by decide

/-- A CALL, and a later state with one more push. -/
theorem witness_FrameSymmetry :
    let s := rich 0
    let t := { s with
      stack := [.int 10, .flt 5, .int 7, .int 0, .int 0], bp := 4, pc := 1 }
    let u := { t with stack := [.int 10, .flt 5, .int 7, .int 0, .int 0, .int 9], pc := 30 }
    s.stack.length + 1 < 2 ^ 64 ∧ exec (.call .r1) s = .next t ∧ t.runState = s.runState ∧
    s.runState = .running ∧ u.bp = t.bp ∧
    u.stack[s.stack.length]? = t.stack[s.stack.length]? ∧
    u.stack[s.stack.length + 1]? = t.stack[s.stack.length + 1]? :=
  ⟨by decide, rfl, rfl, rfl, rfl, rfl, rfl⟩

/-- The first index out of the table, and a function with each result. -/
theorem witness_SyscallOutcomes :
    let s := rich 0
    s.params.syscalls.length ≤ (s.getX .r3).toNat ∧
    (∃ e r, s.params.syscalls[(s.getX .r0).toNat]? = some e ∧ syscallReply e s = some r ∧
      r.result = .ok) ∧
    (∃ e r, s.params.syscalls[(s.getX .r1).toNat]? = some e ∧ syscallReply e s = some r ∧
      r.result = .fault .invalidSysCallArg) ∧
    ∃ e r, s.params.syscalls[(s.getX .r2).toNat]? = some e ∧ syscallReply e s = some r ∧
      r.result = .halt :=
  ⟨by decide, ⟨_, _, rfl, rfl, rfl⟩, ⟨_, _, rfl, rfl, rfl⟩, ⟨_, _, rfl, rfl, rfl⟩⟩

/-- The example write with exactly as many bytes as there are (Scenario D has fewer), and one more. -/
theorem witness_ExampleWriteOutcomes :
    let s : State := { rich 0 with
      heap := Heap.ofList [.scalar (.int 0), .scalar (.int 0x6968)],
      params := { Params.default with syscalls := [.exampleWrite .accepts] } }
    s.params.syscalls[(s.getX .r0).toNat]? = some (.exampleWrite .accepts) ∧
    (s.getX .r2).toNat ≤ (heapBytesFrom s.heap (s.getX .r1).toNat).length ∧
    (heapBytesFrom s.heap (s.getX .r1).toNat).length = 8 ∧
    exampleWriteOutput .accepts s = [0x68, 0x69] ∧
    (heapBytesFrom s.heap (s.getX .r1).toNat).length < ((s.setX .r2 9).getX .r2).toNat := by
  decide +kernel

theorem witness_ResetState :
    (∃ t, hostOp .cpuReset { rich 0 with runState := .halted } = .next t) ∧
    ∃ t, hostOp .vmReset { rich 0 with runState := .halted } = .next t := ⟨⟨_, rfl⟩, _, rfl⟩

/-- A running state with OF set and a SYSCALL of a function that clears it. -/
def clearsOF : State :=
  { rich 0x72 with
    ovf := true
    params := { Params.default with syscalls := [.fixed ⟨[.setOF false], .ok⟩] } }

/-- Both run states, a hook check passed at the first cycle after a VM reset, an operation that keeps OF, and
a step that clears it. -/
theorem witness_HostResets :
    State.reset.runState ≠ .running ∧ (rich 0).runState = .running ∧
    PassesHook (startRun (vmReset State.reset)) (startRun (vmReset State.reset)) ∧
    hostOp .run State.reset = .next (startRun State.reset) ∧
    step clearsOF = .next { clearsOF with pc := 1, sysCalls := 1, ovf := false } ∧ clearsOF.ovf = true :=
  ⟨by decide, by decide, .inl ⟨rfl, rfl⟩, rfl, by rfl, rfl⟩

theorem witness_SyscallFunctionsHaveLimitedRights :
    let t := { rich 0 with ovf := true, pc := 9, heap := Heap.ofList [.intArr []], stack := [] }
    Memory.wf t.heap ∧
    t = { rich 0 with
      x := t.x, f := t.f, ovf := t.ovf, pc := t.pc, bp := t.bp, heap := t.heap, stack := t.stack } :=
  ⟨by decide, rfl⟩

/-- Segments that fit exactly, and ones that are one cell too long. -/
theorem witness_LoadReplacesSegments :
    let s := { rich 0 with runState := .idle }
    s.runState ≠ .running ∧ (rich 0).runState = .running ∧ [(0 : InstrWord)].length ≤ 2 ^ 64 - 1 ∧
    fits s.params.heapCap (List.replicate 7 zeroCell).length = true ∧
    fits s.params.heapCap (List.replicate 8 zeroCell).length = false ∧
    fits s.params.stackCap (List.replicate 5 (Tagged.int 0)).length = true ∧
    fits s.params.stackCap (List.replicate 6 (Tagged.int 0)).length = false := by decide

theorem witness_RunStartsAndExcludesTheHost :
    State.reset.runState ≠ .running ∧ (rich 0).runState = .running := by decide

theorem witness_BitwiseComplete : (63 : Nat) < 64 := by decide


end Sys2Proof.Tests
end

section
/-! PROOF. The overflow flag: what an instruction and a syscall function do to it (10_state.md R110). -/

namespace Sys2Proof.Machine

/-- An effect sets OF and changes nothing else, for exactly the events of R110; otherwise it leaves OF as
it was. No third case writes `OF <- 0`. -/
theorem Effect.ovf_cases {i : Instr} {s t : State} (h : Effect i s t) :
    (overflows s i ∧ t = s.setOverflow) ∨ (¬overflows s i ∧ t.ovf = s.ovf) := by
  cases h with
  | overflow ho => exact .inl ⟨ho, rfl⟩
  | halt hi | ret _ _ _ hi _ | retFault _ _ _ hi _ => subst hi; exact .inr ⟨id, rfl⟩
  | call _ _ hi => obtain ⟨_, rfl⟩ := hi; exact .inr ⟨id, rfl⟩
  | same ho | raise _ ho | jump _ _ ho | setX _ _ _ ho | setF _ _ _ ho | heapLoad _ _ _ _ _ _ _ ho
  | heapLoadF _ _ _ _ _ _ _ ho | heapStore _ _ _ _ _ ho | stackStore _ _ _ ho | push _ _ _ ho
  | popMismatch _ _ _ _ _ ho | pop _ _ _ _ _ _ _ ho | popF _ _ _ _ _ _ _ ho => exact .inr ⟨ho, rfl⟩

theorem Effect.ovf_iff {i : Instr} {s t : State} (h : Effect i s t) :
    t.ovf = true ↔ s.ovf = true ∨ overflows s i := by
  rcases h.ovf_cases with ⟨ho, rfl⟩ | ⟨ho, e⟩
  · simp [ho]
  · simp [ho, e]

/-! ### Syscall functions (49_syscall_reserved.md R582) -/

theorem applyWrite_ovf (s : State) {w : SysWrite} (h : w.setsOF = false) :
    (applyWrite s w).ovf = s.ovf := by
  cases w with
  | setOF b => cases h
  | setX | setF | setPc | setBp | setHeap | setStack => rfl

theorem applyWrites_ovf (s : State) {ws : List SysWrite} (h : ws.any SysWrite.setsOF = false) :
    (applyWrites s ws).ovf = s.ovf := by
  induction ws generalizing s with
  | nil => rfl
  | cons w ws ih =>
    obtain ⟨hw, hws⟩ : w.setsOF = false ∧ ws.any SysWrite.setsOF = false := by
      simpa only [List.any_cons, Bool.or_eq_false_iff] using h
    exact (ih (applyWrite s w) hws).trans (applyWrite_ovf s hw)

/-- Folding a reply into the run touches OF only by the reply's writes (R580, R583). -/
theorem foldReply_ovf (s : State) (r : SysReply) : (foldReply s r).ovf = (applyWrites s r.writes).ovf := by
  rcases foldReply_cases s r with ⟨_, e⟩ | ⟨_, e⟩ | ⟨_, _, e⟩ <;> simp [e]

theorem syscallWrites_eq_any {p : SysWrite → Bool} {s : State} {ri : XReg} {e : SyscallEntry} {r : SysReply}
    (he : s.params.syscalls[(s.getX ri).toNat]? = some e) (hr : syscallReply e s = some r) :
    syscallWrites p s ri = r.writes.any p := by
  simp only [syscallWrites, he, hr]

theorem exec_syscall_ovf {s t : State} {ri : XReg} (h : exec (.syscall ri) s = .next t)
    (hw : syscallWrites SysWrite.setsOF s ri = false) : t.ovf = s.ovf := by
  rcases exec_syscall_next h with ⟨_, rfl⟩ | ⟨e, r, he, hr, rfl⟩
  · rfl
  · rw [foldReply_ovf, applyWrites_ovf]
    rw [← hw, syscallWrites_eq_any he hr]

/-- Settles O19: any instruction but SYSCALL has one of the listed effects, which decide OF; SYSCALL
touches it by its function's writes alone. -/
theorem overflowSetByItsEventsOnly : Obligations.OverflowSetByItsEventsOnly := by
  intro i s t h
  refine ⟨fun hi => (exec_effect hi h).ovf_iff, ?_⟩
  rintro ri rfl hw
  exact exec_syscall_ovf h hw

end Sys2Proof.Machine
end

section
/-! PROOF. The state after construction and after the two resets (10_state.md R115; R700-R702). -/

namespace Sys2Proof.Machine

theorem construct_zeroedCpu (p : Params) : ZeroedCpu (State.construct p) :=
  ⟨XBank.zero_get, FBank.zero_get, rfl, rfl, rfl, rfl, rfl⟩

theorem construct_emptySegments (p : Params) : EmptySegments (State.construct p) :=
  ⟨rfl, rfl, rfl, rfl⟩

theorem cpuReset_zeroedCpu (s : State) : ZeroedCpu (cpuReset s) :=
  ⟨XBank.zero_get, FBank.zero_get, rfl, rfl, rfl, rfl, rfl⟩

theorem vmReset_zeroedCpu (s : State) : ZeroedCpu (vmReset s) :=
  ⟨XBank.zero_get, FBank.zero_get, rfl, rfl, rfl, rfl, rfl⟩

theorem vmReset_emptySegments (s : State) : EmptySegments (vmReset s) :=
  ⟨rfl, rfl, rfl, rfl⟩

/-- A CPU reset is refused during a run and is `cpuReset` otherwise (R700, R706). -/
theorem hostOp_cpuReset_next_iff {s t : State} :
    hostOp .cpuReset s = .next t ↔ s.runState ≠ .running ∧ t = cpuReset s := by
  by_cases hr : s.runState = .running <;> simp [hostOp, hr, eq_comm]

/-- A VM reset is refused during a run and is `vmReset` otherwise (R701, R706). -/
theorem hostOp_vmReset_next_iff {s t : State} :
    hostOp .vmReset s = .next t ↔ s.runState ≠ .running ∧ t = vmReset s := by
  by_cases hr : s.runState = .running <;> simp [hostOp, hr, eq_comm]

/-- Settles O56, construction and each reset by its own lemmas. -/
theorem resetState : Obligations.ResetState := by
  refine ⟨fun p => ⟨construct_zeroedCpu p, construct_emptySegments p⟩, fun s t h => ?cpu, fun s t h => ?vm,
    construct_zeroedCpu _, construct_emptySegments _⟩
  case cpu =>
    obtain ⟨-, rfl⟩ := hostOp_cpuReset_next_iff.1 h
    exact ⟨cpuReset_zeroedCpu s, rfl, rfl, rfl⟩
  case vm =>
    obtain ⟨-, rfl⟩ := hostOp_vmReset_next_iff.1 h
    exact ⟨vmReset_zeroedCpu s, vmReset_emptySegments s⟩

end Sys2Proof.Machine
end

section
/-! PROOF. The memory rules of 20_memory.md that concern the machine as a whole: no step writes CODE or
a parameter (R201, R221, R702); and the push of a tagged value (R204). -/

namespace Sys2Proof.Machine

/-! ### The code segment and the parameters -/

/-- `t` has the code segment and the parameters of `s`: what a run may not write (R221, R702). -/
def SameProgram (s t : State) : Prop := t.code = s.code ∧ t.params = s.params

theorem SameProgram.refl (s : State) : SameProgram s s := ⟨rfl, rfl⟩

theorem SameProgram.trans {s t u : State} (h : SameProgram s t) (k : SameProgram t u) : SameProgram s u :=
  ⟨k.1.trans h.1, k.2.trans h.2⟩

/-- No effect of an instruction other than SYSCALL reaches CODE or a parameter (R201). -/
theorem Effect.sameProgram {i : Instr} {s t : State} (h : Effect i s t) : SameProgram s t := by
  cases h with
  | same | halt | setX | setF | overflow | raise | jump | heapLoad | heapLoadF | heapStore | stackStore
  | push | popMismatch | pop | popF | call | ret | retFault => exact ⟨rfl, rfl⟩

/-- The writes of a syscall function are limited by R582; the result folded in touches STATE and CAUSE only. -/
theorem foldReply_sameProgram (s : State) (r : SysReply) : SameProgram s (foldReply s r) := by
  obtain ⟨hcode, hparams, -⟩ := applyWrites_frame s r.writes
  rcases foldReply_cases s r with ⟨_, e⟩ | ⟨_, e⟩ | ⟨_, _, e⟩ <;> rw [e] <;> exact ⟨hcode, hparams⟩

theorem exists_eq_syscall {i : Instr} (h : isSyscall i = true) : ∃ ri, i = .syscall ri := by
  unfold isSyscall at h
  split at h
  · exact ⟨_, rfl⟩
  · cases h

theorem exec_syscall_sameProgram {s t : State} {ri : XReg} (h : exec (.syscall ri) s = .next t) :
    SameProgram s t := by
  rcases exec_syscall_next h with ⟨_, rfl⟩ | ⟨_, r, _, _, rfl⟩
  · exact ⟨rfl, rfl⟩
  · have counted : SameProgram s { s with sysCalls := s.sysCalls + 1 } := ⟨rfl, rfl⟩
    exact counted.trans (foldReply_sameProgram _ r)

theorem exec_sameProgram {i : Instr} {s t : State} (h : exec i s = .next t) : SameProgram s t := by
  cases hi : isSyscall i with
  | false => exact (exec_effect hi h).sameProgram
  | true =>
    obtain ⟨_, rfl⟩ := exists_eq_syscall hi
    exact exec_syscall_sameProgram h

theorem FetchEffect.sameProgram {s t : State} (h : FetchEffect s t) : SameProgram s t := by
  rcases h with rfl | ⟨_, rfl | rfl | ⟨i, h⟩⟩
  · exact ⟨rfl, rfl⟩
  · exact ⟨rfl, rfl⟩
  · exact ⟨rfl, rfl⟩
  · have fetched : SameProgram s (s.setPc (s.pc + 1)) := ⟨rfl, rfl⟩
    exact fetched.trans (exec_sameProgram h)

theorem step_sameProgram {s t : State} (h : step s = .next t) : SameProgram s t := by
  rcases step_effect h with ⟨_, rfl⟩ | ⟨_, rfl | ⟨u, rfl | rfl, hu⟩⟩
  · exact .refl _
  · exact ⟨rfl, rfl⟩
  · exact hu.sameProgram
  · have counted : SameProgram s s.countHook := ⟨rfl, rfl⟩
    exact counted.trans hu.sameProgram

/-- Settles O18: wait, hook, fetch and decode leave CODE and the parameters alone, and so does every
instruction, SYSCALL through the limits of its function. -/
theorem noStepWritesCodeOrParameters : Obligations.NoStepWritesCodeOrParameters :=
  fun _ _ h => step_sameProgram h

/-! ### The word of an instruction -/

theorem decode_wordOf (r : Fields) : decode (wordOf r) = decodeFields r := by
  rw [decode, fieldsOf_wordOf]

/-- Fields that pass the zero checks and the bank checks of their opcode's row are the word of the
instruction they make (30_encoding.md R306). -/
theorem hasWord_of_shape {i : Instr} {opc : BitVec 8} {a b c : BitVec 4} {imm : Word} (sh : Shape)
    (hs : opcodeShape opc = some sh) (hz : unusedClear ⟨opc, a, b, c, 0, imm⟩ sh = true)
    (hb : buildInstr ⟨opc, a, b, c, 0, imm⟩ sh = some i) : HasWord i opc a b c imm := by
  simp only [HasWord, decode_wordOf, decodeFields, hs, hz, hb, if_true]

/-- The word of an instruction with one integer register. -/
theorem hasWord_x {mk : XReg → Instr} {opc : BitVec 8} (hs : opcodeShape opc = some (.x mk)) (r : XReg) :
    HasWord (mk r) opc r.spec 0 0 0 :=
  hasWord_of_shape (.x mk) hs rfl (by simp [buildInstr])

/-- The word of an instruction with one float register. -/
theorem hasWord_f {mk : FReg → Instr} {opc : BitVec 8} (hs : opcodeShape opc = some (.f mk)) (r : FReg) :
    HasWord (mk r) opc r.spec 0 0 0 :=
  hasWord_of_shape (.f mk) hs rfl (by simp [buildInstr])

/-! ### PUSH and PUSHF (47_push_pop.md R540, R541) -/

/-- What PUSH and PUSHF do with the tagged value they make (R204). -/
def pushTagged (s : State) (t : Tagged) : Result :=
  orRaise s (stackPush s.params.stackCap s.stack t) s.setStack

theorem exec_push (rs : XReg) (s : State) : exec (.push rs) s = pushTagged s (.int (s.getX rs)) := rfl

theorem exec_pushf (fs : FReg) (s : State) : exec (.pushf fs) s = pushTagged s (.flt (s.getF fs)) := rfl

theorem pushTagged_of_fits {s : State} (t : Tagged)
    (h : fits s.params.stackCap (s.stack.length + 1) = true) :
    pushTagged s t = .next { s with stack := s.stack ++ [t] } := by
  rcases stackPush_cases s.params.stackCap s.stack t with ⟨_, e⟩ | ⟨hf, _⟩
  · rw [pushTagged, e]; rfl
  · rw [h] at hf; cases hf

theorem pushTagged_of_full {s : State} (t : Tagged)
    (h : fits s.params.stackCap (s.stack.length + 1) = false) :
    pushTagged s t = .next { s with runState := .faulted, cause := 0x0B } := by
  rcases stackPush_cases s.params.stackCap s.stack t with ⟨hf, _⟩ | ⟨_, e⟩
  · rw [h] at hf; cases hf
  · rw [pushTagged, e]; rfl

/-- Settles O46: both instructions are the push of one tagged value, which the capacity decides. -/
theorem pushOutcomes : Obligations.PushOutcomes := by
  intro s rs fs
  refine ⟨hasWord_x rfl rs, hasWord_f rfl fs, fun room => ?_, fun full => ?_⟩ <;>
    rw [exec_push, exec_pushf]
  · exact ⟨pushTagged_of_fits _ room, pushTagged_of_fits _ room⟩
  · exact ⟨pushTagged_of_full _ full, pushTagged_of_full _ full⟩

end Sys2Proof.Machine
end

section
/-! PROOF. Little-endian bytes (30_encoding.md R313, 20_memory.md R214): each byte of a number, and the
number read back from its bytes. -/

namespace Sys2Proof

@[simp] theorem length_bytesLE (n v : Nat) : (bytesLE n v).length = n := by
  induction n generalizing v with
  | zero => rfl
  | succ n ih => rw [bytesLE, List.length_cons, ih]

/-- Dividing by 256 drops the lowest byte, so each further byte is 8 bits higher. -/
theorem getElem?_bytesLE {n j : Nat} (v : Nat) (h : j < n) :
    (bytesLE n v)[j]? = some (BitVec.ofNat 8 (v >>> (8 * j))) := by
  induction n generalizing v j with
  | zero => omega
  | succ n ih =>
    cases j with
    | zero => rfl
    | succ j =>
      have drop_byte : v / 256 = v >>> 8 := (Nat.shiftRight_eq_div_pow v 8).symm
      rw [bytesLE, List.getElem?_cons_succ, ih _ (by omega), drop_byte, ← Nat.shiftRight_add,
        Nat.mul_succ, Nat.add_comm]

/-- Byte `j` of a bit vector's number is its bits `8j+7 .. 8j`. -/
theorem getElem?_bytesLE_toNat {w n j : Nat} (x : BitVec w) (h : j < n) :
    (bytesLE n x.toNat)[j]? = some (x.extractLsb' (8 * j) 8) :=
  getElem?_bytesLE x.toNat h

theorem numberLE_bytesLE (n v : Nat) : numberLE (bytesLE n v) = v % 256 ^ n := by
  induction n generalizing v with
  | zero => rw [bytesLE, numberLE, Nat.pow_zero, Nat.mod_one]
  | succ n ih =>
    have lowest : (BitVec.ofNat 8 v).toNat = v % 256 := rfl
    rw [bytesLE, numberLE, ih, lowest, ← Nat.mod_mul, ← Nat.pow_succ']

@[simp] theorem length_wordToBytes (w : InstrWord) : (wordToBytes w).length = 16 :=
  length_bytesLE 16 w.toNat

@[simp] theorem wordOfBytes_wordToBytes (w : InstrWord) : wordOfBytes (wordToBytes w) = some w := by
  have number : numberLE (wordToBytes w) = w.toNat := by
    rw [wordToBytes, numberLE_bytesLE]
    exact Nat.mod_eq_of_lt w.isLt
  rw [wordOfBytes, if_pos (length_wordToBytes w), number, BitVec.ofNat_toNat, BitVec.setWidth_eq]

/-- Settles O6: words and values are the bytes of their numbers, and the tag does not enter. -/
theorem bytesAreLittleEndian : Obligations.BytesAreLittleEndian := by
  refine ⟨fun w => ?word, fun v => ?value⟩
  case word =>
    exact ⟨length_wordToBytes w, fun j hj => getElem?_bytesLE_toNat w hj, wordOfBytes_wordToBytes w⟩
  case value => exact ⟨length_bytesLE 8 v.toNat, rfl, fun j hj => getElem?_bytesLE_toNat v hj⟩

end Sys2Proof
end

section
/-! PROOF. The opcodes that are decoded without a look at any other bit: the unassigned ones
(30_encoding.md R307), and IN and OUT (R310); and the step that fetches a word (40_cycle.md R400-R404). -/

namespace Sys2Proof

open Machine

/-! ### Decoding by the opcode alone -/

/-- The opcode map has a row for exactly the opcodes outside the ranges of R307: each row's opcode lies in
no range, and the map's default case (the last) is reached only inside one. -/
theorem opcodeShape_eq_none_iff (op : BitVec 8) : opcodeShape op = none ↔ unassignedOpcode op.toNat := by
  have bound : op.toNat < 256 := op.isLt
  unfold opcodeShape
  split
  case h_55 =>
    simp only [true_iff, unassignedOpcode, imp_false] at *
    omega
  all_goals next row => rw [row]; decide

theorem decode_of_unassigned {w : InstrWord} (h : unassignedOpcode (w.extractLsb' 0 8).toNat) :
    decode w = .illegalInstruction := by
  have noRow : opcodeShape (fieldsOf w).opc = none := (opcodeShape_eq_none_iff _).2 h
  rw [decode, decodeFields, noRow]

/-- Format X examines no field but the opcode (R310). -/
theorem decode_of_shape_any {w : InstrWord} {i : Instr}
    (h : opcodeShape (w.extractLsb' 0 8) = some (.any i)) : decode w = .ok i := by
  have row : opcodeShape (fieldsOf w).opc = some (.any i) := h
  simp only [decode, decodeFields, row, unusedClear, buildInstr, if_true]

end Sys2Proof

namespace Sys2Proof.Machine

/-! ### The step that fetches a word -/

/-- A cycle that the hook lets pass fetches from the state after the hook's call (R401). -/
theorem step_of_passesHook {s u : State} (hr : s.runState = .running) (hp : PassesHook s u) :
    step s = fetchAndExecute u := by
  have isCycle : step s = cycle s := by
    rcases step_cases s with ⟨hn, _⟩ | ⟨_, e⟩
    · exact absurd hr hn
    · exact e
  rw [isCycle]
  rcases hp with ⟨hk, rfl⟩ | ⟨h, hk, ha, rfl⟩
  · simp only [cycle, hk]
  · simp only [cycle, hk, ha, State.countHook]

/-- The hook's call leaves the code segment and pc alone. -/
theorem PassesHook.code_pc {s u : State} (hp : PassesHook s u) : u.code = s.code ∧ u.pc = s.pc := by
  rcases hp with ⟨_, rfl⟩ | ⟨_, _, _, rfl⟩ <;> exact ⟨rfl, rfl⟩

/-- The word at pc is decoded and executed with pc one further (R402-R405). -/
theorem step_of_fetched {s u : State} {w : InstrWord} (hr : s.runState = .running) (hp : PassesHook s u)
    (hw : s.code[s.pc.toNat]? = some w) : step s = decodeAndExecute w (u.setPc (s.pc + 1)) := by
  obtain ⟨hcode, hpc⟩ := hp.code_pc
  rw [step_of_passesHook hr hp, fetchAndExecute, hcode, hpc, hw]

/-- Settles O9: the opcode map has no row for the fetched word, so its decoding raises the fault. -/
theorem unassignedOpcodeIsIllegal : Obligations.UnassignedOpcodeIsIllegal := by
  refine ⟨by decide +kernel, fun s u w hr hp hw hop => ?_⟩
  rw [step_of_fetched hr hp hw, decodeAndExecute, decode_of_unassigned hop]
  rfl

/-! ### IN and OUT (49_syscall_reserved.md R584, R585) -/

theorem exec_inp (s : State) : exec .inp s = .next (s.raise .notImplemented) := rfl

theorem exec_out (s : State) : exec .out s = .next (s.raise .notImplemented) := rfl

/-- Settles O55: both opcodes have a row of format X, and both instructions raise. -/
theorem inOutRaiseNotImplemented : Obligations.InOutRaiseNotImplemented := by
  refine ⟨fun w => ⟨fun h => ?inp, fun h => ?out⟩, fun s => ⟨exec_inp s, exec_out s⟩⟩
  case inp => exact decode_of_shape_any (by rw [h]; rfl)
  case out => exact decode_of_shape_any (by rw [h]; rfl)

end Sys2Proof.Machine
end

section
/-! PROOF. The cycle of a RUNNING state that the hook lets pass: each outcome of fetch and decode
(40_cycle.md R402-R405); and NOP and HALT (R409, R410). -/

namespace Sys2Proof.Machine

/-! ### Fetch and decode, one rule per outcome -/

theorem fetchAndExecute_of_outOfRange {u : State} (h : u.code.length ≤ u.pc.toNat) :
    fetchAndExecute u = .next (u.raise .invalidCodeAddr) := by
  rw [fetchAndExecute, List.getElem?_eq_none h]

theorem decodeAndExecute_of_ok {w : InstrWord} {i : Instr} (h : decode w = .ok i) (s : State) :
    decodeAndExecute w s = exec i s := by
  rw [decodeAndExecute, h]

theorem decodeAndExecute_of_illegalInstruction {w : InstrWord} (h : decode w = .illegalInstruction)
    (s : State) : decodeAndExecute w s = .next (s.raise .illegalInstruction) := by
  rw [decodeAndExecute, h]

theorem decodeAndExecute_of_invalidReg {w : InstrWord} (h : decode w = .invalidReg) (s : State) :
    decodeAndExecute w s = .next (s.raise .invalidReg) := by
  rw [decodeAndExecute, h]

/-- Settles O7: the fetch increments pc before the decoded instruction runs. -/
theorem stepRunsTheDecodedInstruction : Obligations.StepRunsTheDecodedInstruction := by
  intro s u w i hr hp hw hi
  calc step s
      _ = decodeAndExecute w (u.setPc (s.pc + 1)) := step_of_fetched hr hp hw
      _ = exec i (u.setPc (s.pc + 1)) := decodeAndExecute_of_ok hi _

/-- Settles O8: either decode fault is raised on the state whose pc the fetch has incremented. -/
theorem undecodableWordFaultsPastIt : Obligations.UndecodableWordFaultsPastIt := by
  intro s u w hr hp hw
  have fetched : step s = decodeAndExecute w (u.setPc (s.pc + 1)) := step_of_fetched hr hp hw
  exact ⟨fun hd => fetched.trans (decodeAndExecute_of_illegalInstruction hd _),
    fun hd => fetched.trans (decodeAndExecute_of_invalidReg hd _)⟩

/-- Settles O10: the fault of an empty fetch is raised before the increment of pc. -/
theorem fetchOutOfRangeKeepsPc : Obligations.FetchOutOfRangeKeepsPc := by
  intro s u hr hp hout
  obtain ⟨hcode, hpc⟩ := hp.code_pc
  have outOfRange : u.code.length ≤ u.pc.toNat := by rwa [hcode, hpc]
  exact (step_of_passesHook hr hp).trans (fetchAndExecute_of_outOfRange outOfRange)

/-! ### NOP and HALT -/

/-- The word of an instruction without operands. -/
theorem hasWord_n {i : Instr} {opc : BitVec 8} (hs : opcodeShape opc = some (.n i)) :
    HasWord i opc 0 0 0 0 :=
  hasWord_of_shape (.n i) hs rfl rfl

theorem exec_nop (s : State) : exec .nop s = .next s := rfl

theorem exec_halt (s : State) : exec .halt s = .next s.halt := rfl

/-- Settles O24: both opcodes have a row without operands, and HALT is the `halt` of R407. -/
theorem nopAndHaltComplete : Obligations.NopAndHaltComplete :=
  ⟨hasWord_n rfl, hasWord_n rfl, fun s => ⟨exec_nop s, exec_halt s⟩⟩

end Sys2Proof.Machine
end

section
/-! PROOF. Loads and moves (41_move.md R420-R423): the words of the formats with two registers and with a
register and an immediate, and the unchecked write of a register. -/

namespace Sys2Proof.Machine

/-! ### Words (30_encoding.md R306) -/

/-- The word of an instruction with two integer registers. -/
theorem hasWord_xx {mk : XReg → XReg → Instr} {opc : BitVec 8} (hs : opcodeShape opc = some (.xx mk))
    (a b : XReg) : HasWord (mk a b) opc a.spec b.spec 0 0 :=
  hasWord_of_shape (.xx mk) hs rfl (by simp [buildInstr])

/-- The word of an instruction with two float registers. -/
theorem hasWord_ff {mk : FReg → FReg → Instr} {opc : BitVec 8} (hs : opcodeShape opc = some (.ff mk))
    (a b : FReg) : HasWord (mk a b) opc a.spec b.spec 0 0 :=
  hasWord_of_shape (.ff mk) hs rfl (by simp [buildInstr])

/-- The word of an instruction with an integer register and an immediate. -/
theorem hasWord_xi {mk : XReg → Word → Instr} {opc : BitVec 8} (hs : opcodeShape opc = some (.xi mk))
    (a : XReg) (v : Word) : HasWord (mk a v) opc a.spec 0 0 v :=
  hasWord_of_shape (.xi mk) hs rfl (by simp [buildInstr])

/-- The word of an instruction with a float register and an immediate. -/
theorem hasWord_fi {mk : FReg → Word → Instr} {opc : BitVec 8} (hs : opcodeShape opc = some (.fi mk))
    (a : FReg) (v : Word) : HasWord (mk a v) opc a.spec 0 0 v :=
  hasWord_of_shape (.fi mk) hs rfl (by simp [buildInstr])

/-! ### The unchecked write of a register -/

theorem writesX_setX (s : State) (rd : XReg) (v : Word) : WritesX s rd v (s.setX rd v) :=
  ⟨State.getX_setX_self s rd v, fun _ other => State.getX_setX_of_ne s v other.symm, rfl⟩

theorem writesF_setF (s : State) (fd : FReg) (v : Word) : WritesF s fd v (s.setF fd v) :=
  ⟨State.getF_setF_self s fd v, fun _ other => State.getF_setF_of_ne s v other.symm, rfl⟩

/-! ### LDI, LDF, MOV and MOVF -/

theorem exec_ldi (rd : XReg) (v : Word) (s : State) : exec (.ldi rd v) s = .next (s.setX rd v) := rfl

theorem exec_ldf (fd : FReg) (v : Word) (s : State) : exec (.ldf fd v) s = .next (s.setF fd v) := rfl

theorem exec_mov (rd rs : XReg) (s : State) :
    exec (.mov rd rs) s = .next (s.setX rd (s.getX rs)) := rfl

theorem exec_movf (fd fs : FReg) (s : State) :
    exec (.movf fd fs) s = .next (s.setF fd (s.getF fs)) := rfl

/-- Settles O25: each of the four is one unchecked write, of the immediate or of what the source held
before. -/
theorem loadsAndMovesComplete : Obligations.LoadsAndMovesComplete := by
  intro s rd rs fd fs v
  refine ⟨⟨hasWord_xi rfl rd v, _, exec_ldi rd v s, ?ldi⟩, ⟨hasWord_fi rfl fd v, _, exec_ldf fd v s, ?ldf⟩,
    ⟨hasWord_xx rfl rd rs, _, exec_mov rd rs s, ?mov⟩, ⟨hasWord_ff rfl fd fs, _, exec_movf fd fs s, ?movf⟩⟩
  case ldi => exact writesX_setX s rd v
  case ldf => exact writesF_setF s fd v
  case mov => exact writesX_setX s rd (s.getX rs)
  case movf => exact writesF_setF s fd (s.getF fs)

end Sys2Proof.Machine
end

section
/-! PROOF. Integer arithmetic (42_int_arith.md R440-R448): the words of the formats with three registers and
with two registers and an immediate, the checked write, and the two divisions. -/

namespace Sys2Proof.Machine

/-! ### Words (30_encoding.md R306) -/

/-- The word of an instruction with three integer registers. -/
theorem hasWord_xxx {mk : XReg → XReg → XReg → Instr} {opc : BitVec 8}
    (hs : opcodeShape opc = some (.xxx mk)) (a b c : XReg) :
    HasWord (mk a b c) opc a.spec b.spec c.spec 0 :=
  hasWord_of_shape (.xxx mk) hs rfl (by simp [buildInstr])

/-- The word of an instruction with two integer registers and an immediate. -/
theorem hasWord_xxi {mk : XReg → XReg → Word → Instr} {opc : BitVec 8}
    (hs : opcodeShape opc = some (.xxi mk)) (a b : XReg) (v : Word) :
    HasWord (mk a b v) opc a.spec b.spec 0 v :=
  hasWord_of_shape (.xxi mk) hs rfl (by simp [buildInstr])

/-! ### The write of a number and the checked write (R440) -/

/-- A number below `2^64` written to a register is what the register then holds, unsigned. -/
theorem writesX_setX_ofNat (s : State) (rd : XReg) {n : Nat} (hn : n < 2 ^ 64) :
    WritesX s rd ((s.setX rd (BitVec.ofNat 64 n)).getX rd) (s.setX rd (BitVec.ofNat 64 n)) ∧
      ((s.setX rd (BitVec.ofNat 64 n)).getX rd).toNat = n := by
  rw [State.getX_setX_self]
  exact ⟨writesX_setX s rd _, (BitVec.toNat_ofNat n 64).trans (Nat.mod_eq_of_lt hn)⟩

theorem checksX_checkedWrite (s : State) (rd : XReg) (r : Int) : ChecksX s rd r (checkedWrite s rd r) := by
  rcases checkedWrite_cases s rd r with ⟨nonneg, le, e⟩ | ⟨unfit, e⟩ <;> rw [e]
  · have small : r.toNat < 2 ^ 64 := by omega
    obtain ⟨writes, holds⟩ := writesX_setX_ofNat s rd small
    have value : (((s.setX rd (BitVec.ofNat 64 r.toNat)).getX rd).toNat : Int) = r := by
      rw [holds, Int.toNat_of_nonneg nonneg]
    exact ⟨fun _ => ⟨value, writes⟩, fun unfit => absurd ⟨nonneg, le⟩ unfit⟩
  · exact ⟨fun fit => absurd fit unfit, fun _ => rfl⟩

/-! ### ADD, SUB, MUL and their immediate forms -/

theorem exec_add (rd a b : XReg) (s : State) :
    exec (.add rd a b) s = .next (checkedWrite s rd ((s.getX a).toNat + (s.getX b).toNat)) := rfl

theorem exec_sub (rd a b : XReg) (s : State) :
    exec (.sub rd a b) s = .next (checkedWrite s rd ((s.getX a).toNat - (s.getX b).toNat)) := rfl

theorem exec_mul (rd a b : XReg) (s : State) :
    exec (.mul rd a b) s = .next (checkedWrite s rd ((s.getX a).toNat * (s.getX b).toNat)) := rfl

theorem exec_addi (rd a : XReg) (v : Word) (s : State) :
    exec (.addi rd a v) s = .next (checkedWrite s rd ((s.getX a).toNat + v.toNat)) := rfl

theorem exec_subi (rd a : XReg) (v : Word) (s : State) :
    exec (.subi rd a v) s = .next (checkedWrite s rd ((s.getX a).toNat - v.toNat)) := rfl

theorem exec_muli (rd a : XReg) (v : Word) (s : State) :
    exec (.muli rd a v) s = .next (checkedWrite s rd ((s.getX a).toNat * v.toNat)) := rfl

/-- Settles O26: each of the three is the checked write of its exact integer result. -/
theorem addSubMulComplete : Obligations.AddSubMulComplete := by
  intro s rd a b
  refine ⟨⟨hasWord_xxx rfl rd a b, _, exec_add rd a b s, ?add⟩,
    ⟨hasWord_xxx rfl rd a b, _, exec_sub rd a b s, ?sub⟩,
    ⟨hasWord_xxx rfl rd a b, _, exec_mul rd a b s, ?mul⟩⟩
  case add | sub | mul => exact checksX_checkedWrite s rd _

/-- Settles O27: as O26, the exact result taken with the unsigned immediate. -/
theorem addSubMulImmediateComplete : Obligations.AddSubMulImmediateComplete := by
  intro s rd a v
  refine ⟨⟨hasWord_xxi rfl rd a v, _, exec_addi rd a v s, ?addi⟩,
    ⟨hasWord_xxi rfl rd a v, _, exec_subi rd a v s, ?subi⟩,
    ⟨hasWord_xxi rfl rd a v, _, exec_muli rd a v s, ?muli⟩⟩
  case addi | subi | muli => exact checksX_checkedWrite s rd _

/-! ### DIV and MOD (R447, R448) -/

theorem exec_div_of_ne_zero {s : State} {b : XReg} (hb : s.getX b ≠ 0) (rd a : XReg) :
    exec (.div rd a b) s =
      .next (s.setX rd (BitVec.ofNat 64 ((s.getX a).toNat / (s.getX b).toNat))) :=
  if_neg hb

/-- The model's `a - b * (a / b)` is the remainder. -/
theorem exec_mod_of_ne_zero {s : State} {b : XReg} (hb : s.getX b ≠ 0) (rd a : XReg) :
    exec (.mod rd a b) s =
      .next (s.setX rd (BitVec.ofNat 64 ((s.getX a).toNat % (s.getX b).toNat))) := by
  rw [Nat.mod_eq_sub]
  exact if_neg hb

theorem exec_div_of_zero {s : State} {b : XReg} (hb : s.getX b = 0) (rd a : XReg) :
    exec (.div rd a b) s = .next (s.raise .divByZero) :=
  if_pos hb

theorem exec_mod_of_zero {s : State} {b : XReg} (hb : s.getX b = 0) (rd a : XReg) :
    exec (.mod rd a b) s = .next (s.raise .divByZero) :=
  if_pos hb

/-- Settles O28: quotient and remainder are at most the dividend, so both fit the register unchecked. -/
theorem divModOutcomes : Obligations.DivModOutcomes := by
  intro s rd a b
  refine ⟨hasWord_xxx rfl rd a b, hasWord_xxx rfl rd a b, fun nonzero => ?_, fun zero => ?_⟩
  · have dividend : (s.getX a).toNat < 2 ^ 64 := (s.getX a).isLt
    have quotient := (Nat.div_le_self (s.getX a).toNat (s.getX b).toNat).trans_lt dividend
    have remainder := (Nat.mod_le (s.getX a).toNat (s.getX b).toNat).trans_lt dividend
    exact ⟨⟨_, exec_div_of_ne_zero nonzero rd a, writesX_setX_ofNat s rd quotient⟩,
      ⟨_, exec_mod_of_ne_zero nonzero rd a, writesX_setX_ofNat s rd remainder⟩⟩
  · exact ⟨exec_div_of_zero zero rd a, exec_mod_of_zero zero rd a⟩

end Sys2Proof.Machine
end

section
/-! PROOF. Bitwise operations, NEG and the shifts (44_bitwise_unary.md R480-R484, R486, R487): each bit of a
bitwise result, and when the overflow-checked write of NEG, SHL and SHR sets OF instead of its value. -/

namespace Sys2Proof.Machine

/-! ### AND, OR, XOR and NOT -/

theorem exec_and (rd a b : XReg) (s : State) :
    exec (.and rd a b) s = .next (s.setX rd (s.getX a &&& s.getX b)) := rfl

theorem exec_or (rd a b : XReg) (s : State) :
    exec (.or rd a b) s = .next (s.setX rd (s.getX a ||| s.getX b)) := rfl

theorem exec_xor (rd a b : XReg) (s : State) :
    exec (.xor rd a b) s = .next (s.setX rd (s.getX a ^^^ s.getX b)) := rfl

/-- The model's XOR with the word of 64 ones is the complement. -/
theorem exec_not (rd a : XReg) (s : State) : exec (.not rd a) s = .next (s.setX rd (~~~s.getX a)) := by
  rw [← BitVec.xor_allOnes]
  rfl

/-- A word written to a register is, bit by bit, what the register then holds. -/
theorem writesX_setX_bits (s : State) (rd : XReg) {v : Word} {bit : Nat → Bool}
    (hv : ∀ j, j < 64 → v.getLsbD j = bit j) :
    WritesX s rd ((s.setX rd v).getX rd) (s.setX rd v) ∧
      ∀ j, j < 64 → ((s.setX rd v).getX rd).getLsbD j = bit j := by
  rw [State.getX_setX_self]
  exact ⟨writesX_setX s rd v, hv⟩

/-- Settles O35: each of the four is one unchecked write, of a word whose bits the operation makes one by
one. -/
theorem bitwiseComplete : Obligations.BitwiseComplete := by
  intro s rd a b
  refine ⟨⟨hasWord_xxx rfl rd a b, _, exec_and rd a b s, writesX_setX_bits s rd ?and⟩,
    ⟨hasWord_xxx rfl rd a b, _, exec_or rd a b s, writesX_setX_bits s rd ?or⟩,
    ⟨hasWord_xxx rfl rd a b, _, exec_xor rd a b s, writesX_setX_bits s rd ?xor⟩,
    ⟨hasWord_xx rfl rd a, _, exec_not rd a s, writesX_setX_bits s rd ?not⟩⟩
  case and => exact fun _ _ => BitVec.getLsbD_and
  case or => exact fun _ _ => BitVec.getLsbD_or
  case xor => exact fun _ _ => BitVec.getLsbD_xor
  case not => exact fun _ hj => by rw [BitVec.getLsbD_not, decide_eq_true hj, Bool.true_and]

/-! ### The overflow-checked write of NEG, SHL and SHR -/

theorem exec_neg (rd a : XReg) (s : State) :
    exec (.neg rd a) s = .next (writeUnless s (negOverflows (s.getX a)) rd (negValue (s.getX a))) := rfl

theorem exec_shl (rd a : XReg) (s : State) :
    exec (.shl rd a) s = .next (writeUnless s (shlOverflows (s.getX a)) rd (shlValue (s.getX a))) := rfl

theorem exec_shr (rd a : XReg) (s : State) :
    exec (.shr rd a) s = .next (writeUnless s (shrOverflows (s.getX a)) rd (shrValue (s.getX a))) := rfl

theorem writeUnless_of_overflow (s : State) {b : Bool} (rd : XReg) (v : Word) (overflow : b = true) :
    writeUnless s b rd v = { s with ovf := true } :=
  if_pos overflow

theorem writesX_writeUnless (s : State) {b : Bool} (rd : XReg) {v : Word} {n : Nat} (fit : b ≠ true)
    (value : v.toNat = n) :
    WritesX s rd ((writeUnless s b rd v).getX rd) (writeUnless s b rd v) ∧
      ((writeUnless s b rd v).getX rd).toNat = n := by
  have written : writeUnless s b rd v = s.setX rd v := if_neg fit
  rw [written, State.getX_setX_self]
  exact ⟨writesX_setX s rd v, value⟩

/-! ### Overflow and value on the number of a word -/

theorem negOverflows_iff (v : Word) : negOverflows v = true ↔ v.toNat = 2 ^ 63 :=
  beq_iff_eq.trans BitVec.toNat_inj.symm

theorem shlOverflows_iff (v : Word) : shlOverflows v = true ↔ 2 ^ 63 ≤ v.toNat := by
  have bound : v.toNat < 2 ^ 64 := v.isLt
  rw [shlOverflows, BitVec.getLsbD, Nat.testBit_eq_decide_div_mod_eq, decide_eq_true_eq]
  omega

theorem shrOverflows_iff (v : Word) : shrOverflows v = true ↔ v.toNat % 2 = 1 := by
  rw [shrOverflows, BitVec.getLsbD, Nat.testBit_zero, decide_eq_true_eq]

theorem toNat_negValue (v : Word) : (negValue v).toNat = (2 ^ 64 - v.toNat) % 2 ^ 64 :=
  BitVec.toNat_ofNat _ 64

theorem toNat_shlValue {v : Word} (clear : v.toNat < 2 ^ 63) : (shlValue v).toNat = v.toNat * 2 :=
  (BitVec.toNat_ofNat _ 64).trans (Nat.mod_eq_of_lt (by omega))

theorem toNat_shrValue (v : Word) : (shrValue v).toNat = v.toNat / 2 :=
  (BitVec.toNat_ofNat _ 64).trans (Nat.mod_eq_of_lt ((Nat.div_le_self _ _).trans_lt v.isLt))

/-- Settles O36: the overflow of NEG is the number `2^63`, and the modulus covers the negation of zero. -/
theorem negComplete : Obligations.NegComplete := by
  intro s rd a
  refine ⟨hasWord_xx rfl rd a, _, exec_neg rd a s, fun minimum => ?_, fun other => ?_⟩
  · exact writeUnless_of_overflow s rd _ ((negOverflows_iff _).2 minimum)
  · exact writesX_writeUnless s rd (mt (negOverflows_iff _).1 other) (toNat_negValue _)

/-- Settles O38: the bit shifted out is the source's bit 63 or bit 0; when it is clear, twice the source
still fits the register. -/
theorem shiftsComplete : Obligations.ShiftsComplete := by
  intro s rd a
  refine ⟨⟨hasWord_xx rfl rd a, _, exec_shl rd a s, fun outgoing => ?_, fun clear => ?_⟩,
    ⟨hasWord_xx rfl rd a, _, exec_shr rd a s, fun odd => ?_, fun even => ?_⟩⟩
  · exact writeUnless_of_overflow s rd _ ((shlOverflows_iff _).2 outgoing)
  · exact writesX_writeUnless s rd (mt (shlOverflows_iff _).1 clear.not_ge) (toNat_shlValue clear)
  · exact writeUnless_of_overflow s rd _ ((shrOverflows_iff _).2 odd)
  · exact writesX_writeUnless s rd (mt (shrOverflows_iff _).1 (by omega)) (toNat_shrValue _)

end Sys2Proof.Machine
end

section
/-! PROOF. Heap access (45_heap_stack_access.md R500-R503): what a scalar load and a scalar store do on a
hit, on a miss that fits the capacity and on one that does not, for either kind. -/

namespace Sys2Proof.Machine

/-! ### Words (30_encoding.md R306) -/

/-- The word of an instruction with a float register and an integer register. -/
theorem hasWord_fx {mk : FReg → XReg → Instr} {opc : BitVec 8} (hs : opcodeShape opc = some (.fx mk))
    (a : FReg) (b : XReg) : HasWord (mk a b) opc a.spec b.spec 0 0 :=
  hasWord_of_shape (.fx mk) hs rfl (by simp [buildInstr])

/-! ### Accesses that may raise -/

theorem orRaise_of_ok (s : State) {α : Type} {r : Except FaultKind α} {v : α} (k : α → State)
    (h : r = .ok v) : orRaise s r k = .next (k v) := by
  rw [h, orRaise]

theorem orRaise_of_error (s : State) {α : Type} {r : Except FaultKind α} {e : FaultKind} (k : α → State)
    (h : r = .error e) : orRaise s r k = .next (s.raise e) := by
  rw [h, orRaise]

/-! ### Growth (20_memory.md R210) -/

theorem heapGrow_of_hit {cap : Option Nat} {h : Heap} {a : Nat} (k : Kind) (hit : a < h.len) :
    heapGrow cap h a k = .ok (h, false) :=
  if_pos hit

/-- A miss within the capacity makes `a` the last address, with the zero of the kind in its cell. -/
theorem heapGrow_of_room {cap : Option Nat} {h : Heap} {a : Nat} (k : Kind) (w : Memory.wf h)
    (miss : h.len ≤ a) (room : fits cap (a + 1) = true) :
    ∃ g, heapGrow cap h a k = .ok (g, true) ∧ g.len = a + 1 ∧ g.read a = .scalar (k.tag 0) := by
  have extended : Memory.wf { h with len := a + 1 } := w.extend (by omega)
  refine ⟨_, (if_neg miss.not_gt).trans (if_pos room), rfl, ?_⟩
  rw [Heap.read_write extended, if_pos rfl]

theorem heapGrow_of_full {cap : Option Nat} {h : Heap} {a : Nat} (k : Kind)
    (miss : h.len ≤ a) (full : fits cap (a + 1) = false) :
    heapGrow cap h a k = .error .resourceExhausted :=
  (if_neg miss.not_gt).trans (if_neg (by rw [full]; decide))

/-- In canonical form, a gap cell reads as it did beyond the old length. -/
theorem growsHeap_of_reads {s t : State} {a : Nat} {c : HeapCell} (w : Memory.wf s.heap)
    (miss : s.heap.len ≤ a) (last : t.heap.len = a + 1) (cell : t.heap.read a = c)
    (others : ∀ j, j ≠ a → t.heap.read j = s.heap.read j) : GrowsHeap s a c t :=
  ⟨last, cell, fun j old => others j (by omega), fun j gap below =>
    (others j below.ne).trans (w.read_of_le gap)⟩

/-! ### The load (R211) -/

/-- What LDH and LDHF do at an address: the scalar of the kind, written where `write` says. -/
def heapLoad (s : State) (a : Nat) (k : Kind) (write : State → Word → State) : Result :=
  orRaise s (heapReadScalar s.params.heapCap s.heap a k) fun r => write (s.setHeap r.2) r.1

theorem exec_ldh (rd ra : XReg) (s : State) :
    exec (.ldh rd ra) s = heapLoad s (s.getX ra).toNat .int (·.setX rd ·) := rfl

theorem exec_ldhf (fd : FReg) (ra : XReg) (s : State) :
    exec (.ldhf fd ra) s = heapLoad s (s.getX ra).toNat .flt (·.setF fd ·) := rfl

section
variable {s : State} {a : Nat} {k : Kind} (write : State → Word → State)

theorem heapLoad_of_value {v : Word} (hit : a < s.heap.len) (value : cellGet k (s.heap.read a) = .ok v) :
    heapLoad s a k write = .next (write s v) := by
  refine orRaise_of_ok s (v := (v, s.heap)) _ ?_
  simp only [heapReadScalar, heapGrow_of_hit k hit, value]

theorem heapLoad_of_fault {e : FaultKind} (hit : a < s.heap.len)
    (fault : cellGet k (s.heap.read a) = .error e) : heapLoad s a k write = .next (s.raise e) := by
  refine orRaise_of_error s _ ?_
  simp only [heapReadScalar, heapGrow_of_hit k hit, fault]

theorem heapLoad_of_room (w : Memory.wf s.heap) (miss : s.heap.len ≤ a)
    (room : fits s.params.heapCap (a + 1) = true) :
    ∃ g, heapLoad s a k write = .next (write (s.setHeap g) 0) ∧
      GrowsHeap s a (.scalar (k.tag 0)) (s.setHeap g) := by
  obtain ⟨g, grown, last, cell⟩ := heapGrow_of_room k w miss room
  have read : heapReadScalar s.params.heapCap s.heap a k = .ok (0, g) := by
    simp only [heapReadScalar, grown]
  obtain ⟨-, -, -, others⟩ := heapGrow_spec w grown
  exact ⟨g, orRaise_of_ok s _ read, growsHeap_of_reads w miss last cell others⟩

theorem heapLoad_of_full (miss : s.heap.len ≤ a) (full : fits s.params.heapCap (a + 1) = false) :
    heapLoad s a k write = .next (s.raise .resourceExhausted) := by
  refine orRaise_of_error s _ ?_
  simp only [heapReadScalar, heapGrow_of_full k miss full]

end

/-- Settles O39: LDH is the load of the integer kind; the kind of the cell decides a hit, and a miss loads
the zero of the cell that the growth makes. -/
theorem ldhOutcomes : Obligations.LdhOutcomes := by
  intro s rd ra w a
  rw [exec_ldh]
  refine ⟨hasWord_xx rfl rd ra, fun hit => ⟨fun v cell => ?scalar, fun v l cell => ?array,
    fun b cell => ?mismatch, ?wrongArray⟩, fun miss room => ?grows, fun miss full => ?full⟩
  case scalar | array => exact ⟨_, heapLoad_of_value _ hit (by rw [cell]; rfl), writesX_setX s rd v⟩
  case mismatch => exact heapLoad_of_fault (e := .typeMismatch) _ hit (by rw [cell]; rfl)
  case wrongArray =>
    rintro (cell | ⟨l, cell⟩) <;>
      exact heapLoad_of_fault (e := .invalidHeapType) _ hit (by rw [cell]; rfl)
  case grows =>
    obtain ⟨g, loads, grows⟩ := heapLoad_of_room (·.setX rd ·) w miss room
    obtain ⟨value, others, rest⟩ := writesX_setX (s.setHeap g) rd 0
    exact ⟨_, loads, grows, value, others, rest⟩
  case full => exact heapLoad_of_full _ miss full

/-- Settles O40: as O39, with the load of the float kind. -/
theorem ldhfOutcomes : Obligations.LdhfOutcomes := by
  intro s fd ra w a
  rw [exec_ldhf]
  refine ⟨hasWord_fx rfl fd ra, fun hit => ⟨fun v cell => ?scalar, fun v l cell => ?array,
    fun b cell => ?mismatch, ?wrongArray⟩, fun miss room => ?grows, fun miss full => ?full⟩
  case scalar | array => exact ⟨_, heapLoad_of_value _ hit (by rw [cell]; rfl), writesF_setF s fd v⟩
  case mismatch => exact heapLoad_of_fault (e := .typeMismatch) _ hit (by rw [cell]; rfl)
  case wrongArray =>
    rintro (cell | ⟨l, cell⟩) <;>
      exact heapLoad_of_fault (e := .invalidHeapType) _ hit (by rw [cell]; rfl)
  case grows =>
    obtain ⟨g, loads, grows⟩ := heapLoad_of_room (·.setF fd ·) w miss room
    obtain ⟨value, others, rest⟩ := writesF_setF (s.setHeap g) fd 0
    exact ⟨_, loads, grows, value, others, rest⟩
  case full => exact heapLoad_of_full _ miss full

/-! ### The store (R212) -/

/-- What STH and STHF do at an address with the tagged value they make. -/
def heapStore (s : State) (a : Nat) (t : Tagged) : Result :=
  orRaise s (heapWriteScalar s.params.heapCap s.heap a t) s.setHeap

theorem exec_sth (rs ra : XReg) (s : State) :
    exec (.sth rs ra) s = heapStore s (s.getX ra).toNat (.int (s.getX rs)) := rfl

theorem exec_sthf (fs : FReg) (ra : XReg) (s : State) :
    exec (.sthf fs ra) s = heapStore s (s.getX ra).toNat (.flt (s.getF fs)) := rfl

section
variable {s : State} {a : Nat} {t : Tagged}

theorem heapStore_of_cell {c : HeapCell} (w : Memory.wf s.heap) (hit : a < s.heap.len)
    (put : cellPut (s.heap.read a) t = .ok c) : ∃ u, heapStore s a t = .next u ∧ WritesCell s a c u := by
  have stored : heapWriteScalar s.params.heapCap s.heap a t = .ok (s.heap.write a c) := by
    simp only [heapWriteScalar, heapGrow_of_hit t.kind hit, put]
  refine ⟨_, orRaise_of_ok s _ stored, rfl, ?cell, fun j other => ?others, rfl⟩
  case cell => rw [State.setHeap_heap, Heap.read_write w, if_pos rfl]
  case others => rw [State.setHeap_heap, Heap.read_write w, if_neg other.symm]

theorem heapStore_of_fault {e : FaultKind} (hit : a < s.heap.len)
    (fault : cellPut (s.heap.read a) t = .error e) : heapStore s a t = .next (s.raise e) := by
  refine orRaise_of_error s _ ?_
  simp only [heapWriteScalar, heapGrow_of_hit t.kind hit, fault]

/-- The cell that a miss makes is a scalar, which the value replaces. -/
theorem heapStore_of_room (w : Memory.wf s.heap) (miss : s.heap.len ≤ a)
    (room : fits s.params.heapCap (a + 1) = true) :
    ∃ u, heapStore s a t = .next u ∧ GrowsHeap s a (.scalar t) u ∧ u = { s with heap := u.heap } := by
  obtain ⟨g, grown, last, cell⟩ := heapGrow_of_room t.kind w miss room
  have stored : heapWriteScalar s.params.heapCap s.heap a t = .ok (g.write a (.scalar t)) := by
    simp only [heapWriteScalar, grown, cell, cellPut]
  obtain ⟨canonical, -, -, -⟩ := heapGrow_spec w grown
  obtain ⟨-, -, -, others⟩ := heapWriteScalar_spec w stored
  have replaced : (g.write a (.scalar t)).read a = .scalar t := by
    rw [Heap.read_write canonical, if_pos rfl]
  exact ⟨_, orRaise_of_ok s _ stored, growsHeap_of_reads w miss last replaced others, rfl⟩

theorem heapStore_of_full (miss : s.heap.len ≤ a) (full : fits s.params.heapCap (a + 1) = false) :
    heapStore s a t = .next (s.raise .resourceExhausted) := by
  refine orRaise_of_error s _ ?_
  simp only [heapWriteScalar, heapGrow_of_full t.kind miss full]

end

/-- Settles O41: STH is the store of an integer value; an integer array and a scalar take it. -/
theorem sthOutcomes : Obligations.SthOutcomes := by
  intro s rs ra w a v
  rw [exec_sth]
  refine ⟨hasWord_xx rfl rs ra, fun hit => ⟨fun u cell => ?scalar, fun u l cell => ?array, ?wrongArray⟩,
    fun miss room => ?grows, fun miss full => ?full⟩
  case scalar | array => exact heapStore_of_cell w hit (by rw [cell]; rfl)
  case wrongArray =>
    rintro (cell | ⟨l, cell⟩) <;>
      exact heapStore_of_fault (e := .invalidHeapType) hit (by rw [cell]; rfl)
  case grows => exact heapStore_of_room w miss room
  case full => exact heapStore_of_full miss full

/-- Settles O42: as O41, with the store of a float value. -/
theorem sthfOutcomes : Obligations.SthfOutcomes := by
  intro s fs ra w a v
  rw [exec_sthf]
  refine ⟨hasWord_fx rfl fs ra, fun hit => ⟨fun u cell => ?scalar, fun u l cell => ?array, ?wrongArray⟩,
    fun miss room => ?grows, fun miss full => ?full⟩
  case scalar | array => exact heapStore_of_cell w hit (by rw [cell]; rfl)
  case wrongArray =>
    rintro (cell | ⟨l, cell⟩) <;>
      exact heapStore_of_fault (e := .invalidHeapType) hit (by rw [cell]; rfl)
  case grows => exact heapStore_of_room w miss room
  case full => exact heapStore_of_full miss full

end Sys2Proof.Machine
end

section
/-! PROOF. Stack-relative access (45_heap_stack_access.md R504-R508): the slot at `bp + x[ro]` read as a
kind, and replaced. -/

namespace Sys2Proof.Machine

/-! ### LDS and LDSF (R505, R506) -/

theorem exec_lds (rd ro : XReg) (s : State) : exec (.lds rd ro) s =
    orRaise s (stackGet s.stack (s.bp.toNat + (s.getX ro).toNat) .int) (s.setX rd) := rfl

theorem exec_ldsf (fd : FReg) (ro : XReg) (s : State) : exec (.ldsf fd ro) s =
    orRaise s (stackGet s.stack (s.bp.toNat + (s.getX ro).toNat) .flt) (s.setF fd) := rfl

theorem stackGet_of_slot {st : List Tagged} {i : Nat} {t : Tagged} (k : Kind) (slot : st[i]? = some t) :
    stackGet st i k = expectKind k t := by
  simp only [stackGet, stackRead, slot]

theorem stackGet_of_outOfRange {st : List Tagged} {i : Nat} (k : Kind) (out : st.length ≤ i) :
    stackGet st i k = .error .invalidStackAddr := by
  simp only [stackGet, stackRead, List.getElem?_eq_none out]

/-- Settles O44: the slot at the unwrapped sum decides both loads, and each raises on the other's kind. -/
theorem stackLoadOutcomes : Obligations.StackLoadOutcomes := by
  intro s rd ro fd ea
  rw [exec_lds, exec_ldsf]
  refine ⟨hasWord_xx rfl rd ro, hasWord_fx rfl fd ro, fun v slot => ?int, fun b slot => ?flt,
    fun out => ?outOfRange⟩
  case int => exact ⟨⟨_, orRaise_of_ok s _ (stackGet_of_slot .int slot), writesX_setX s rd v⟩,
    orRaise_of_error s _ (stackGet_of_slot .flt slot)⟩
  case flt => exact ⟨⟨_, orRaise_of_ok s _ (stackGet_of_slot .flt slot), writesF_setF s fd b⟩,
    orRaise_of_error s _ (stackGet_of_slot .int slot)⟩
  case outOfRange => exact ⟨orRaise_of_error s _ (stackGet_of_outOfRange .int out),
    orRaise_of_error s _ (stackGet_of_outOfRange .flt out)⟩

/-! ### STS and STSF (R507, R508) -/

/-- What STS and STSF do at a slot index with the tagged value they make. -/
def stackStore (s : State) (i : Nat) (t : Tagged) : Result :=
  orRaise s (stackWrite s.stack i t) s.setStack

theorem exec_sts (rs ro : XReg) (s : State) :
    exec (.sts rs ro) s = stackStore s (s.bp.toNat + (s.getX ro).toNat) (.int (s.getX rs)) := rfl

theorem exec_stsf (fs : FReg) (ro : XReg) (s : State) :
    exec (.stsf fs ro) s = stackStore s (s.bp.toNat + (s.getX ro).toNat) (.flt (s.getF fs)) := rfl

theorem stackStore_of_inRange {s : State} {i : Nat} (t : Tagged) (inRange : i < s.stack.length) :
    ∃ u, stackStore s i t = .next u ∧ u = { s with stack := u.stack } ∧
      u.stack.length = s.stack.length ∧ u.stack[i]? = some t ∧
      ∀ j, j ≠ i → u.stack[j]? = s.stack[j]? :=
  ⟨_, orRaise_of_ok s _ (if_pos inRange), rfl, List.length_set, List.getElem?_set_self inRange,
    fun _ other => List.getElem?_set_ne other.symm⟩

theorem stackStore_of_outOfRange {s : State} {i : Nat} (t : Tagged) (out : s.stack.length ≤ i) :
    stackStore s i t = .next (s.raise .invalidStackAddr) :=
  orRaise_of_error s _ (if_neg out.not_gt)

/-- Settles O45: both stores replace the slot at the unwrapped sum, if there is one. -/
theorem stackStoreOutcomes : Obligations.StackStoreOutcomes := by
  intro s rs ro fs ea
  rw [exec_sts, exec_stsf]
  refine ⟨hasWord_xx rfl rs ro, hasWord_fx rfl fs ro, fun inRange => ?_, fun out => ?_⟩
  · exact ⟨stackStore_of_inRange _ inRange, stackStore_of_inRange _ inRange⟩
  · exact ⟨stackStore_of_outOfRange _ out, stackStore_of_outOfRange _ out⟩

end Sys2Proof.Machine
end

section
/-! PROOF. Jumps (46_jumps.md R520-R526): JMP goes to its target register's value; the other six do so when
the Boolean test the machine makes comes out true, and keep the state when not. -/

namespace Sys2Proof.Machine

theorem exec_jmp (rt : XReg) (s : State) : exec (.jmp rt) s = .next { s with pc := s.getX rt } := rfl

/-! ### The conditional jumps, by the test each one makes -/

theorem exec_jo (rt : XReg) (s : State) : exec (.jo rt) s = .next (jumpIf s s.ovf rt) := rfl

theorem exec_jno (rt : XReg) (s : State) : exec (.jno rt) s = .next (jumpIf s (!s.ovf) rt) := rfl

theorem exec_jeq (rt a b : XReg) (s : State) :
    exec (.jeq rt a b) s = .next (jumpIf s (s.getX a == s.getX b) rt) := rfl

theorem exec_jne (rt a b : XReg) (s : State) :
    exec (.jne rt a b) s = .next (jumpIf s (s.getX a != s.getX b) rt) := rfl

theorem exec_jz (rt a : XReg) (s : State) :
    exec (.jz rt a) s = .next (jumpIf s (s.getX a == 0) rt) := rfl

theorem exec_jnz (rt a : XReg) (s : State) :
    exec (.jnz rt a) s = .next (jumpIf s (s.getX a != 0) rt) := rfl

/-- A test that decides the condition `p` makes the jump one that is taken exactly when `p` holds. -/
theorem jumpIf_of_iff (s : State) {taken : Bool} {p : Prop} [Decidable p] (rt : XReg)
    (decides : taken = true ↔ p) :
    jumpIf s taken rt = if p then { s with pc := s.getX rt } else s := by
  rcases jumpIf_cases s taken rt with ⟨yes, jumped⟩ | ⟨no, kept⟩
  · rw [jumped, if_pos (decides.1 yes)]
    rfl
  · rw [kept, if_neg (mt decides.2 (by simp [no]))]

/-- Settles O48: JMP is the write of pc, and each other jump's test decides the condition of its rule. -/
theorem jumpsComplete : Obligations.JumpsComplete := by
  intro s rt a b
  rw [exec_jo, exec_jno, exec_jeq, exec_jne, exec_jz, exec_jnz]
  refine ⟨⟨hasWord_x rfl rt, exec_jmp rt s⟩, ⟨hasWord_x rfl rt, congrArg _ ?jo⟩,
    ⟨hasWord_x rfl rt, congrArg _ ?jno⟩, ⟨hasWord_xxx rfl rt a b, congrArg _ ?jeq⟩,
    ⟨hasWord_xxx rfl rt a b, congrArg _ ?jne⟩, ⟨hasWord_xx rfl rt a, congrArg _ ?jz⟩,
    ⟨hasWord_xx rfl rt a, congrArg _ ?jnz⟩⟩
  case jo => exact jumpIf_of_iff s rt Iff.rfl
  case jno => exact jumpIf_of_iff s rt (by rw [Bool.not_eq_true'])
  case jeq => exact jumpIf_of_iff s rt beq_iff_eq
  case jne => exact jumpIf_of_iff s rt bne_iff_ne
  case jz => exact jumpIf_of_iff s rt beq_iff_eq
  case jnz => exact jumpIf_of_iff s rt bne_iff_ne

end Sys2Proof.Machine
end

section
/-! PROOF. POP and POPF (47_push_pop.md R542, R543): the pop of a slot of one kind, by the kind of the top
slot. -/

namespace Sys2Proof.Machine

theorem exec_pop (rd : XReg) (s : State) : exec (.pop rd) s = popKind s .int (·.setX rd ·) := rfl

theorem exec_popf (fd : FReg) (s : State) : exec (.popf fd) s = popKind s .flt (·.setF fd ·) := rfl

section
variable {s : State} {st : List Tagged} {t : Tagged} {k : Kind} (write : State → Word → State)

/-- The slot leaves the stack before its kind is checked (R205). -/
theorem popKind_of_top (k : Kind) (top : s.stack = st ++ [t]) :
    popKind s k write = orRaise (s.setStack st) (expectKind k t) (write (s.setStack st)) := by
  rw [popKind, top, stackPop_append]

theorem popKind_of_kind (top : s.stack = st ++ [t]) (same : t.kind = k) :
    popKind s k write = .next (write (s.setStack st) t.payload) :=
  (popKind_of_top write k top).trans (orRaise_of_ok _ _ (if_pos same))

theorem popKind_of_otherKind (top : s.stack = st ++ [t]) (other : t.kind ≠ k) :
    popKind s k write = .next ((s.setStack st).raise .typeMismatch) :=
  (popKind_of_top write k top).trans (orRaise_of_error _ _ (if_neg other))

theorem popKind_of_empty (k : Kind) (empty : s.stack = []) :
    popKind s k write = .next (s.raise .invalidStackAddr) := by
  rw [popKind, empty, stackPop_nil]

end

/-- Settles O47: POP pops an integer slot and POPF a float slot, so a top slot that one of them takes is a
mismatch to the other. -/
theorem popOutcomes : Obligations.PopOutcomes := by
  intro s rd fd st v
  rw [exec_pop, exec_popf]
  refine ⟨hasWord_x rfl rd, hasWord_f rfl fd, fun top => ?int, fun top => ?flt, fun empty => ?empty⟩
  case int => exact ⟨⟨_, popKind_of_kind _ top rfl, writesX_setX (s.setStack st) rd v⟩,
    popKind_of_otherKind _ top nofun⟩
  case flt => exact ⟨⟨_, popKind_of_kind _ top rfl, writesF_setF (s.setStack st) fd v⟩,
    popKind_of_otherKind _ top nofun⟩
  case empty => exact ⟨popKind_of_empty _ .int empty, popKind_of_empty _ .flt empty⟩

end Sys2Proof.Machine
end

section
/-! PROOF. Call and return (48_call_ret.md R560, R561): a CALL has room for its whole frame or faults; a RET
is two pops from the truncated stack, the second made only when the first completed. -/

namespace Sys2Proof.Machine

/-! ### CALL (R560) -/

theorem exec_call_of_room {s : State} (rt : XReg)
    (room : fits s.params.stackCap (s.stack.length + 2) = true) :
    exec (.call rt) s = .next ((pushFrame s).setPc (s.getX rt)) := if_pos room

theorem exec_call_of_full {s : State} (rt : XReg)
    (full : fits s.params.stackCap (s.stack.length + 2) = false) :
    exec (.call rt) s = .next (s.raise .resourceExhausted) := if_neg (by simp [full])

theorem pushFrame_stack (s : State) : (pushFrame s).stack = s.stack ++ [.int s.bp, .int s.pc] := rfl

/-- The callee's bp is the index of the frame's upper slot, which a word holds. -/
theorem pushFrame_bp_toNat {s : State} (small : s.stack.length + 1 < 2 ^ 64) :
    (pushFrame s).bp.toNat = (pushFrame s).stack.length - 1 := by
  have top_index : (pushFrame s).stack.length - 1 = s.stack.length + 1 := by simp [pushFrame_stack]
  rw [top_index]
  exact Nat.mod_eq_of_lt small

/-- Settles O49: the room for two slots decides between the frame with the jump and the fault. -/
theorem callOutcomes : Obligations.CallOutcomes := by
  intro s rt small
  refine ⟨hasWord_x rfl rt, fun room => ?frame, fun full => exec_call_of_full rt full⟩
  case frame => exact ⟨_, exec_call_of_room rt room, pushFrame_stack s, pushFrame_bp_toNat small, rfl, rfl⟩

/-! ### One pop of RET, by the top slot -/

section
variable {s : State} {st : List Tagged} (write : State → Word → State)

theorem popLink_of_int {v : Word} (top : s.stack = st ++ [.int v]) :
    popLink s write = (write (s.setStack st) v, true) := by
  rw [popLink, top, stackPop_append]; rfl

theorem popLink_of_flt {f : Word} (top : s.stack = st ++ [.flt f]) :
    popLink s write = ((s.setStack st).raise .typeMismatch, false) := by
  rw [popLink, top, stackPop_append]; rfl

theorem popLink_of_empty (empty : s.stack = []) :
    popLink s write = (s.raise .invalidStackAddr, false) := by
  rw [popLink, empty, stackPop_nil]

end

/-! ### RET (R561) -/

/-- RET's first step: the stack cut off above the slot that bp points at (R207). -/
def truncateToBp (s : State) : State := s.setStack (s.stack.take (s.bp.toNat + 1))

section
variable {s u : State}

theorem exec_ret_of_popped (first : popLink (truncateToBp s) State.setPc = (u, true)) :
    exec .ret s = .next (popLink u State.setBp).1 := by
  rw [truncateToBp] at first
  simp only [exec, execRet, stackTruncate, first]

theorem exec_ret_of_fault (first : popLink (truncateToBp s) State.setPc = (u, false)) :
    exec .ret s = .next u := by
  rw [truncateToBp] at first
  simp only [exec, execRet, stackTruncate, first]

/-- An integer on top is restored into pc; the slots below it are left to the pop of bp. -/
theorem exec_ret_of_int {st : List Tagged} {p : Word}
    (top : s.stack.take (s.bp.toNat + 1) = st ++ [.int p]) :
    exec .ret s = .next (popLink ((s.setStack st).setPc p) State.setBp).1 :=
  exec_ret_of_popped (popLink_of_int (s := truncateToBp s) _ top)

end

/-- Settles O50, by the top slot of the truncated stack, and under an integer by the slot below it. -/
theorem retOutcomes : Obligations.RetOutcomes := by
  intro s st b p f
  refine ⟨hasWord_n rfl, fun link => ?intInt, fun link => ?fltInt, fun lone => ?intAlone,
    fun top => ?flt, fun empty => ?empty⟩
  case intInt =>
    rw [exec_ret_of_int (link.trans (List.append_cons ..)), popLink_of_int (st := st) (v := b) _ rfl]
    rfl
  case fltInt =>
    rw [exec_ret_of_int (link.trans (List.append_cons ..)), popLink_of_flt (st := st) (f := f) _ rfl]
    rfl
  case intAlone =>
    rw [exec_ret_of_int (st := []) lone, popLink_of_empty _ rfl]
    rfl
  case flt => exact exec_ret_of_fault (popLink_of_flt (s := truncateToBp s) _ top)
  case empty =>
    have truncated : truncateToBp s = s := by
      rw [truncateToBp, empty, List.take_nil, ← empty]; rfl
    exact exec_ret_of_fault (truncated.symm ▸ popLink_of_empty _ empty)

end Sys2Proof.Machine
end

section
/-! PROOF. Encoding (30_encoding.md): every instruction decodes from its word and, but for IN and OUT, from no
other; and the decoder's check list (R306) answers as the machine-readable opcode table does. -/

namespace Sys2Proof.Machine

/-! ### The words of the remaining formats -/

/-- The word of an instruction with three float registers. -/
theorem hasWord_fff {mk : FReg → FReg → FReg → Instr} {opc : BitVec 8}
    (hs : opcodeShape opc = some (.fff mk)) (a b c : FReg) :
    HasWord (mk a b c) opc a.spec b.spec c.spec 0 :=
  hasWord_of_shape (.fff mk) hs rfl (by simp [buildInstr])

/-- The word of an instruction with two float registers and an immediate. -/
theorem hasWord_ffi {mk : FReg → FReg → Word → Instr} {opc : BitVec 8}
    (hs : opcodeShape opc = some (.ffi mk)) (a b : FReg) (v : Word) :
    HasWord (mk a b v) opc a.spec b.spec 0 v :=
  hasWord_of_shape (.ffi mk) hs rfl (by simp [buildInstr])

/-- The word, with every free bit 0, of an instruction whose format examines no field (R310). -/
theorem hasWord_any {i : Instr} {opc : BitVec 8} (hs : opcodeShape opc = some (.any i)) :
    HasWord i opc 0 0 0 0 :=
  hasWord_of_shape (.any i) hs rfl rfl

/-- Settles O1: the encoder writes the word of the instruction's format, which decodes to it. -/
theorem decodeInvertsEncode : Obligations.DecodeInvertsEncode := by
  intro i
  cases i with
  | nop | halt | ret => exact hasWord_n rfl
  | inp | out => exact hasWord_any rfl
  | ldi a v => exact hasWord_xi rfl a v
  | ldf a v => exact hasWord_fi rfl a v
  | mov a b | not a b | neg a b | shl a b | shr a b | ldh a b | sth a b | lds a b | sts a b | jz a b
  | jnz a b => exact hasWord_xx rfl a b
  | movf a b | fneg a b => exact hasWord_ff rfl a b
  | ldhf a b | sthf a b | ldsf a b | stsf a b => exact hasWord_fx rfl a b
  | add a b c | sub a b c | mul a b c | div a b c | mod a b c | and a b c | or a b c | xor a b c
  | jeq a b c | jne a b c => exact hasWord_xxx rfl a b c
  | addi a b v | subi a b v | muli a b v => exact hasWord_xxi rfl a b v
  | fadd a b c | fsub a b c | fmul a b c | fdiv a b c => exact hasWord_fff rfl a b c
  | faddi a b v | fsubi a b v | fmuli a b v | fdivi a b v => exact hasWord_ffi rfl a b v
  | jmp a | jo a | jno a | push a | pop a | call a | syscall a => exact hasWord_x rfl a
  | pushf a | popf a => exact hasWord_f rfl a

end Sys2Proof.Machine

namespace Sys2Proof

/-! ### What decodes to an instruction (R306) -/

theorem decodeFields_of_shape {r : Fields} {sh : Shape} (hs : opcodeShape r.opc = some sh)
    (hz : unusedClear r sh = true) :
    decodeFields r = (buildInstr r sh).elim .invalidReg .ok := by
  rw [decodeFields, hs]
  simp only [hz, if_true]
  cases buildInstr r sh <;> rfl

/-- A word whose opcode has no row, or whose unused bits are not all 0, is illegal. -/
theorem decodeFields_of_noShape {r : Fields}
    (h : ∀ sh, opcodeShape r.opc = some sh → unusedClear r sh = false) :
    decodeFields r = .illegalInstruction := by
  rw [decodeFields]
  cases hs : opcodeShape r.opc with
  | none => rfl
  | some sh => simp [h sh hs]

/-- Fields decode to an instruction when their opcode's row passes the zero checks and builds it. -/
theorem decodeFields_eq_ok {r : Fields} {i : Instr} (h : decodeFields r = .ok i) :
    ∃ sh, opcodeShape r.opc = some sh ∧ unusedClear r sh = true ∧ buildInstr r sh = some i := by
  by_cases legal : ∃ sh, opcodeShape r.opc = some sh ∧ unusedClear r sh = true
  · obtain ⟨sh, hs, hz⟩ := legal
    refine ⟨sh, hs, hz, ?_⟩
    rw [decodeFields_of_shape hs hz] at h
    cases hb : buildInstr r sh with
    | none => rw [hb] at h; cases h
    | some j => rw [hb] at h; cases h; rfl
  · rw [decodeFields_of_noShape fun sh hs => by simpa using fun hz => legal ⟨sh, hs, hz⟩] at h
    cases h

/-! ### One word per instruction (R311) -/

/-- The encoder writes the instructions of a row into the fields that the row's format uses, and nothing
into any other. Format X leaves its bits free, so nothing is asked of it (R310). -/
def Shape.EncodedBy (opc : BitVec 8) : Shape → Prop
  | .n i => encodeFields i = .op opc
  | .x mk => ∀ a, encodeFields (mk a) = .regs opc a.spec 0 0
  | .f mk => ∀ a, encodeFields (mk a) = .regs opc a.spec 0 0
  | .xx mk => ∀ a b, encodeFields (mk a b) = .regs opc a.spec b.spec 0
  | .ff mk => ∀ a b, encodeFields (mk a b) = .regs opc a.spec b.spec 0
  | .fx mk => ∀ a b, encodeFields (mk a b) = .regs opc a.spec b.spec 0
  | .xxx mk => ∀ a b c, encodeFields (mk a b c) = .regs opc a.spec b.spec c.spec
  | .fff mk => ∀ a b c, encodeFields (mk a b c) = .regs opc a.spec b.spec c.spec
  | .xi mk => ∀ a v, encodeFields (mk a v) = .immediate opc a.spec 0 v
  | .fi mk => ∀ a v, encodeFields (mk a v) = .immediate opc a.spec 0 v
  | .xxi mk => ∀ a b v, encodeFields (mk a b v) = .immediate opc a.spec b.spec v
  | .ffi mk => ∀ a b v, encodeFields (mk a b v) = .immediate opc a.spec b.spec v
  | .any i => i = .inp ∨ i = .out

theorem eq_ofNat_of_toNat_eq {w n : Nat} {v : BitVec w} (h : v.toNat = n) : v = BitVec.ofNat w n := by
  rw [← h, BitVec.ofNat_toNat, BitVec.setWidth_eq]

/-- The encoder and the opcode map are transcriptions of one table (R305). -/
theorem opcodeShape_encodedBy {opc : BitVec 8} {sh : Shape} (h : opcodeShape opc = some sh) :
    sh.EncodedBy opc := by
  unfold opcodeShape at h
  split at h
  case h_55 => cases h
  all_goals
    next row =>
      cases h
      obtain rfl := eq_ofNat_of_toNat_eq row
      simp [Shape.EncodedBy, encodeFields]

theorem XReg.ofSpec_eq_some_iff (v : BitVec 4) (r : XReg) : XReg.ofSpec v = some r ↔ v = r.spec :=
  ⟨XReg.spec_of_ofSpec v r, fun h => h ▸ XReg.ofSpec_spec r⟩

theorem FReg.ofSpec_eq_some_iff (v : BitVec 4) (r : FReg) : FReg.ofSpec v = some r ↔ v = r.spec :=
  ⟨FReg.spec_of_ofSpec v r, fun h => h ▸ FReg.ofSpec_spec r⟩

/-- What a row builds from fields that pass its zero checks is encoded by those fields. -/
theorem encodeFields_of_buildInstr {r : Fields} {sh : Shape} {i : Instr} (henc : sh.EncodedBy r.opc)
    (hz : unusedClear r sh = true) (hb : buildInstr r sh = some i) (hin : i ≠ .inp) (hout : i ≠ .out) :
    encodeFields i = r := by
  obtain ⟨opc, fa, fb, fc, rsv, imm⟩ := r
  cases sh <;>
    simp only [unusedClear, buildInstr, Option.bind_eq_bind, Option.bind_eq_some_iff, Option.some.injEq,
      XReg.ofSpec_eq_some_iff, FReg.ofSpec_eq_some_iff, Bool.and_eq_true, beq_iff_eq] at hz hb
  case n =>
    obtain ⟨⟨⟨⟨rfl, rfl⟩, rfl⟩, rfl⟩, rfl⟩ := hz
    exact hb ▸ henc
  case x | f =>
    obtain ⟨⟨⟨rfl, rfl⟩, rfl⟩, rfl⟩ := hz
    obtain ⟨a, rfl, rfl⟩ := hb
    exact henc a
  case xx | ff | fx =>
    obtain ⟨⟨rfl, rfl⟩, rfl⟩ := hz
    obtain ⟨a, rfl, b, rfl, rfl⟩ := hb
    exact henc a b
  case xxx | fff =>
    obtain ⟨rfl, rfl⟩ := hz
    obtain ⟨a, rfl, b, rfl, c, rfl, rfl⟩ := hb
    exact henc a b c
  case xi | fi =>
    obtain ⟨⟨rfl, rfl⟩, rfl⟩ := hz
    obtain ⟨a, rfl, rfl⟩ := hb
    exact henc a imm
  case xxi | ffi =>
    obtain ⟨rfl, rfl⟩ := hz
    obtain ⟨a, rfl, b, rfl, rfl⟩ := hb
    exact henc a b imm
  case any => exact absurd (hb ▸ henc) (not_or.2 ⟨hin, hout⟩)

/-- Settles O2: a word is known by its fields, and those of a word that decodes are the encoder's. -/
theorem legalWordIsUnique : Obligations.LegalWordIsUnique := by
  intro w i h hin hout
  obtain ⟨sh, hs, hz, hb⟩ := decodeFields_eq_ok h
  refine fieldsOf_injective ?_
  rw [fieldsOf_encode, encodeFields_of_buildInstr (opcodeShape_encodedBy hs) hz hb hin hout]

/-! ### The rows of the opcode table, by the shape of their opcode -/

/-- The bits that a format fixes: the opcode and every field the format does not use (R302, R308). -/
def Shape.fixedMask : Shape → Fields
  | .n _ => ⟨BitVec.allOnes 8, BitVec.allOnes 4, BitVec.allOnes 4, BitVec.allOnes 4, BitVec.allOnes 44,
      BitVec.allOnes 64⟩
  | .x _ | .f _ =>
    ⟨BitVec.allOnes 8, 0, BitVec.allOnes 4, BitVec.allOnes 4, BitVec.allOnes 44, BitVec.allOnes 64⟩
  | .xx _ | .ff _ | .fx _ =>
    ⟨BitVec.allOnes 8, 0, 0, BitVec.allOnes 4, BitVec.allOnes 44, BitVec.allOnes 64⟩
  | .xxx _ | .fff _ => ⟨BitVec.allOnes 8, 0, 0, 0, BitVec.allOnes 44, BitVec.allOnes 64⟩
  | .xi _ | .fi _ => ⟨BitVec.allOnes 8, 0, BitVec.allOnes 4, BitVec.allOnes 4, BitVec.allOnes 44, 0⟩
  | .xxi _ | .ffi _ => ⟨BitVec.allOnes 8, 0, 0, BitVec.allOnes 4, BitVec.allOnes 44, 0⟩
  | .any _ => ⟨BitVec.allOnes 8, 0, 0, 0, 0, 0⟩

/-- Fields with nothing but bank bits. -/
def Fields.banks (a b c : BitVec 4) : Fields := ⟨0, a, b, c, 0, 0⟩

/-- The bank bits of the register fields that a format uses (R309). -/
def Shape.bankMask : Shape → Fields
  | .n _ | .any _ => .banks 0 0 0
  | .x _ | .f _ | .xi _ | .fi _ => .banks 8 0 0
  | .xx _ | .ff _ | .fx _ | .xxi _ | .ffi _ => .banks 8 8 0
  | .xxx _ | .fff _ => .banks 8 8 8

/-- The bank bits that a format's operands require: 1 for a float register (R301, R304). -/
def Shape.bankBits : Shape → Fields
  | .n _ | .any _ | .x _ | .xi _ | .xx _ | .xxi _ | .xxx _ => .banks 0 0 0
  | .f _ | .fi _ | .fx _ => .banks 8 0 0
  | .ff _ | .ffi _ => .banks 8 8 0
  | .fff _ => .banks 8 8 8

theorem and_fixedMask_eq_op_iff (r : Fields) (opc : BitVec 8) (sh : Shape) :
    r.and sh.fixedMask = .op opc ↔ r.opc = opc ∧ unusedClear r sh = true := by
  cases sh <;> simp [-BitVec.reduceAllOnes, Shape.fixedMask, Fields.and, Fields.op, unusedClear] <;> tauto

theorem XReg.isSome_ofSpec_iff (v : BitVec 4) : (XReg.ofSpec v).isSome = true ↔ v &&& 8#4 = 0#4 := by
  revert v; decide

theorem FReg.isSome_ofSpec_iff (v : BitVec 4) : (FReg.ofSpec v).isSome = true ↔ v &&& 8#4 = 8#4 := by
  revert v; decide

theorem option_any_const {α : Type} (x : Option α) (b : Bool) : x.any (fun _ => b) = (x.isSome && b) := by
  cases x <;> simp

theorem and_bankMask_eq_bankBits_iff (r : Fields) (sh : Shape) :
    r.and sh.bankMask = sh.bankBits ↔ (buildInstr r sh).isSome = true := by
  cases sh <;>
    simp [Shape.bankMask, Shape.bankBits, Fields.banks, Fields.and, buildInstr, Option.isSome_bind, option_any_const,
      ← XReg.isSome_ofSpec_iff, ← FReg.isSome_ofSpec_iff]

/-- The opcode of a row. -/
def OpcodeRow.opcode (row : OpcodeRow) : BitVec 8 := (fieldsOf row.pattern).opc

/-- The row's match, mask and bank bits are those of a format, with the row's opcode. -/
abbrev OpcodeRow.HasFormat (row : OpcodeRow) (sh : Shape) : Prop :=
  fieldsOf row.pattern = .op row.opcode ∧ fieldsOf row.mask = sh.fixedMask ∧
    fieldsOf row.bankMask = sh.bankMask ∧ fieldsOf row.bankBits = sh.bankBits

/-- Every row has the format that the opcode map gives its opcode. -/
theorem exists_shape_of_row {row : OpcodeRow} (h : row ∈ opcodeTable) :
    ∃ sh, opcodeShape row.opcode = some sh ∧ row.HasFormat sh := by
  have checked : ∀ row ∈ opcodeTable,
      (opcodeShape row.opcode).any (fun sh => decide (row.HasFormat sh)) = true := by decide +kernel
  simpa using (Option.any_eq_true _ _).1 (checked row h)

/-- Every opcode of the opcode map has a row. -/
theorem exists_row_of_shape {opc : BitVec 8} {sh : Shape} (h : opcodeShape opc = some sh) :
    ∃ row ∈ opcodeTable, row.opcode = opc := by
  have checked : ∀ opc : BitVec 8, (opcodeShape opc).isSome = true →
      ∃ row ∈ opcodeTable, row.opcode = opc := by decide +kernel
  exact checked opc (by rw [h]; rfl)

/-- No two rows have the same opcode. -/
theorem opcode_injOn {row row' : OpcodeRow} (h : row ∈ opcodeTable) (h' : row' ∈ opcodeTable)
    (e : row.opcode = row'.opcode) : row = row' := by
  have distinct : (opcodeTable.map OpcodeRow.opcode).Nodup := by decide +kernel
  exact List.inj_on_of_nodup_map distinct h h' e

section
variable {row : OpcodeRow} {sh : Shape} (h : row.HasFormat sh) (w : InstrWord)
include h

theorem OpcodeRow.HasFormat.shapeOk_iff :
    row.shapeOk w = true ↔ (fieldsOf w).opc = row.opcode ∧ unusedClear (fieldsOf w) sh = true := by
  obtain ⟨pattern, mask, -, -⟩ := h
  rw [OpcodeRow.shapeOk_iff, mask, pattern, and_fixedMask_eq_op_iff]

theorem OpcodeRow.HasFormat.banksOk_eq : row.banksOk w = (buildInstr (fieldsOf w) sh).isSome := by
  obtain ⟨-, -, bankMask, bankBits⟩ := h
  rw [Bool.eq_iff_iff, OpcodeRow.banksOk_iff, bankMask, bankBits, and_bankMask_eq_bankBits_iff]

end

/-- Settles O4: a row's shape fixes the opcode, which no other row has. -/
theorem opcodeRowsAreDisjoint : Obligations.OpcodeRowsAreDisjoint := by
  intro w row h row' h' ok ok'
  obtain ⟨_, -, format⟩ := exists_shape_of_row h
  obtain ⟨_, -, format'⟩ := exists_shape_of_row h'
  obtain ⟨opc, -⟩ := (format.shapeOk_iff w).1 ok
  obtain ⟨opc', -⟩ := (format'.shapeOk_iff w).1 ok'
  exact opcode_injOn h h' (opc.symm.trans opc')

/-! ### The decoder's three answers -/

/-- The word has the shape of a row of the table and, or not, its banks, exactly when the opcode map gives
its opcode a format whose zero checks it passes and, or not, whose bank checks. -/
theorem exists_row_iff_exists_shape (w : InstrWord) (p : Bool → Prop) :
    (∃ row ∈ opcodeTable, row.shapeOk w = true ∧ p (row.banksOk w)) ↔
      ∃ sh, opcodeShape (fieldsOf w).opc = some sh ∧ unusedClear (fieldsOf w) sh = true ∧
        p (buildInstr (fieldsOf w) sh).isSome := by
  constructor
  · rintro ⟨row, h, shape, banks⟩
    obtain ⟨sh, hs, format⟩ := exists_shape_of_row h
    obtain ⟨opc, clear⟩ := (format.shapeOk_iff w).1 shape
    exact ⟨sh, opc ▸ hs, clear, format.banksOk_eq w ▸ banks⟩
  · rintro ⟨sh, hs, clear, built⟩
    obtain ⟨row, h, opc⟩ := exists_row_of_shape hs
    obtain ⟨sh', hs', format⟩ := exists_shape_of_row h
    obtain rfl : sh = sh' := Option.some.inj (hs.symm.trans (opc ▸ hs'))
    exact ⟨row, h, (format.shapeOk_iff w).2 ⟨opc.symm, clear⟩, (format.banksOk_eq w).symm ▸ built⟩

/-- A word that has a row's shape decodes by that row's bank checks; any other word is illegal. -/
theorem decode_cases (w : InstrWord) :
    (∃ sh, opcodeShape (fieldsOf w).opc = some sh ∧ unusedClear (fieldsOf w) sh = true ∧
      decode w = (buildInstr (fieldsOf w) sh).elim .invalidReg .ok) ∨
    ((∀ sh, opcodeShape (fieldsOf w).opc = some sh → unusedClear (fieldsOf w) sh = false) ∧
      decode w = .illegalInstruction) := by
  by_cases legal : ∃ sh, opcodeShape (fieldsOf w).opc = some sh ∧ unusedClear (fieldsOf w) sh = true
  · obtain ⟨sh, hs, clear⟩ := legal
    exact .inl ⟨sh, hs, clear, decodeFields_of_shape hs clear⟩
  · have unshaped : ∀ sh, opcodeShape (fieldsOf w).opc = some sh → unusedClear (fieldsOf w) sh = false :=
      fun sh hs => by simpa using fun clear => legal ⟨sh, hs, clear⟩
    exact .inr ⟨unshaped, decodeFields_of_noShape unshaped⟩

/-- Settles O3: the rows of the table and the formats of the opcode map ask the same of a word, and the
decoder's answer is read from the format. -/
theorem decoderFollowsTheTable : Obligations.DecoderFollowsTheTable := by
  intro w
  have wellFormed : wellFormedWord w = true ↔
      ∃ row ∈ opcodeTable, row.shapeOk w = true ∧ row.banksOk w = true := by
    simp only [wellFormedWord, List.any_eq_true, Bool.and_eq_true]
  have unshaped : (∀ row ∈ opcodeTable, row.shapeOk w = false) ↔
      ¬∃ row ∈ opcodeTable, row.shapeOk w = true ∧ True := by
    simp
  rw [wellFormed, unshaped, exists_row_iff_exists_shape w (· = true),
    exists_row_iff_exists_shape w fun _ => True, exists_row_iff_exists_shape w (· = false)]
  rcases decode_cases w with ⟨sh, hs, clear, answer⟩ | ⟨none_clear, answer⟩ <;> rw [answer]
  · simp only [hs, Option.some.injEq, exists_eq_left', clear]
    cases buildInstr (fieldsOf w) sh <;> simp
  · have not_clear : ∀ sh q, ¬(opcodeShape (fieldsOf w).opc = some sh ∧
        unusedClear (fieldsOf w) sh = true ∧ q) := by
      rintro sh q ⟨hs, clear, -⟩
      rw [none_clear sh hs] at clear
      cases clear
    simpa [not_clear] using none_clear

/-- Settles O5: each word's fields are computed and checked against one row. -/
theorem writtenOutWordsDecode : Obligations.WrittenOutWordsDecode := by
  refine ⟨?_, ?_, ?_, ?_, ?_, ?_, ?_, ?_⟩ <;> rfl

end Sys2Proof
end

section
/-! PROOF. What every step and every host operation keep (10_state.md section 6, 20_memory.md sections 2 to
4, 60_exceptions.md sections 2 and 3): the invariant of the state, and the capacities. -/

namespace Sys2Proof.Machine

/-! ### A legal STATE and CAUSE -/

theorem FaultKind.ofCode_code (k : FaultKind) : FaultKind.ofCode k.code = some k := by cases k <;> rfl

theorem statusLegal_of_faulted {s : State} {k : FaultKind} (hr : s.runState = .faulted)
    (hc : s.cause = k.code) : s.statusLegal := by
  rw [State.statusLegal, if_pos hr, hc, FaultKind.ofCode_code]
  rfl

theorem statusLegal_of_cause_zero {s : State} (hr : s.runState ≠ .faulted) (hc : s.cause = 0) :
    s.statusLegal := by
  rwa [State.statusLegal, if_neg hr]

theorem State.statusLegal.cause_zero {s : State} (h : s.statusLegal) (hr : s.runState ≠ .faulted) :
    s.cause = 0 := by
  rwa [State.statusLegal, if_neg hr] at h

/-- What leaves the heap, STATE, CAUSE and CODE as they were keeps the invariant. -/
theorem State.Inv.of_eq {s t : State} (h : s.Inv) (hheap : t.heap = s.heap)
    (hrun : t.runState = s.runState) (hcause : t.cause = s.cause) (hcode : t.code = s.code) : t.Inv := by
  obtain ⟨wf, status, fits⟩ := h
  refine ⟨hheap ▸ wf, ?_, ?_⟩
  · rwa [State.statusLegal, hrun, hcause]
  · rwa [State.codeFits, hcode]

theorem State.Inv.setHeap {s : State} {h : Heap} (hs : s.Inv) (w : Memory.wf h) : (s.setHeap h).Inv :=
  ⟨w, hs.statusLegal, hs.codeFits⟩

theorem State.Inv.raise {s : State} (h : s.Inv) (k : FaultKind) : (s.raise k).Inv :=
  ⟨h.heapWf, statusLegal_of_faulted rfl rfl, h.codeFits⟩

theorem State.Inv.halt {s : State} (h : s.Inv) : s.halt.Inv :=
  ⟨h.heapWf, statusLegal_of_cause_zero nofun rfl, h.codeFits⟩

/-- The hook stops a run in progress, whose CAUSE is 0. -/
theorem State.Inv.stop {s : State} (h : s.Inv) (hr : s.runState = .running) : s.stop.Inv :=
  ⟨h.heapWf, statusLegal_of_cause_zero nofun (h.statusLegal.cause_zero (by rw [hr]; decide)), h.codeFits⟩

/-! ### Instructions and steps -/

theorem Effect.inv {i : Instr} {s t : State} (h : Effect i s t) (hs : s.Inv) : t.Inv := by
  cases h with
  | same | setX | setF | overflow | jump | stackStore | push | pop | popF | call | ret =>
    exact hs.of_eq rfl rfl rfl rfl
  | halt => exact hs.halt
  | raise k => exact hs.raise k
  | popMismatch st t =>
    have popped : (s.setStack st).Inv := hs.of_eq rfl rfl rfl rfl
    exact popped.raise _
  | retFault st p k =>
    have popped : State.Inv { s with stack := st, pc := p } := hs.of_eq rfl rfl rfl rfl
    exact popped.raise k
  | heapLoad a d v h hr | heapLoadF a d v h hr =>
    obtain ⟨w, -⟩ := heapReadScalar_spec hs.heapWf hr
    exact (hs.setHeap w).of_eq rfl rfl rfl rfl
  | heapStore a t h hr =>
    obtain ⟨w, -⟩ := heapWriteScalar_spec hs.heapWf hr
    exact hs.setHeap w

theorem applyWrites_inv {s : State} (hs : s.Inv) (ws : List SysWrite) : (applyWrites s ws).Inv := by
  obtain ⟨hcode, -, hrun, hcause, -, -⟩ := applyWrites_frame s ws
  have heapOnly : ((applyWrites s ws).setHeap s.heap).Inv := hs.of_eq rfl hrun hcause hcode
  exact heapOnly.setHeap (applyWrites_wf hs.heapWf ws)

theorem foldReply_inv {s : State} (hs : s.Inv) (r : SysReply) : (foldReply s r).Inv := by
  have written : (applyWrites s r.writes).Inv := applyWrites_inv hs r.writes
  rcases foldReply_cases s r with ⟨_, e⟩ | ⟨_, e⟩ | ⟨k, _, e⟩ <;> rw [e]
  · exact written
  · exact written.halt
  · exact written.raise k

theorem exec_inv {i : Instr} {s t : State} (h : exec i s = .next t) (hs : s.Inv) : t.Inv := by
  cases hi : isSyscall i with
  | false => exact (exec_effect hi h).inv hs
  | true =>
    obtain ⟨ri, rfl⟩ := exists_eq_syscall hi
    rcases exec_syscall_next h with ⟨_, rfl⟩ | ⟨_, r, _, _, rfl⟩
    · exact hs.raise _
    · have counted : State.Inv { s with sysCalls := s.sysCalls + 1 } := hs.of_eq rfl rfl rfl rfl
      exact foldReply_inv counted r

theorem FetchEffect.inv {s t : State} (h : FetchEffect s t) (hs : s.Inv) : t.Inv := by
  have fetched : (s.setPc (s.pc + 1)).Inv := hs.of_eq rfl rfl rfl rfl
  rcases h with rfl | ⟨_, rfl | rfl | ⟨i, h⟩⟩
  · exact hs.raise _
  · exact fetched.raise _
  · exact fetched.raise _
  · exact exec_inv h fetched

/-- Settles O14: waiting, the hook, fetch, decode and every instruction keep the invariant. -/
theorem everyStepKeepsInv : Obligations.EveryStepKeepsInv := by
  intro s t hs h
  have counted : s.countHook.Inv := hs.of_eq rfl rfl rfl rfl
  rcases step_effect h with ⟨_, rfl⟩ | ⟨hr, rfl | ⟨u, rfl | rfl, hu⟩⟩
  · exact hs
  · exact counted.stop hr
  · exact hu.inv hs
  · exact hu.inv counted

/-! ### Construction, the resets and the host's operations -/

/-- An idle state with CAUSE 0, a canonical heap and code that fits, however it came about. -/
theorem inv_of_idle {s : State} (hr : s.runState = .idle) (hc : s.cause = 0) (w : Memory.wf s.heap)
    (fits : s.codeFits) : s.Inv :=
  ⟨w, statusLegal_of_cause_zero (by rw [hr]; decide) hc, fits⟩

theorem codeFits_of_nil {s : State} (h : s.code = []) : s.codeFits := by simp [State.codeFits, h]

/-- Settles O15. -/
theorem resetMeetsInv : Obligations.ResetMeetsInv :=
  inv_of_idle rfl rfl Memory.wf_empty (codeFits_of_nil rfl)

theorem loadSegments_inv {s : State} {code : List InstrWord} {heap : Option (List HeapCell)}
    {stack : Option (List Tagged)} (hs : s.Inv) (hcode : code.length ≤ 2 ^ 64 - 1) :
    (loadSegments s code heap stack).Inv := by
  refine ⟨?_, hs.statusLegal, hcode⟩
  cases heap with
  | none => exact hs.heapWf
  | some cells => exact Heap.ofList_wf cells

theorem startRun_inv {s : State} (hs : s.Inv) : (startRun s).Inv :=
  ⟨hs.heapWf, statusLegal_of_cause_zero nofun rfl, hs.codeFits⟩

/-- What an operation that is not refused makes of a state (70_reset_and_hazards.md R706). -/
theorem hostOp_next_cases {op : HostOp} {s t : State} (h : hostOp op s = .next t) :
    s.runState ≠ .running ∧
    ((∃ code heap stack, op = .load code heap stack ∧ loadFits s code heap stack = true ∧
        t = loadSegments s code heap stack) ∨
      (op = .cpuReset ∧ t = cpuReset s) ∨ (op = .vmReset ∧ t = vmReset s) ∨
      (op = .run ∧ t = startRun s)) := by
  unfold hostOp at h
  split at h
  case isTrue => cases h
  case isFalse idle =>
    refine ⟨idle, ?_⟩
    cases op with
    | load code heap stack =>
      simp only at h
      split at h
      case isTrue hfits => cases h; exact .inl ⟨_, _, _, rfl, hfits, rfl⟩
      case isFalse => cases h
    | cpuReset => cases h; exact .inr (.inl ⟨rfl, rfl⟩)
    | vmReset => cases h; exact .inr (.inr (.inl ⟨rfl, rfl⟩))
    | run => cases h; exact .inr (.inr (.inr ⟨rfl, rfl⟩))

theorem loadFits_iff {s : State} {code : List InstrWord} {heap : Option (List HeapCell)}
    {stack : Option (List Tagged)} :
    loadFits s code heap stack = true ↔ code.length ≤ 2 ^ 64 - 1 ∧
      (∀ h, heap = some h → fits s.params.heapCap h.length = true) ∧
      ∀ st, stack = some st → fits s.params.stackCap st.length = true := by
  simp only [loadFits, Bool.and_eq_true, decide_eq_true_eq, Option.all_eq_true, and_assoc]

/-- Settles O16: `load` checks the length of the code and builds a canonical heap, the resets leave an idle
state, and `run` sets CAUSE 0 with RUNNING. -/
theorem hostOperationsKeepInv : Obligations.HostOperationsKeepInv := by
  intro op s t hs h
  obtain ⟨-, ⟨_, _, _, -, loads, rfl⟩ | ⟨-, rfl⟩ | ⟨-, rfl⟩ | ⟨-, rfl⟩⟩ := hostOp_next_cases h
  · obtain ⟨hcode, -⟩ := loadFits_iff.1 loads
    exact loadSegments_inv hs hcode
  · exact inv_of_idle rfl rfl hs.heapWf hs.codeFits
  · exact inv_of_idle rfl rfl Memory.wf_empty (codeFits_of_nil rfl)
  · exact startRun_inv hs

/-! ### The capacities (00_scope.md R6) -/

theorem fits_of_le {cap : Option Nat} {m n : Nat} (h : fits cap n = true) (le : m ≤ n) :
    fits cap m = true := by
  cases cap with
  | none => rfl
  | some c =>
    simp only [fits, decide_eq_true_eq] at h ⊢
    omega

/-- Growth never passes the capacity (R210). -/
theorem heapGrow_fits {cap : Option Nat} {h g : Heap} {a : Nat} {k : Kind} {b : Bool}
    (hf : fits cap h.len = true) (e : heapGrow cap h a k = .ok (g, b)) : fits cap g.len = true := by
  rcases heapGrow_cases cap h a k with ⟨_, e'⟩ | ⟨_, room, e'⟩ | ⟨_, _, e'⟩ <;> rw [e'] at e <;> cases e
  · exact hf
  · exact room

/-- A scalar read that succeeds leaves the heap that the growth made (R211). -/
theorem heapReadScalar_grows {cap : Option Nat} {h g : Heap} {a : Nat} {k : Kind} {v : Word}
    (e : heapReadScalar cap h a k = .ok (v, g)) : ∃ b, heapGrow cap h a k = .ok (g, b) := by
  unfold heapReadScalar at e
  split at e
  · cases e
  · next grown => cases e; exact ⟨true, grown⟩
  · next grown =>
    split at e
    · cases e
    · cases e; exact ⟨false, grown⟩

/-- A scalar write that succeeds puts one cell into the heap that the growth made (R212). -/
theorem heapWriteScalar_grows {cap : Option Nat} {h g : Heap} {a : Nat} {t : Tagged}
    (e : heapWriteScalar cap h a t = .ok g) :
    ∃ g' b c, heapGrow cap h a t.kind = .ok (g', b) ∧ cellPut (g'.read a) t = .ok c ∧
      g = g'.write a c := by
  unfold heapWriteScalar at e
  split at e
  · cases e
  · next g' b grown =>
    split at e
    · cases e
    · next c put => cases e; exact ⟨g', b, c, grown, put, rfl⟩

/-- Settles O17: only a push, a CALL and a growing heap access make a segment longer, and each checks its
capacity first. -/
theorem instructionsKeepCapacities : Obligations.InstructionsKeepCapacities := by
  rintro i s t hi ⟨stackFits, heapFits⟩ h
  have shorter {st : List Tagged} (le : st.length ≤ s.stack.length) :
      fits s.params.stackCap st.length = true := fits_of_le stackFits le
  cases exec_effect hi h with
  | same | halt | setX | setF | overflow | raise | jump => exact ⟨stackFits, heapFits⟩
  | heapLoad a d v h hr | heapLoadF a d v h hr =>
    obtain ⟨b, grown⟩ := heapReadScalar_grows hr
    exact ⟨stackFits, heapGrow_fits heapFits grown⟩
  | heapStore a t h hr =>
    obtain ⟨g, b, c, grown, -, rfl⟩ := heapWriteScalar_grows hr
    have grownFits : fits s.params.heapCap g.len = true := heapGrow_fits heapFits grown
    exact ⟨stackFits, grownFits⟩
  | stackStore a t => exact ⟨shorter (by simp), heapFits⟩
  | push t room => exact ⟨by simpa using room, heapFits⟩
  | popMismatch st t top | pop st t d v top | popF st t d v top =>
    exact ⟨shorter (by simp [top]), heapFits⟩
  | call v room =>
    have frame : (pushFrame s).stack.length = s.stack.length + 2 := by simp [pushFrame_stack]
    exact ⟨frame ▸ room, heapFits⟩
  | ret st p b _ le | retFault st p k _ le => exact ⟨shorter le, heapFits⟩

end Sys2Proof.Machine
end

section
/-! PROOF. What an instruction may write (10_state.md sections 1 to 4, 20_memory.md section 1, 40_cycle.md
section 1): its destination register; bp and the segments by the instructions that name them; pc; and what a
faulting one has done (60_exceptions.md section 3). -/

namespace Sys2Proof.Machine

/-! ### Registers -/

theorem Effect.getX_of_ne {i : Instr} {s t : State} (h : Effect i s t) {r : XReg}
    (hr : intDestination i ≠ some r) : t.getX r = s.getX r := by
  have other {d : XReg} (hd : intDestination i = some d) : d ≠ r := fun e => hr (e ▸ hd)
  cases h with
  | setX d v hd | heapLoad a d v h _ _ hd | pop st t d v _ _ hd => exact State.getX_setX_of_ne _ v (other hd)
  | same | halt | setF | overflow | raise | jump | heapLoadF | heapStore | stackStore | push | popMismatch
  | popF | call | ret | retFault => rfl

theorem Effect.getF_of_ne {i : Instr} {s t : State} (h : Effect i s t) {r : FReg}
    (hr : floatDestination i ≠ some r) : t.getF r = s.getF r := by
  have other {d : FReg} (hd : floatDestination i = some d) : d ≠ r := fun e => hr (e ▸ hd)
  cases h with
  | setF d v hd | heapLoadF a d v h _ _ hd | popF st t d v _ _ hd => exact State.getF_setF_of_ne _ v (other hd)
  | same | halt | setX | overflow | raise | jump | heapLoad | heapStore | stackStore | push | popMismatch
  | pop | call | ret | retFault => rfl

/-- Settles O20, by the destination that each writing effect names. -/
theorem onlyDestinationRegisterWritten : Obligations.OnlyDestinationRegisterWritten :=
  fun _ _ _ hi h => ⟨fun _ => (exec_effect hi h).getX_of_ne, fun _ => (exec_effect hi h).getF_of_ne⟩

/-! ### bp and the segments -/

theorem Effect.bp_eq {i : Instr} {s t : State} (h : Effect i s t) (hw : mayWriteBp i = false) :
    t.bp = s.bp := by
  cases h with
  | call v _ hi => obtain ⟨_, rfl⟩ := hi; cases hw
  | ret _ _ _ hi | retFault _ _ _ hi => subst hi; cases hw
  | same | halt | setX | setF | overflow | raise | jump | heapLoad | heapLoadF | heapStore | stackStore
  | push | popMismatch | pop | popF => rfl

theorem Effect.heap_eq {i : Instr} {s t : State} (h : Effect i s t) (hw : mayWriteHeap i = false) :
    t.heap = s.heap := by
  cases h with
  | heapLoad _ _ _ _ _ writes | heapLoadF _ _ _ _ _ writes | heapStore _ _ _ _ writes =>
    rw [hw] at writes; cases writes
  | same | halt | setX | setF | overflow | raise | jump | stackStore | push | popMismatch | pop | popF
  | call | ret | retFault => rfl

theorem Effect.stack_eq {i : Instr} {s t : State} (h : Effect i s t) (hw : mayWriteStack i = false) :
    t.stack = s.stack := by
  cases h with
  | stackStore _ _ writes | push _ _ writes | popMismatch _ _ _ writes | pop _ _ _ _ _ writes
  | popF _ _ _ _ _ writes => rw [hw] at writes; cases writes
  | call v _ hi => obtain ⟨_, rfl⟩ := hi; cases hw
  | ret _ _ _ hi | retFault _ _ _ hi => subst hi; cases hw
  | same | halt | setX | setF | overflow | raise | jump | heapLoad | heapLoadF | heapStore => rfl

/-- Settles O21: SYSCALL is among the writers of all three, and every other instruction has one of the
listed effects. -/
theorem basePointerAndSegmentWriters : Obligations.BasePointerAndSegmentWriters := by
  intro i s t h
  cases hi : isSyscall i with
  | false =>
    have effect : Effect i s t := exec_effect hi h
    exact ⟨effect.bp_eq, effect.heap_eq, effect.stack_eq⟩
  | true =>
    obtain ⟨_, rfl⟩ := exists_eq_syscall hi
    exact ⟨nofun, nofun, nofun⟩

/-! ### Faults (60_exceptions.md R603, R604) -/

/-- Settles O23. -/
theorem faultEntry : Obligations.FaultEntry :=
  ⟨fun _ _ => rfl, rfl, rfl, rfl, rfl, rfl, rfl, rfl, rfl, rfl, rfl, rfl⟩

/-- An effect that faults a run is a bare `raise`, but for a mismatched pop and the faults of RET. -/
theorem Effect.eq_raise {i : Instr} {s t : State} (h : Effect i s t) (hi : faultsAfterEffects i = false)
    (hr : s.runState = .running) (hf : t.runState = .faulted) : ∃ k, t = s.raise k := by
  have notFaulted : s.runState ≠ .faulted := by rw [hr]; decide
  cases h with
  | raise k => exact ⟨k, rfl⟩
  | popMismatch _ _ _ _ late => rw [hi] at late; cases late
  | retFault _ _ _ ret => subst ret; cases hi
  | halt => cases hf
  | same | setX | setF | overflow | jump | heapLoad | heapLoadF | heapStore | stackStore | push | pop | popF
  | call | ret => exact absurd hf notFaulted

/-- Settles O22: SYSCALL is excepted, and of the other effects only a bare `raise` is left. -/
theorem faultsHaveNoOtherEffect : Obligations.FaultsHaveNoOtherEffect := by
  intro i s t hi hr h hf
  have notSyscall : isSyscall i = false := by
    cases hs : isSyscall i with
    | false => rfl
    | true => obtain ⟨_, rfl⟩ := exists_eq_syscall hs; cases hi
  exact (exec_effect notSyscall h).eq_raise hi hr hf

/-! ### pc (R411) -/

theorem Effect.pc_eq {i : Instr} {s t : State} (h : Effect i s t) (hw : mayWritePc s i = false) :
    t.pc = s.pc := by
  cases h with
  | jump _ writes => rw [hw] at writes; cases writes
  | call v _ hi => obtain ⟨_, rfl⟩ := hi; cases hw
  | ret _ _ _ hi | retFault _ _ _ hi => subst hi; cases hw
  | same | halt | setX | setF | overflow | raise | heapLoad | heapLoadF | heapStore | stackStore | push
  | popMismatch | pop | popF => rfl

theorem applyWrite_pc (s : State) {w : SysWrite} (h : w.setsPc = false) : (applyWrite s w).pc = s.pc := by
  cases w with
  | setPc v => cases h
  | setX | setF | setOF | setBp | setHeap | setStack => rfl

theorem applyWrites_pc (s : State) {ws : List SysWrite} (h : ws.any SysWrite.setsPc = false) :
    (applyWrites s ws).pc = s.pc := by
  induction ws generalizing s with
  | nil => rfl
  | cons w ws ih =>
    obtain ⟨hw, hws⟩ : w.setsPc = false ∧ ws.any SysWrite.setsPc = false := by
      simpa only [List.any_cons, Bool.or_eq_false_iff] using h
    exact (ih (applyWrite s w) hws).trans (applyWrite_pc s hw)

theorem foldReply_pc (s : State) (r : SysReply) : (foldReply s r).pc = (applyWrites s r.writes).pc := by
  rcases foldReply_cases s r with ⟨_, e⟩ | ⟨_, e⟩ | ⟨_, _, e⟩ <;> simp [e]

/-- An instruction that does not write pc leaves it as the fetch made it. -/
theorem exec_pc_eq {i : Instr} {s t : State} (h : exec i s = .next t) (hw : mayWritePc s i = false) :
    t.pc = s.pc := by
  cases hi : isSyscall i with
  | false => exact (exec_effect hi h).pc_eq hw
  | true =>
    obtain ⟨ri, rfl⟩ := exists_eq_syscall hi
    rcases exec_syscall_next h with ⟨_, rfl⟩ | ⟨e, r, he, hr, rfl⟩
    · rfl
    · have noWrite : r.writes.any SysWrite.setsPc = false := (syscallWrites_eq_any he hr).symm.trans hw
      rw [foldReply_pc, applyWrites_pc _ noWrite]

/-- Settles O13: the fetch adds 1 to an index below `2^64 - 1`, which does not wrap, and the instruction
leaves that pc. -/
theorem pcAdvancesByOne : Obligations.PcAdvancesByOne := by
  intro s u t w i fits hr hp hw hd hpc h
  have ran : exec i (u.setPc (s.pc + 1)) = .next t := by
    rw [← h, step_of_fetched hr hp hw, decodeAndExecute_of_ok hd]
  have kept : t.pc = s.pc + 1 := exec_pc_eq ran hpc
  have inRange : s.pc.toNat < s.code.length := (List.getElem?_eq_some_iff.1 hw).1
  have noWrap : s.pc.toNat + 1 < 2 ^ 64 := by
    simp only [State.codeFits] at fits
    omega
  rw [kept, BitVec.toNat_add_of_lt noWrap]
  rfl

end Sys2Proof.Machine
end

section
/-! PROOF. The host interface (70_reset_and_hazards.md sections 1 and 2): `load`, the resets and `run`, when
they are refused, and what they keep; the host's words (10_state.md sections 5 and 6). -/

namespace Sys2Proof.Machine

/-! ### Every operation, refused or not (R706) -/

theorem hostOp_of_running {s : State} (hr : s.runState = .running) (op : HostOp) :
    hostOp op s = .refused .hostOperationWhileRunning := if_pos hr

section
variable {s : State} (idle : s.runState ≠ .running)
include idle

theorem hostOp_run_of_idle : hostOp .run s = .next (startRun s) := if_neg idle

section
variable {code : List InstrWord} {heap : Option (List HeapCell)} {stack : Option (List Tagged)}

theorem hostOp_load_of_fits (loads : loadFits s code heap stack = true) :
    hostOp (.load code heap stack) s = .next (loadSegments s code heap stack) :=
  (if_neg idle).trans (if_pos loads)

theorem hostOp_load_of_tooLong (long : ¬loadFits s code heap stack = true) :
    hostOp (.load code heap stack) s = .refused .loadTooLong :=
  (if_neg idle).trans (if_neg long)

end
end

/-- Settles O59. -/
theorem runStartsAndExcludesTheHost : Obligations.RunStartsAndExcludesTheHost :=
  fun _ => ⟨hostOp_run_of_idle, hostOp_of_running⟩

/-! ### `load` (R703) -/

/-- Settles O58: `load` goes ahead when every given segment fits, and one that does not refuses it. -/
theorem loadReplacesSegments : Obligations.LoadReplacesSegments := by
  intro s code heap stack hcode
  refine ⟨fun hr => hostOp_of_running hr _, fun idle => ⟨fun heapFits stackFits => ?loaded,
    fun h given long => ?heap, fun st given long => ?stack⟩⟩
  case loaded =>
    refine ⟨_, hostOp_load_of_fits idle (loadFits_iff.2 ⟨hcode, heapFits, stackFits⟩), ?_, ?_, ?_, ?_, rfl⟩
    · rintro rfl; rfl
    · rintro h rfl; exact Heap.toList_ofList h
    · rintro rfl; rfl
    · rintro st rfl; rfl
  case heap =>
    refine hostOp_load_of_tooLong idle fun loads => ?_
    obtain ⟨-, heapFits, -⟩ := loadFits_iff.1 loads
    rw [heapFits h given] at long
    cases long
  case stack =>
    refine hostOp_load_of_tooLong idle fun loads => ?_
    obtain ⟨-, -, stackFits⟩ := loadFits_iff.1 loads
    rw [stackFits st given] at long
    cases long

/-! ### The resets (R700, R701) -/

/-- A run started on an empty code segment faults at its first fetch. -/
theorem step_startRun_of_empty {s v : State} (empty : s.code = []) (hp : PassesHook (startRun s) v) :
    step (startRun s) = .next (v.raise .invalidCodeAddr) := by
  obtain ⟨hcode, -⟩ := hp.code_pc
  have noWord : v.code.length ≤ v.pc.toNat := by
    rw [hcode, show (startRun s).code = [] from empty]
    exact Nat.zero_le _
  exact (step_of_passesHook rfl hp).trans (fetchAndExecute_of_outOfRange noWord)

theorem hostOp_ovf {op : HostOp} {s t : State} (h : hostOp op s = .next t) (hc : op ≠ .cpuReset)
    (hv : op ≠ .vmReset) : t.ovf = s.ovf := by
  obtain ⟨-, ⟨_, _, _, -, -, rfl⟩ | ⟨reset, -⟩ | ⟨reset, -⟩ | ⟨-, rfl⟩⟩ := hostOp_next_cases h
  · rfl
  · exact absurd reset hc
  · exact absurd reset hv
  · rfl

theorem PassesHook.ovf {s u : State} (hp : PassesHook s u) : u.ovf = s.ovf := by
  rcases hp with ⟨_, rfl⟩ | ⟨_, _, _, rfl⟩ <;> rfl

/-- An instruction that clears OF is a SYSCALL whose function writes OF. -/
theorem exec_clears_ovf {i : Instr} {s t : State} (h : exec i s = .next t) (was : s.ovf = true)
    (now : t.ovf = false) : ∃ ri, i = .syscall ri ∧ syscallWrites SysWrite.setsOF s ri = true := by
  cases hi : isSyscall i with
  | false =>
    have still : t.ovf = true := (exec_effect hi h).ovf_iff.2 (.inl was)
    rw [now] at still
    cases still
  | true =>
    obtain ⟨ri, rfl⟩ := exists_eq_syscall hi
    refine ⟨ri, rfl, ?_⟩
    by_contra noWrite
    have kept : t.ovf = s.ovf := exec_syscall_ovf h (by simpa using noWrite)
    rw [was, now] at kept
    cases kept

/-- What a step of a run in progress answers when it answers a next state: the hook's stop, or what the
fetch makes of a state that passed the hook. -/
theorem step_next_cases {s t : State} (h : step s = .next t) :
    (s.runState ≠ .running ∧ t = s) ∨ t = s.countHook.stop ∨
      ∃ u, PassesHook s u ∧ fetchAndExecute u = .next t := by
  rcases step_cases s with ⟨hr, e⟩ | ⟨-, e⟩ <;> rw [e] at h
  · cases h; exact .inl ⟨hr, rfl⟩
  · refine .inr ?_
    rcases cycle_cases s with ⟨_, _, _, e⟩ | ⟨_, _, _, e⟩ | ⟨hook, hk, ha, e⟩ | ⟨hk, e⟩ <;> rw [e] at h
    · cases h
    · cases h; exact .inl rfl
    · exact .inr ⟨_, .inr ⟨hook, hk, ha, rfl⟩, h⟩
    · exact .inr ⟨s, .inl ⟨hk, rfl⟩, h⟩

/-- A step that clears OF runs a SYSCALL whose function writes OF: nothing else in the cycle touches it. -/
theorem step_clears_ovf {s t : State} (h : step s = .next t) (was : s.ovf = true) (now : t.ovf = false) :
    ∃ u w ri, PassesHook s u ∧ s.code[s.pc.toNat]? = some w ∧ decode w = .ok (.syscall ri) ∧
      syscallWrites SysWrite.setsOF { u with pc := s.pc + 1 } ri = true := by
  have changed {v : State} (hv : v.ovf = s.ovf) : t ≠ v := by
    rintro rfl
    rw [hv, was] at now
    cases now
  rcases step_next_cases h with ⟨-, e⟩ | e | ⟨u, hp, hf⟩
  · exact absurd e (changed rfl)
  · exact absurd e (changed rfl)
  · obtain ⟨hcode, hpc⟩ := hp.code_pc
    rcases fetchAndExecute_cases u with ⟨-, e⟩ | ⟨w, hw, e⟩ <;> rw [e] at hf
    · exact absurd (Host.Outcome.next.inj hf).symm (changed hp.ovf)
    · rw [hcode, hpc] at hw
      rcases decodeAndExecute_cases w (u.setPc (u.pc + 1)) with ⟨-, e⟩ | ⟨-, e⟩ | ⟨i, hd, e⟩ <;> rw [e] at hf
      · exact absurd (Host.Outcome.next.inj hf).symm (changed hp.ovf)
      · exact absurd (Host.Outcome.next.inj hf).symm (changed hp.ovf)
      · obtain ⟨ri, rfl, writes⟩ := exec_clears_ovf hf (hp.ovf.trans was) now
        exact ⟨u, w, ri, hp, hw, hd, hpc ▸ writes⟩

/-- Settles O57, each clause by its own lemma. -/
theorem hostResets : Obligations.HostResets := by
  intro s
  refine ⟨fun idle => ⟨?cpu, ?vm⟩, fun hr => ⟨hostOp_of_running hr _, hostOp_of_running hr _⟩,
    fun _ _ => hostOp_ovf, fun _ => step_clears_ovf⟩
  case cpu => exact ⟨_, hostOp_cpuReset_next_iff.2 ⟨idle, rfl⟩, cpuReset_zeroedCpu s, rfl⟩
  case vm =>
    exact ⟨_, hostOp_vmReset_next_iff.2 ⟨idle, rfl⟩, vmReset_zeroedCpu s, vmReset_emptySegments s, rfl, _,
      hostOp_run_of_idle nofun, fun _ => step_startRun_of_empty rfl⟩

/-! ### FLAGS and STATUS (10_state.md R112, R113) -/

/-- The bits of STATUS, from the bottom: STATE, five zero bits, CAUSE, and zeros. -/
theorem statusWord_getLsbD (s : State) (j : Nat) : s.statusWord.getLsbD j =
    if j < 3 then s.runState.code.getLsbD j
    else if j < 8 then false
    else if j < 16 then s.cause.getLsbD (j - 8)
    else false := by
  have gap : j - 3 < 5 ↔ j < 8 := by omega
  have cause : j - 8 < 8 ↔ j < 16 := by omega
  simp only [State.statusWord, BitVec.getLsbD_append]
  simp only [Nat.sub_sub, Nat.reduceAdd, gap, cause, BitVec.ofNat_eq_ofNat, BitVec.getLsbD_zero]

theorem statusWord_fields (s : State) :
    s.statusWord.extractLsb' 0 3 = s.runState.code ∧ s.statusWord.extractLsb' 3 5 = 0 ∧
      s.statusWord.extractLsb' 8 8 = s.cause ∧ s.statusWord.extractLsb' 16 16 = 0 := by
  refine ⟨?_, ?_, ?_, ?_⟩ <;> refine BitVec.eq_of_getLsbD_eq fun j hj => ?_ <;>
    rw [BitVec.getLsbD_extractLsb', decide_eq_true hj, Bool.true_and, statusWord_getLsbD]
  · rw [if_pos (by omega), Nat.zero_add]
  · rw [if_neg (by omega), if_pos (by omega)]; simp
  · rw [if_neg (by omega), if_neg (by omega), if_pos (by omega), Nat.add_sub_cancel_left]
  · rw [if_neg (by omega), if_neg (by omega), if_neg (by omega)]; simp

theorem flagsWord_getLsbD (s : State) (j : Nat) : s.flagsWord.getLsbD j = (decide (j = 0) && s.ovf) := by
  unfold State.flagsWord
  cases s.ovf <;> simp

/-- Settles O60. -/
theorem hostWordsLayout : Obligations.HostWordsLayout := by
  refine ⟨rfl, rfl, rfl, rfl, rfl, fun s => ?_⟩
  obtain ⟨state, gap, cause, rest⟩ := statusWord_fields s
  refine ⟨state, gap, cause, rest, ?_, fun j hj => ?_⟩
  · rw [flagsWord_getLsbD, decide_eq_true rfl, Bool.true_and]
  · rw [flagsWord_getLsbD, decide_eq_false (by omega), Bool.false_and]

/-! ### The hook's stop and the placed instruction (40_cycle.md R401, log 7) -/

/-- Settles O11. -/
theorem hookStopEndsTheRun : Obligations.HookStopEndsTheRun := by
  intro s h hr hk ha
  rcases step_cases s with ⟨idle, -⟩ | ⟨-, e⟩
  · exact absurd hr idle
  · rw [e]
    simp only [cycle, hk, ha]
    rfl

/-- The placed word is at its index, whether it replaced a word or the code was padded up to it. -/
theorem placeWord_getElem? (code : List InstrWord) (k : Nat) (w : InstrWord) :
    (placeWord code k w)[k]? = some w := by
  unfold placeWord
  split
  case isTrue inside => exact List.getElem?_set_self inside
  case isFalse beyond =>
    have len : (code ++ List.replicate (k - code.length) 0).length = k := by
      rw [List.length_append, List.length_replicate]
      omega
    rw [List.getElem?_append_right len.le, len, Nat.sub_self]
    rfl

/-- Settles O12: the placed state runs, without a hook, and fetches the encoding at its pc. -/
theorem placedInstructionRuns : Obligations.PlacedInstructionRuns := by
  intro s i
  have word : BitVec.ofNat 128 ((encode i).toNat % 2 ^ 128) = encode i := by
    rw [Nat.mod_eq_of_lt (encode i).isLt, BitVec.ofNat_toNat, BitVec.setWidth_eq]
  have fetched := step_of_fetched (s := s.withFetchWord 128 (encode i).toNat) rfl (.inl ⟨rfl, rfl⟩)
    (placeWord_getElem? s.code s.pc.toNat _)
  rw [fetched, word, decodeAndExecute_of_ok (decodeInvertsEncode i), State.withFetchWord, word]
  rfl

end Sys2Proof.Machine
end

section
/-! PROOF. `NAN_RESULT` and the instructions that write a float result (43_float_arith.md R460-R468), and FNEG
(44_bitwise_unary.md R485). -/

namespace Sys2Proof.Machine

/-! ### The fields of a float pattern -/

theorem floatExp_eq (b : Word) : floatExp b = b.toNat / 2 ^ 52 % 2 ^ 11 := by
  simp only [floatExp, BitVec.extractLsb'_toNat, Nat.shiftRight_eq_div_pow]

theorem floatFrac_eq (b : Word) : floatFrac b = b.toNat % 2 ^ 52 := by
  simp only [floatFrac, BitVec.extractLsb'_toNat, Nat.shiftRight_zero]

theorem floatSign_eq (b : Word) : floatSign b = decide (2 ^ 63 ≤ b.toNat) := by
  have bound : b.toNat < 2 ^ 64 := b.isLt
  rw [floatSign, BitVec.getLsbD, Nat.testBit_eq_decide_div_mod_eq]
  exact decide_eq_decide.2 (by omega)

/-- A pattern's magnitude bits: its exponent and fraction. -/
def magnitude (b : Word) : Nat := b.toNat % 2 ^ 63

theorem magnitude_lt (b : Word) : magnitude b < 2 ^ 63 := Nat.mod_lt _ (by decide)

theorem toNat_floatPack (neg : Bool) {m : Nat} (hm : m < 2 ^ 63) :
    (floatPack neg m).toNat = (if neg then 2 ^ 63 else 0) + m := by
  rw [floatPack, BitVec.toNat_ofNat]
  exact Nat.mod_eq_of_lt (by split <;> omega)

theorem magnitude_floatPack (neg : Bool) {m : Nat} (hm : m < 2 ^ 63) : magnitude (floatPack neg m) = m := by
  rw [magnitude, toNat_floatPack neg hm]
  split <;> omega

theorem floatSign_floatPack (neg : Bool) {m : Nat} (hm : m < 2 ^ 63) : floatSign (floatPack neg m) = neg := by
  rw [floatSign_eq, toNat_floatPack neg hm]
  cases neg
  · simpa using hm
  · simp

/-- A pattern is its sign and its magnitude bits. -/
theorem floatPack_sign_magnitude (b : Word) : floatPack (floatSign b) (magnitude b) = b := by
  have bound : b.toNat < 2 ^ 64 := b.isLt
  refine BitVec.eq_of_toNat_eq ?_
  rw [toNat_floatPack _ (magnitude_lt b), floatSign_eq, magnitude]
  simp only [decide_eq_true_eq]
  split <;> omega

theorem floatExp_eq_magnitude (b : Word) : floatExp b = magnitude b / 2 ^ 52 := by
  rw [floatExp_eq, magnitude]
  omega

theorem floatFrac_eq_magnitude (b : Word) : floatFrac b = magnitude b % 2 ^ 52 := by
  rw [floatFrac_eq, magnitude]
  omega

/-! ### NaNs, infinities, zeros and finite values by their magnitude bits -/

theorem infMagnitude_eq : infMagnitude = 0x7FF0000000000000 := rfl

theorem floatIsNaN_iff (b : Word) : floatIsNaN b = true ↔ infMagnitude < magnitude b := by
  have bound := magnitude_lt b
  simp only [floatIsNaN, Bool.and_eq_true, beq_iff_eq, bne_iff_ne, floatExp_eq_magnitude,
    floatFrac_eq_magnitude, infMagnitude_eq]
  omega

theorem floatIsInf_iff (b : Word) : floatIsInf b = true ↔ magnitude b = infMagnitude := by
  have bound := magnitude_lt b
  simp only [floatIsInf, Bool.and_eq_true, beq_iff_eq, floatExp_eq_magnitude, floatFrac_eq_magnitude,
    infMagnitude_eq]
  omega

theorem floatIsZero_iff (b : Word) : floatIsZero b = true ↔ magnitude b = 0 := by
  simp only [floatIsZero, Bool.and_eq_true, beq_iff_eq, floatExp_eq_magnitude, floatFrac_eq_magnitude]
  omega

theorem floatExp_lt_iff (b : Word) : floatExp b < 2047 ↔ magnitude b < infMagnitude := by
  rw [floatExp_eq_magnitude, infMagnitude_eq]
  omega

/-! ### `NAN_RESULT` (00_scope.md R6, R12; log 2) -/

theorem nanBits_isNaN (p : NanPattern) : floatIsNaN (nanBits p) = true := by
  have small : infMagnitude + (p.fraction.val + 1) < 2 ^ 63 := by
    rw [infMagnitude_eq]
    omega
  rw [floatIsNaN_iff, nanBits, magnitude_floatPack _ small]
  omega

theorem nanResult_isNaN (s : State) : floatIsNaN s.nanResult = true := by
  rcases nanResult_cases s with ⟨_, _, e⟩ | ⟨_, _, e⟩ <;> rw [e] <;> exact nanBits_isNaN _

/-- A NaN's pattern: its sign, and how far its magnitude is past infinity. -/
theorem exists_nanBits_eq {b : Word} (h : floatIsNaN b = true) : ∃ p, nanBits p = b := by
  have past : infMagnitude < magnitude b := (floatIsNaN_iff b).1 h
  have bound : magnitude b < 2 ^ 63 := magnitude_lt b
  have fraction : magnitude b - infMagnitude - 1 < 4503599627370495 := by
    rw [infMagnitude_eq] at past ⊢
    omega
  refine ⟨⟨floatSign b, ⟨_, fraction⟩⟩, ?_⟩
  have distance : infMagnitude + (magnitude b - infMagnitude - 1 + 1) = magnitude b := by omega
  rw [nanBits, distance, floatPack_sign_magnitude]

/-- Settles O34: the parameter is a NaN pattern or stands for one, and no step changes a parameter. -/
theorem drawsAreExactlyTheNaNs : Obligations.DrawsAreExactlyTheNaNs := by
  refine ⟨nanResult_isNaN, fun b h => ?_, fun s t h => nanResult_congr (step_sameProgram h).2⟩
  obtain ⟨p, rfl⟩ := exists_nanBits_eq h
  exact ⟨.pattern p, fun s hp => by rw [State.nanResult, hp]⟩

/-! ### The write of a float result (R460) -/

theorem writesFloat_writeFloat (s : State) (fd : FReg) (r : Option Word) :
    WritesFloat s fd r (writeFloat s fd r) := by
  cases r with
  | some v => exact writesF_setF s fd v
  | none =>
    refine ⟨writesF_setF s fd s.nanResult, ?_⟩
    rw [writeFloat_none, State.getF_setF_self]
    exact nanResult_isNaN s

section
variable (s : State) (fd a b : FReg) (v : Word)

theorem exec_fadd : exec (.fadd fd a b) s = .next (writeFloat s fd (floatAdd (s.getF a) (s.getF b))) := rfl

theorem exec_fsub : exec (.fsub fd a b) s = .next (writeFloat s fd (floatSub (s.getF a) (s.getF b))) := rfl

theorem exec_fmul : exec (.fmul fd a b) s = .next (writeFloat s fd (floatMul (s.getF a) (s.getF b))) := rfl

theorem exec_fdiv : exec (.fdiv fd a b) s = .next (writeFloat s fd (floatDiv (s.getF a) (s.getF b))) := rfl

theorem exec_faddi : exec (.faddi fd a v) s = .next (writeFloat s fd (floatAdd (s.getF a) v)) := rfl

theorem exec_fsubi : exec (.fsubi fd a v) s = .next (writeFloat s fd (floatSub (s.getF a) v)) := rfl

theorem exec_fmuli : exec (.fmuli fd a v) s = .next (writeFloat s fd (floatMul (s.getF a) v)) := rfl

theorem exec_fdivi : exec (.fdivi fd a v) s = .next (writeFloat s fd (floatDiv (s.getF a) v)) := rfl

end

/-- Settles O29: each of the four writes what its operation gives, or `NAN_RESULT`. -/
theorem floatArithComplete : Obligations.FloatArithComplete := by
  intro s fd a b
  refine ⟨⟨hasWord_fff rfl fd a b, _, exec_fadd s fd a b, ?add⟩,
    ⟨hasWord_fff rfl fd a b, _, exec_fsub s fd a b, ?sub⟩,
    ⟨hasWord_fff rfl fd a b, _, exec_fmul s fd a b, ?mul⟩,
    ⟨hasWord_fff rfl fd a b, _, exec_fdiv s fd a b, ?div⟩⟩
  case add | sub | mul | div => exact writesFloat_writeFloat s fd _

/-- Settles O30: as O29, with the immediate for the second operand. -/
theorem floatImmediateComplete : Obligations.FloatImmediateComplete := by
  intro s fd a v
  refine ⟨⟨hasWord_ffi rfl fd a v, _, exec_faddi s fd a v, ?add⟩,
    ⟨hasWord_ffi rfl fd a v, _, exec_fsubi s fd a v, ?sub⟩,
    ⟨hasWord_ffi rfl fd a v, _, exec_fmuli s fd a v, ?mul⟩,
    ⟨hasWord_ffi rfl fd a v, _, exec_fdivi s fd a v, ?div⟩⟩
  case add | sub | mul | div => exact writesFloat_writeFloat s fd _

/-! ### FNEG (R485) -/

theorem exec_fneg (fd a : FReg) (s : State) :
    exec (.fneg fd a) s = .next (s.setF fd (floatNeg (s.getF a))) := rfl

theorem floatNeg_getLsbD (b : Word) (j : Nat) (hj : j < 64) :
    (floatNeg b).getLsbD j = (b.getLsbD j != decide (j = 63)) := by
  have top_bit : (0x8000000000000000 : Word).getLsbD j = decide (j = 63) := by
    revert j
    decide
  rw [floatNeg, BitVec.getLsbD_xor, top_bit]

/-- Settles O37: the write of the source with its top bit flipped. -/
theorem fnegComplete : Obligations.FnegComplete := by
  intro s fd a
  refine ⟨hasWord_ff rfl fd a, _, exec_fneg fd a s, ?_⟩
  rw [State.getF_setF_self]
  exact ⟨writesF_setF s fd _, floatNeg_getLsbD _⟩

end Sys2Proof.Machine
end

section
/-! PROOF. A heap read repeated and a heap read after a write (20_memory.md R211-R213); RET after CALL
(48_call_ret.md R563). -/

namespace Sys2Proof.Machine

/-! ### Heap reads (R211-R213) -/

/-- A read of a cell that exists gives its scalar and leaves the heap alone. -/
theorem heapReadScalar_of_hit {cap : Option Nat} {h : Heap} {a : Nat} {k : Kind} {v : Word}
    (hit : a < h.len) (value : cellGet k (h.read a) = .ok v) : heapReadScalar cap h a k = .ok (v, h) := by
  simp only [heapReadScalar, heapGrow_of_hit k hit, value]

/-- After a read that succeeds the cell exists and holds what was read: on a miss, the zero of the kind. -/
theorem heapReadScalar_cell {cap : Option Nat} {h g : Heap} {a : Nat} {k : Kind} {v : Word}
    (w : Memory.wf h) (e : heapReadScalar cap h a k = .ok (v, g)) : cellGet k (g.read a) = .ok v := by
  rcases heapGrow_cases cap h a k with ⟨_, grown⟩ | ⟨miss, room, grown⟩ | ⟨_, _, grown⟩
  · simp only [heapReadScalar, grown] at e
    split at e
    · cases e
    · next value => cases e; exact value
  · obtain ⟨g', grown', -, cell⟩ := heapGrow_of_room k w miss room
    simp only [heapReadScalar, grown'] at e
    cases e
    rw [cell]
    cases k <;> rfl
  · simp only [heapReadScalar, grown] at e
    cases e

/-- The cell that a scalar store leaves gives the value stored (R211, R212). -/
theorem cellGet_cellPut {c d : HeapCell} {t : Tagged} (put : cellPut c t = .ok d) :
    cellGet t.kind d = .ok t.payload := by
  unfold cellPut at put
  split at put
  case h_1 => cases put; exact if_pos rfl
  all_goals
    split at put
    · cases put; rfl
    · cases put

/-- Settles O43: after a successful read or write the cell exists and holds the value, so that the next
read hits it. -/
theorem heapReadsAreStable : Obligations.HeapReadsAreStable := by
  intro cap h h' a w
  refine ⟨fun k v e => ?read, fun t e => ?write⟩
  case read =>
    obtain ⟨-, -, hit, -⟩ := heapReadScalar_spec w e
    exact heapReadScalar_of_hit hit (heapReadScalar_cell w e)
  case write =>
    obtain ⟨-, -, hit, -⟩ := heapWriteScalar_spec w e
    obtain ⟨g, b, c, grown, put, rfl⟩ := heapWriteScalar_grows e
    obtain ⟨canonical, -, -, -⟩ := heapGrow_spec w grown
    refine heapReadScalar_of_hit hit ?_
    rw [Heap.read_write canonical, if_pos rfl]
    exact cellGet_cellPut put

/-! ### RET after CALL (R563) -/

/-- A CALL that leaves the run going pushed its frame. -/
theorem exec_call_next_running {s t : State} {rt : XReg} (h : exec (.call rt) s = .next t)
    (running : t.runState = .running) : t = (pushFrame s).setPc (s.getX rt) := by
  cases room : fits s.params.stackCap (s.stack.length + 2) with
  | true =>
    rw [exec_call_of_room rt room] at h
    exact (Host.Outcome.next.inj h).symm
  | false =>
    rw [exec_call_of_full rt room] at h
    cases h
    cases running

theorem take_add_two {α : Type} {l : List α} {n : Nat} {x y : α} (hx : l[n]? = some x)
    (hy : l[n + 1]? = some y) : l.take (n + 1 + 1) = l.take n ++ [x, y] := by
  rw [List.take_add_one, List.take_add_one, hx, hy, List.append_assoc]
  rfl

/-- Settles O51: the callee's bp is the index of the upper link slot, so RET truncates to the frame's two
slots and pops both. -/
theorem frameSymmetry : Obligations.FrameSymmetry := by
  intro s t u rt small h same running hbp hlow hhigh
  obtain rfl := exec_call_next_running h (same.trans running)
  have top : u.bp.toNat = s.stack.length + 1 := by
    rw [hbp]
    exact Nat.mod_eq_of_lt small
  have low : u.stack[s.stack.length]? = some (.int s.bp) := by
    rw [hlow, State.setPc_stack, pushFrame_stack]
    simp
  have high : u.stack[s.stack.length + 1]? = some (.int s.pc) := by
    rw [hhigh, State.setPc_stack, pushFrame_stack]
    simp
  have links : u.stack.take (u.bp.toNat + 1) = u.stack.take s.stack.length ++ [.int s.bp, .int s.pc] := by
    rw [top, take_add_two low high]
  have below : s.stack.length < u.stack.length := (List.getElem?_eq_some_iff.1 low).1
  obtain ⟨-, restored, -⟩ := retOutcomes u (u.stack.take s.stack.length) s.bp s.pc 0
  exact ⟨restored links, List.length_take_of_le below.le⟩

end Sys2Proof.Machine
end

section
/-! PROOF. System calls (49_syscall_reserved.md R580-R583, R586): the outcomes of SYSCALL, the limits of a
syscall function, and the example write. -/

namespace Sys2Proof.Machine

/-! ### SYSCALL (R580, R583) -/

section
variable {s : State} {ri : XReg}

theorem exec_syscall_of_outOfRange (out : s.params.syscalls.length ≤ (s.getX ri).toNat) :
    exec (.syscall ri) s = .next (s.raise .invalidSysCall) := by
  simp only [exec, execSyscall, List.getElem?_eq_none out]

theorem exec_syscall_of_reply {e : SyscallEntry} {r : SysReply}
    (he : s.params.syscalls[(s.getX ri).toNat]? = some e) (hr : syscallReply e s = some r) :
    exec (.syscall ri) s = .next (foldReply { s with sysCalls := s.sysCalls + 1 } r) := by
  simp only [exec, execSyscall, he, hr]

theorem exec_syscall_of_stuck {e : SyscallEntry}
    (he : s.params.syscalls[(s.getX ri).toNat]? = some e) (hr : syscallReply e s = none) :
    exec (.syscall ri) s = .fault .syscallNeverReturns := by
  simp only [exec, execSyscall, he, hr]

end

/-- Settles O52: the index decides between the fault and the call, and the reply what is folded in. -/
theorem syscallOutcomes : Obligations.SyscallOutcomes := by
  intro s ri
  refine ⟨hasWord_x rfl ri, exec_syscall_of_outOfRange, fun e he => ⟨fun r hr => ?_, exec_syscall_of_stuck he⟩⟩
  rw [exec_syscall_of_reply he hr]
  refine ⟨fun hres => ?ok, fun hres => ?halt, fun k hres => ?fault⟩
  case ok | halt | fault => simp only [foldReply, hres] <;> rfl

/-! ### The writes of a syscall function (R582) -/

theorem applyWrites_append (s : State) (ws vs : List SysWrite) :
    applyWrites s (ws ++ vs) = applyWrites (applyWrites s ws) vs :=
  List.foldl_append

/-- The eight integer registers. -/
def allX : List XReg := [.r0, .r1, .r2, .r3, .r4, .r5, .r6, .r7]

/-- The eight float registers. -/
def allF : List FReg := [.f0, .f1, .f2, .f3, .f4, .f5, .f6, .f7]

/-- The writes that make the listed integer registers what they are in `b`. -/
def writesOfX (b : XBank) (rs : List XReg) : List SysWrite := rs.map fun r => .setX r (b.get r)

/-- The writes that make the listed float registers what they are in `b`. -/
def writesOfF (b : FBank) (rs : List FReg) : List SysWrite := rs.map fun r => .setF r (b.get r)

/-- The writes that make everything that R582 admits what it is in `t`. -/
def writesOf (t : State) : List SysWrite :=
  writesOfX t.x allX ++ writesOfF t.f allF ++
    [.setOF t.ovf, .setPc t.pc, .setBp t.bp, .setHeap t.heap.toList, .setStack t.stack]

/-- A bank that agrees with `b` off the listed registers becomes `b`. -/
theorem applyWrites_writesOfX (s : State) (b : XBank) (rs : List XReg)
    (rest : ∀ r, r ∉ rs → s.x.get r = b.get r) : applyWrites s (writesOfX b rs) = { s with x := b } := by
  induction rs generalizing s with
  | nil =>
    have agree : s.x = b := XBank.ext_get fun r => rest r List.not_mem_nil
    rw [← agree]
    rfl
  | cons r rs ih =>
    refine ih (s.setX r (b.get r)) fun q hq => ?_
    rw [State.setX_x, XBank.get_set]
    split
    case isTrue same => rw [same]
    case isFalse other => exact rest q (by simp [hq, Ne.symm other])

theorem applyWrites_writesOfF (s : State) (b : FBank) (rs : List FReg)
    (rest : ∀ r, r ∉ rs → s.f.get r = b.get r) : applyWrites s (writesOfF b rs) = { s with f := b } := by
  induction rs generalizing s with
  | nil =>
    have agree : s.f = b := FBank.ext_get fun r => rest r List.not_mem_nil
    rw [← agree]
    rfl
  | cons r rs ih =>
    refine ih (s.setF r (b.get r)) fun q hq => ?_
    rw [State.setF_f, FBank.get_set]
    split
    case isTrue same => rw [same]
    case isFalse other => exact rest q (by simp [hq, Ne.symm other])

theorem mem_allX (r : XReg) : r ∈ allX := by cases r <;> decide

theorem mem_allF (r : FReg) : r ∈ allF := by cases r <;> decide

theorem applyWrites_writesOf (s : State) {t : State} (w : Memory.wf t.heap) :
    applyWrites s (writesOf t) =
      { s with x := t.x, f := t.f, ovf := t.ovf, pc := t.pc, bp := t.bp, heap := t.heap, stack := t.stack } := by
  rw [writesOf, applyWrites_append, applyWrites_append,
    applyWrites_writesOfX s t.x allX fun r hr => absurd (mem_allX r) hr,
    applyWrites_writesOfF _ t.f allF fun r hr => absurd (mem_allF r) hr]
  simp only [applyWrites, List.foldl_cons, List.foldl_nil, applyWrite, Heap.ofList_toList w]
  rfl

/-- Settles O53: one write at a time, then a list that reaches any admitted state, and the frame of every
list. -/
theorem syscallFunctionsHaveLimitedRights : Obligations.SyscallFunctionsHaveLimitedRights := by
  refine ⟨fun s => ⟨writesX_setX s, writesF_setF s, fun _ => rfl, fun _ => rfl, fun _ => rfl,
    fun cs => ⟨_, rfl, Heap.toList_ofList cs, Heap.ofList_wf cs⟩, fun _ => rfl, rfl, fun _ _ => rfl⟩,
    fun s t w ht => ⟨writesOf t, (applyWrites_writesOf s w).trans ht.symm⟩, fun s ws => ?_⟩
  obtain ⟨hcode, hparams, hrun, hcause, -, -⟩ := applyWrites_frame s ws
  exact ⟨hcode, hparams, hrun, hcause⟩

/-! ### The example write (R586; log 14) -/

section
variable {s : State}

theorem exampleWriteBytes_of_enough
    (enough : (s.getX .r2).toNat ≤ (heapBytesFrom s.heap (s.getX .r1).toNat).length) :
    exampleWriteBytes s = some ((heapBytesFrom s.heap (s.getX .r1).toNat).take (s.getX .r2).toNat) :=
  if_pos enough

theorem exampleWriteBytes_of_short
    (short : (heapBytesFrom s.heap (s.getX .r1).toNat).length < (s.getX .r2).toNat) :
    exampleWriteBytes s = none :=
  if_neg short.not_ge

theorem syscallReply_exampleWrite_of_some {bs : List Byte} (h : exampleWriteBytes s = some bs) :
    syscallReply (.exampleWrite .accepts) s =
      some ⟨[.setX .r3 0, .setX .r4 (BitVec.ofNat 64 bs.length)], .ok⟩ := by
  simp only [syscallReply, exampleWriteReply, h]

theorem syscallReply_exampleWrite_of_none (h : exampleWriteBytes s = none) :
    syscallReply (.exampleWrite .accepts) s = some ⟨[], .fault .invalidSysCallArg⟩ := by
  simp only [syscallReply, exampleWriteReply, h]

end

/-- Settles O54: the length of the bytes from the address on decides the reply; with enough of them the
count is exactly `x[2]`. -/
theorem exampleWriteOutcomes : Obligations.ExampleWriteOutcomes := by
  intro s ri he bs n
  refine ⟨fun enough => ?written, fun short => ?refused⟩
  case written =>
    have bytes : exampleWriteBytes s = some (bs.take n) := exampleWriteBytes_of_enough enough
    have count : BitVec.ofNat 64 (bs.take n).length = s.getX .r2 := by
      rw [List.length_take_of_le enough, BitVec.ofNat_toNat, BitVec.setWidth_eq]
    refine ⟨⟨_, exec_syscall_of_reply he (syscallReply_exampleWrite_of_some bytes), rfl, ?_,
      fun r other other' => ?_, rfl⟩, by simp only [exampleWriteOutput, bytes]⟩
    · exact count
    · exact (State.getX_setX_of_ne _ _ other'.symm).trans (State.getX_setX_of_ne _ _ other.symm)
  case refused =>
    have bytes : exampleWriteBytes s = none := exampleWriteBytes_of_short short
    exact ⟨exec_syscall_of_reply he (syscallReply_exampleWrite_of_none bytes), by simp only [exampleWriteOutput, bytes]⟩

end Sys2Proof.Machine
end

section
/-! PROOF. Rounding to nearest, ties to even (00_scope.md R12, 43_float_arith.md R460): the finite magnitudes
are the multiples `q * 2^k` with `q` of at most 53 bits, and `roundMagnitude` picks the nearest one. -/

namespace Sys2Proof.Machine

/-! ### The value of a magnitude -/

/-- The units of `2^-1074` that magnitude bits stand for. -/
def magnitudeUnits (m : Nat) : Nat :=
  if m / 2 ^ 52 = 0 then m % 2 ^ 52 else (2 ^ 52 + m % 2 ^ 52) * 2 ^ (m / 2 ^ 52 - 1)

theorem floatUnits_eq (b : Word) : floatUnits b = magnitudeUnits (magnitude b) := by
  rw [floatUnits, floatExp_eq_magnitude, floatFrac_eq_magnitude, magnitudeUnits]

theorem magnitude_ofNat {m : Nat} (hm : m < 2 ^ 63) : magnitude (BitVec.ofNat 64 m) = m := by
  rw [magnitude, BitVec.toNat_ofNat]
  omega

/-- `m` is written with exponent `k` and significand `q`. The significand `2^53` is the carry into the next
exponent. -/
structure IsScaled (m k q : Nat) : Prop where
  eq : m = k * 2 ^ 52 + q
  le : q ≤ 2 ^ 53
  normal : k = 0 ∨ 2 ^ 52 ≤ q

theorem IsScaled.units {m k q : Nat} (h : IsScaled m k q) : magnitudeUnits m = q * 2 ^ k := by
  obtain ⟨rfl, le, normal⟩ := h
  by_cases subnormal : q < 2 ^ 52
  · obtain rfl : k = 0 := by omega
    rw [magnitudeUnits, if_pos (by omega)]
    omega
  · by_cases carry : q = 2 ^ 53
    · have exponent : (k * 2 ^ 52 + q) / 2 ^ 52 = k + 2 := by omega
      have fraction : (k * 2 ^ 52 + q) % 2 ^ 52 = 0 := by omega
      rw [magnitudeUnits, exponent, fraction, if_neg (by omega), carry, Nat.add_zero, Nat.add_sub_assoc (by decide),
        pow_add]
      ring
    · have exponent : (k * 2 ^ 52 + q) / 2 ^ 52 = k + 1 := by omega
      have fraction : 2 ^ 52 + (k * 2 ^ 52 + q) % 2 ^ 52 = q := by omega
      rw [magnitudeUnits, exponent, fraction, if_neg (by omega), Nat.add_sub_cancel]

theorem exists_isScaled (m : Nat) : ∃ k q, IsScaled m k q ∧ q < 2 ^ 53 := by
  by_cases subnormal : m < 2 ^ 52
  · exact ⟨0, m, ⟨by omega, by omega, .inl rfl⟩, by omega⟩
  · exact ⟨m / 2 ^ 52 - 1, 2 ^ 52 + m % 2 ^ 52, ⟨by omega, by omega, .inr (by omega)⟩, by omega⟩

/-- The next magnitude has the next significand. -/
theorem magnitudeUnits_strictMono : StrictMono magnitudeUnits := by
  refine strictMono_nat_of_lt_succ fun m => ?_
  obtain ⟨k, q, scaled, small⟩ := exists_isScaled m
  have next : IsScaled (m + 1) k (q + 1) :=
    ⟨by rw [scaled.eq, Nat.add_assoc], small, scaled.normal.imp_right fun h => by omega⟩
  rw [scaled.units, next.units]
  exact Nat.mul_lt_mul_of_pos_right q.lt_succ_self (Nat.two_pow_pos k)

/-- A magnitude from the binade of exponent `k` on is a multiple of `2^k`. -/
theorem dvd_magnitudeUnits {m k : Nat} (h : k = 0 ∨ (k + 1) * 2 ^ 52 ≤ m) : 2 ^ k ∣ magnitudeUnits m := by
  obtain ⟨j, q, scaled, small⟩ := exists_isScaled m
  have le : k ≤ j := by
    have eq := scaled.eq
    omega
  rw [scaled.units]
  exact (Nat.pow_dvd_pow 2 le).mul_left q

/-! ### The nearest whole number -/

/-- `q * den` is as near to `num` as `v` is, and where both are equally near `q` is even. -/
def IsNearer (num den q v : Nat) : Prop :=
  ((q * den : Nat) - num : Int).natAbs < ((v : Nat) - num : Int).natAbs ∨
    (((q * den : Nat) - num : Int).natAbs = ((v : Nat) - num : Int).natAbs ∧ q % 2 = 0)

/-- The rounded quotient is off by at most a half, and by a half only where it is even. -/
theorem roundQuotient_spec (num : Nat) {den : Nat} (hd : 0 < den) :
    let q := roundQuotient num den
    2 * (q * den) ≤ 2 * num + den ∧ 2 * num ≤ 2 * (q * den) + den ∧
      (2 * (q * den) = 2 * num + den ∨ 2 * num = 2 * (q * den) + den → q % 2 = 0) := by
  have division : den * (num / den) + num % den = num := Nat.div_add_mod num den
  have remainder : num % den < den := Nat.mod_lt num hd
  have next : (num / den + 1) * den = num / den * den + den := Nat.succ_mul _ den
  rw [Nat.mul_comm] at division
  simp only [roundQuotient]
  split_ifs <;> omega

theorem roundQuotient_isNearer (num : Nat) {den q : Nat} (hd : 0 < den) (hq : q ≠ roundQuotient num den) :
    IsNearer num den (roundQuotient num den) (q * den) := by
  obtain ⟨notAbove, notBelow, tie⟩ := roundQuotient_spec num hd
  unfold IsNearer
  generalize roundQuotient num den = r at *
  rcases Nat.lt_or_gt_of_ne hq with less | more
  · have apart : q * den + den ≤ r * den := by
      rw [← Nat.succ_mul]
      exact Nat.mul_le_mul_right den less
    omega
  · have apart : r * den + den ≤ q * den := by
      rw [← Nat.succ_mul]
      exact Nat.mul_le_mul_right den more
    omega

/-- A quotient of at least `b` rounds to at least `b`. -/
theorem le_roundQuotient {num den b : Nat} (hd : 0 < den) (h : b * den ≤ num) : b ≤ roundQuotient num den := by
  have floor : b ≤ num / den := (Nat.le_div_iff_mul_le hd).2 h
  simp only [roundQuotient]
  split_ifs <;> omega

/-- A quotient below `b` rounds to at most `b`. -/
theorem roundQuotient_le {num den b : Nat} (hd : 0 < den) (h : num < b * den) : roundQuotient num den ≤ b := by
  have floor : num / den < b := (Nat.div_lt_iff_lt_mul hd).2 h
  simp only [roundQuotient]
  split_ifs <;> omega

/-- A quotient below an even `b` rounds up to it from halfway past `b - 1` on. -/
theorem roundQuotient_eq_iff {num den b : Nat} (hd : 0 < den) (even : b % 2 = 0) (h : num < b * den) :
    roundQuotient num den = b ↔ 2 * (b * den) ≤ 2 * num + den := by
  obtain ⟨notAbove, notBelow, tie⟩ := roundQuotient_spec num hd
  have le : roundQuotient num den ≤ b := roundQuotient_le hd h
  constructor
  · rintro rfl
    exact notAbove
  · intro half
    by_contra other
    have apart : (roundQuotient num den + 1) * den ≤ b * den := Nat.mul_le_mul_right den (by omega)
    rw [Nat.succ_mul] at apart
    have isTie : 2 * num = 2 * (roundQuotient num den * den) + den := by omega
    have isEven := tie (.inr isTie)
    have farther : (roundQuotient num den + 1 + 1) * den ≤ b * den := Nat.mul_le_mul_right den (by omega)
    rw [Nat.succ_mul, Nat.succ_mul] at farther
    omega

/-! ### The rounded magnitude -/

/-- The exponent that `roundMagnitude` picks. -/
def roundExponent (n d : Nat) : Nat := Nat.log2 (n / d) - 52

/-- The rounded significand at that exponent. -/
def roundSignificand (n d : Nat) : Nat := roundQuotient n (d * 2 ^ roundExponent n d)

/-- The rounded magnitude before it is cut off at infinity. -/
def unboundedMagnitude (n d : Nat) : Nat := roundExponent n d * 2 ^ 52 + roundSignificand n d

theorem roundMagnitude_eq (n d : Nat) : roundMagnitude n d = min (unboundedMagnitude n d) infMagnitude := rfl

theorem roundMagnitude_le (n d : Nat) : roundMagnitude n d ≤ infMagnitude := min_le_right _ _

section
variable {n d : Nat} (hd : 0 < d)
include hd

/-- The exponent leaves 53 significant bits, or fewer at exponent 0. -/
theorem roundExponent_spec :
    n < 2 ^ 53 * (d * 2 ^ roundExponent n d) ∧
      (roundExponent n d = 0 ∨ 2 ^ 52 * (d * 2 ^ roundExponent n d) ≤ n) := by
  have upper : n / d < 2 ^ (roundExponent n d + 53) :=
    Nat.lt_log2_self.trans_le (Nat.pow_le_pow_right (by decide) (by rw [roundExponent]; omega))
  refine ⟨?_, ?_⟩
  · rw [Nat.div_lt_iff_lt_mul hd, pow_add] at upper
    linarith
  · by_cases zero : roundExponent n d = 0
    · exact .inl zero
    · have exponent : Nat.log2 (n / d) = roundExponent n d + 52 := by
        rw [roundExponent] at zero ⊢
        omega
      have nonzero : n / d ≠ 0 := by
        intro e
        rw [e, Nat.log2_zero] at exponent
        omega
      have lower : 2 ^ (roundExponent n d + 52) ≤ n / d := by
        rw [← exponent]
        exact Nat.log2_self_le nonzero
      rw [Nat.le_div_iff_mul_le hd, pow_add] at lower
      exact .inr (by linarith)

theorem scale_pos : 0 < d * 2 ^ roundExponent n d := Nat.mul_pos hd (Nat.two_pow_pos _)

theorem unboundedMagnitude_isScaled :
    IsScaled (unboundedMagnitude n d) (roundExponent n d) (roundSignificand n d) := by
  obtain ⟨upper, lower⟩ := roundExponent_spec (n := n) hd
  exact ⟨rfl, roundQuotient_le (scale_pos hd) upper, lower.imp_right (le_roundQuotient (scale_pos hd))⟩

/-- No other magnitude is nearer to `n / d` than the rounded one, and where another is as near the rounded
significand is even. A magnitude below the binade of the quotient is farther than the binade's first. -/
theorem unboundedMagnitude_isNearer {m : Nat} (hm : m ≠ unboundedMagnitude n d) :
    IsNearer n (d * 2 ^ roundExponent n d) (roundSignificand n d) (magnitudeUnits m * d) := by
  obtain ⟨-, lower⟩ := roundExponent_spec (n := n) hd
  have scaled := unboundedMagnitude_isScaled (n := n) hd
  have pos := scale_pos (n := n) hd
  by_cases inBinade : roundExponent n d = 0 ∨ (roundExponent n d + 1) * 2 ^ 52 ≤ m
  · obtain ⟨q, value⟩ := dvd_magnitudeUnits inBinade
    have other : q ≠ roundSignificand n d := by
      rintro rfl
      refine hm (magnitudeUnits_strictMono.injective ?_)
      rw [value, scaled.units, Nat.mul_comm]
    have product : magnitudeUnits m * d = q * (d * 2 ^ roundExponent n d) := by
      rw [value]
      ring
    rw [product]
    exact roundQuotient_isNearer n pos other
  · obtain ⟨positive, below⟩ := not_or.1 inBinade
    have first : IsScaled ((roundExponent n d + 1) * 2 ^ 52) (roundExponent n d) (2 ^ 52) :=
      ⟨by ring, by decide, .inr le_rfl⟩
    have smaller : magnitudeUnits m < 2 ^ 52 * 2 ^ roundExponent n d := by
      rw [← first.units]
      exact magnitudeUnits_strictMono (not_le.1 below)
    have farther : magnitudeUnits m * d < 2 ^ 52 * (d * 2 ^ roundExponent n d) := by
      calc magnitudeUnits m * d
          _ < 2 ^ 52 * 2 ^ roundExponent n d * d := Nat.mul_lt_mul_of_pos_right smaller hd
          _ = 2 ^ 52 * (d * 2 ^ roundExponent n d) := by ring
    have reached : 2 ^ 52 * (d * 2 ^ roundExponent n d) ≤ n := lower.resolve_left positive
    by_cases rounded : 2 ^ 52 = roundSignificand n d
    · rw [IsNearer, ← rounded]
      omega
    · have nearer := roundQuotient_isNearer n pos rounded
      rw [IsNearer] at nearer ⊢
      rw [roundSignificand]
      omega

/-- The rounded magnitude reaches the first one of exponent `e + 2` from halfway past the one before on. -/
theorem le_unboundedMagnitude_iff (e : Nat) :
    (e + 3) * 2 ^ 52 ≤ unboundedMagnitude n d ↔ d * ((2 ^ 54 - 1) * 2 ^ e) ≤ n := by
  obtain ⟨upper, lower⟩ := roundExponent_spec (n := n) hd
  obtain ⟨eq, le, normal⟩ := unboundedMagnitude_isScaled (n := n) hd
  have bound : d * ((2 ^ 54 - 1) * 2 ^ e) = (2 ^ 54 - 1) * (d * 2 ^ e) := Nat.mul_left_comm _ _ _
  rw [eq, bound]
  rcases Nat.lt_trichotomy (roundExponent n d) (e + 1) with small | last | large
  · have scale : d * 2 ^ roundExponent n d ≤ d * 2 ^ e :=
      Nat.mul_le_mul_left d (Nat.pow_le_pow_right (by decide) (by omega))
    omega
  · have scale : d * 2 ^ roundExponent n d = 2 * (d * 2 ^ e) := by
      rw [last, pow_succ]
      ring
    have carry := roundQuotient_eq_iff (scale_pos (n := n) hd) (b := 2 ^ 53) (by decide) upper
    rw [← roundSignificand, scale] at carry
    omega
  · have scale : d * 2 ^ (e + 2) ≤ d * 2 ^ roundExponent n d :=
      Nat.mul_le_mul_left d (Nat.pow_le_pow_right (by decide) large)
    have multiple : d * 2 ^ (e + 2) = 4 * (d * 2 ^ e) := by
      rw [pow_add]
      ring
    omega

theorem roundMagnitude_eq_infMagnitude_iff :
    roundMagnitude n d = infMagnitude ↔ d * ((2 ^ 54 - 1) * 2 ^ 2044) ≤ n := by
  rw [← le_unboundedMagnitude_iff hd, roundMagnitude_eq]
  exact min_eq_right_iff

omit hd in
/-- A rounded magnitude below infinity was not cut off. -/
theorem roundMagnitude_eq_unbounded (h : roundMagnitude n d < infMagnitude) :
    roundMagnitude n d = unboundedMagnitude n d := by
  rw [roundMagnitude_eq] at h ⊢
  omega

/-- A finite rounded magnitude is nearest to `n / d`, and its last bit is 0 where another is as near. -/
theorem roundMagnitude_nearest (finite : roundMagnitude n d < infMagnitude) {m : Nat}
    (hm : m ≠ roundMagnitude n d) :
    let err := ((magnitudeUnits (roundMagnitude n d) * d : Nat) - n : Int).natAbs
    let other := ((magnitudeUnits m * d : Nat) - n : Int).natAbs
    err < other ∨ (err = other ∧ roundMagnitude n d % 2 = 0) := by
  rw [roundMagnitude_eq_unbounded finite] at hm ⊢
  have scaled := unboundedMagnitude_isScaled (n := n) hd
  have value : magnitudeUnits (unboundedMagnitude n d) * d =
      roundSignificand n d * (d * 2 ^ roundExponent n d) := by
    rw [scaled.units]
    ring
  have parity : unboundedMagnitude n d % 2 = roundSignificand n d % 2 := by
    rw [scaled.eq]
    omega
  rw [value, parity]
  exact unboundedMagnitude_isNearer hd hm

end

/-- Settles O31: below infinity the rounded magnitude is the nearest of all magnitudes. -/
theorem roundingIsNearestTiesToEven : Obligations.RoundingIsNearestTiesToEven := by
  intro n d hd
  refine ⟨roundMagnitude_eq_infMagnitude_iff hd, roundMagnitude_le n d, fun finite m hm other => ?_⟩
  have units {p : Nat} (hp : p < infMagnitude) : floatUnits (BitVec.ofNat 64 p) = magnitudeUnits p := by
    rw [floatUnits_eq, magnitude_ofNat (hp.trans (by decide))]
  rw [units finite, units hm]
  exact roundMagnitude_nearest hd finite other

/-! ### Signed values -/

/-- The number with a sign and an absolute value. -/
def signed (neg : Bool) (n : Nat) : Int := if neg then -(n : Int) else n

theorem floatSigned_eq (b : Word) : floatSigned b = signed (floatSign b) (floatUnits b) := rfl

theorem floatSigned_floatPack (neg : Bool) {m : Nat} (hm : m < 2 ^ 63) :
    floatSigned (floatPack neg m) = signed neg (magnitudeUnits m) := by
  rw [floatSigned_eq, floatSign_floatPack neg hm, floatUnits_eq, magnitude_floatPack neg hm]

theorem getLsbD_zero_floatPack (neg : Bool) {m : Nat} (hm : m < 2 ^ 63) :
    (floatPack neg m).getLsbD 0 = decide (m % 2 = 1) := by
  rw [BitVec.getLsbD, Nat.testBit_zero, toNat_floatPack neg hm]
  exact decide_eq_decide.2 (by split <;> omega)

@[simp] theorem signed_zero (neg : Bool) : signed neg 0 = 0 := by cases neg <;> rfl

@[simp] theorem natAbs_signed (neg : Bool) (n : Nat) : (signed neg n).natAbs = n := by
  cases neg <;> simp [signed]

theorem signed_lt_zero (neg : Bool) {n : Nat} (hn : 0 < n) : decide (signed neg n < 0) = neg := by
  cases neg
  · simp [signed]
  · simpa [signed] using hn

theorem signed_mul (neg neg' : Bool) (n n' : Nat) :
    signed neg n * signed neg' n' = signed (neg != neg') (n * n') := by
  cases neg <;> cases neg' <;> simp [signed]

theorem signed_mul_sign (neg neg' : Bool) (n p : Nat) :
    signed neg n * p * (if neg' = true then -1 else 1) = signed (neg != neg') (n * p) := by
  cases neg <;> cases neg' <;> simp [signed]

theorem signed_mul_natCast (neg : Bool) (n d : Nat) : signed neg n * d = signed neg (n * d) := by
  cases neg <;> simp [signed]

theorem natAbs_signed_sub (neg : Bool) (m n : Nat) :
    (signed neg m - signed neg n).natAbs = ((m : Int) - n).natAbs := by
  cases neg
  · rfl
  · simp only [signed, if_true]
    omega

theorem natAbs_signed_sub_of_ne {neg neg' : Bool} (h : neg' ≠ neg) (m n : Nat) :
    (signed neg' m - signed neg n).natAbs = m + n := by
  obtain rfl := Bool.eq_not_of_ne h
  cases neg <;> simp only [signed, Bool.not_true, Bool.not_false, if_true, Bool.false_eq_true, if_false] <;>
    omega

theorem signed_natAbs (n : Int) : signed (decide (n < 0)) n.natAbs = n := by
  rw [signed]
  split <;> simp only [decide_eq_true_eq] at * <;> omega

/-- A zero of either sign is the exact value 0. -/
theorem roundsTo_zero (neg : Bool) {d : Nat} (hd : 0 < d) : RoundsTo 0 d (floatPack neg 0) := by
  have value : floatSigned (floatPack neg 0) = 0 := by cases neg <;> rfl
  refine ⟨fun h => absurd rfl h, fun h => ?_, fun _ => ⟨by cases neg <;> decide, fun y _ other => .inl ?_⟩⟩
  · have positive : 0 < d * ((2 ^ 54 - 1) * 2 ^ 2044) := Nat.mul_pos hd (by positivity)
    exact absurd h positive.not_ge
  · rw [value] at other ⊢
    have nonzero : floatSigned y * d ≠ 0 := Int.mul_ne_zero other (by omega)
    omega

/-- A value of the other sign, or of the same sign and another magnitude, is no nearer. -/
theorem roundsTo_floatPack (neg : Bool) {n d : Nat} (hd : 0 < d) (hn : 0 < n) :
    RoundsTo (signed neg n) d (floatPack neg (roundMagnitude n d)) := by
  have small : roundMagnitude n d < 2 ^ 63 := (roundMagnitude_le n d).trans_lt (by decide)
  have isSign := signed_lt_zero neg hn
  refine ⟨fun _ => ?sign, fun h => ?inf, fun h => ⟨?finite, fun y hy other => ?nearest⟩⟩
  case sign => rw [floatSign_floatPack neg small, isSign]
  case inf =>
    rw [natAbs_signed, ← roundMagnitude_eq_infMagnitude_iff hd] at h
    rw [h, isSign]
    cases neg <;> rfl
  all_goals
    have finite : roundMagnitude n d < infMagnitude := by
      rw [natAbs_signed, ← not_le, ← roundMagnitude_eq_infMagnitude_iff hd] at h
      exact lt_of_le_of_ne (roundMagnitude_le n d) h
  case finite => rwa [floatExp_lt_iff, magnitude_floatPack neg small]
  case nearest =>
    rw [floatSigned_floatPack neg small, floatSigned_eq y, floatUnits_eq] at other ⊢
    rw [getLsbD_zero_floatPack neg small]
    simp only [signed_mul_natCast, natAbs_signed_sub]
    have nearest {m : Nat} := roundMagnitude_nearest (m := m) hd finite
    generalize roundMagnitude n d = r at *
    by_cases sameSign : floatSign y = neg
    · have otherMagnitude : magnitude y ≠ r := by
        intro same
        rw [sameSign, same] at other
        exact other rfl
      rw [sameSign, natAbs_signed_sub]
      simpa using nearest otherMagnitude
    · rw [natAbs_signed_sub_of_ne sameSign]
      have zeroUnits : magnitudeUnits 0 = 0 := rfl
      by_cases zero : r = 0
      · rw [zero, zeroUnits] at other ⊢
        rw [signed_zero] at other
        have positive : 0 < magnitudeUnits (magnitude y) * d := by
          refine Nat.mul_pos (Nat.pos_of_ne_zero fun e => other ?_) hd
          rw [e, signed_zero]
        omega
      · have notZero := nearest (Ne.symm zero)
        rw [zeroUnits] at notZero
        simp only [decide_eq_false_iff_not]
        omega

/-- The rounded value of a nonzero whole number of units. -/
theorem roundsTo_of_ne_zero {n : Int} (hn : n ≠ 0) :
    RoundsTo n 1 (floatPack (n < 0) (roundMagnitude n.natAbs 1)) := by
  have rounded := roundsTo_floatPack (n < 0) (n := n.natAbs) Nat.one_pos (by omega)
  rwa [signed_natAbs] at rounded

end Sys2Proof.Machine
end

section
/-! PROOF. The float operations (43_float_arith.md R460-R464) by the classes of their operands: finite ones,
whose exact result is rounded, and the special cases of zeros, infinities and NaNs (log 11). -/

namespace Sys2Proof.Machine

/-! ### Classes of values -/

theorem floatUnits_eq_zero_iff (b : Word) : floatUnits b = 0 ↔ floatIsZero b = true := by
  have zeroUnits : magnitudeUnits 0 = 0 := rfl
  rw [floatUnits_eq, floatIsZero_iff, ← zeroUnits, magnitudeUnits_strictMono.injective.eq_iff, zeroUnits]

theorem floatUnits_pos {b : Word} (h : floatIsZero b = false) : 0 < floatUnits b := by
  refine Nat.pos_of_ne_zero fun e => ?_
  rw [(floatUnits_eq_zero_iff b).1 e] at h
  cases h

section
variable {b : Word}

theorem floatIsNaN_of_finite (h : floatExp b < 2047) : floatIsNaN b = false := by
  rw [floatExp_lt_iff] at h
  rw [Bool.eq_false_iff, Ne, floatIsNaN_iff]
  omega

theorem floatIsInf_of_finite (h : floatExp b < 2047) : floatIsInf b = false := by
  rw [floatExp_lt_iff] at h
  rw [Bool.eq_false_iff, Ne, floatIsInf_iff]
  omega

theorem floatIsNaN_of_isInf (h : floatIsInf b = true) : floatIsNaN b = false := by
  rw [floatIsInf_iff] at h
  rw [Bool.eq_false_iff, Ne, floatIsNaN_iff]
  omega

theorem floatIsZero_of_isInf (h : floatIsInf b = true) : floatIsZero b = false := by
  rw [floatIsInf_iff] at h
  rw [Bool.eq_false_iff, Ne, floatIsZero_iff, h]
  decide

/-- An infinity is known by its sign. -/
theorem eq_signedInf (h : floatIsInf b = true) : b = signedInf (floatSign b) := by
  have pack := floatPack_sign_magnitude b
  rw [(floatIsInf_iff b).1 h] at pack
  rw [← pack, floatSign_floatPack _ (by decide)]
  cases floatSign b <;> rfl

end

theorem floatPack_zero (neg : Bool) : floatPack neg 0 = signedZero neg := by cases neg <;> rfl

theorem floatInf_eq (neg : Bool) : floatInf neg = signedInf neg := by cases neg <;> rfl

/-! ### The other sign (R485) -/

theorem getLsbD_floatPack (neg : Bool) {m j : Nat} (hm : m < 2 ^ 63) (hj : j < 64) :
    (floatPack neg m).getLsbD j = if j = 63 then neg else m.testBit j := by
  have top : m.testBit 63 = false := Nat.testBit_lt_two_pow hm
  rw [BitVec.getLsbD, toNat_floatPack neg hm]
  cases neg with
  | false =>
    rw [if_neg Bool.false_ne_true, Nat.zero_add]
    split
    case isTrue isTop => rw [isTop, top]
    case isFalse => rfl
  | true =>
    rw [if_pos rfl]
    split
    case isTrue isTop => rw [isTop, Nat.testBit_two_pow_add_eq, top, Bool.not_false]
    case isFalse below => exact Nat.testBit_two_pow_add_gt (by omega) m

theorem floatNeg_eq (b : Word) : floatNeg b = floatPack (!floatSign b) (magnitude b) := by
  refine BitVec.eq_of_getLsbD_eq fun j hj => ?_
  rw [floatNeg_getLsbD b j hj, getLsbD_floatPack _ (magnitude_lt b) hj, magnitude, Nat.testBit_mod_two_pow]
  by_cases top : j = 63
  · rw [top, floatSign]
    simp
  · rw [if_neg top, decide_eq_false top, decide_eq_true (show j < 63 by omega), Bool.bne_false, Bool.true_and,
      BitVec.getLsbD]

section
variable (b : Word)

@[simp] theorem floatSign_floatNeg : floatSign (floatNeg b) = !floatSign b := by
  rw [floatNeg_eq, floatSign_floatPack _ (magnitude_lt b)]

@[simp] theorem magnitude_floatNeg : magnitude (floatNeg b) = magnitude b := by
  rw [floatNeg_eq, magnitude_floatPack _ (magnitude_lt b)]

@[simp] theorem floatExp_floatNeg : floatExp (floatNeg b) = floatExp b := by
  rw [floatExp_eq_magnitude, magnitude_floatNeg, floatExp_eq_magnitude]

@[simp] theorem floatFrac_floatNeg : floatFrac (floatNeg b) = floatFrac b := by
  rw [floatFrac_eq_magnitude, magnitude_floatNeg, floatFrac_eq_magnitude]

@[simp] theorem floatIsNaN_floatNeg : floatIsNaN (floatNeg b) = floatIsNaN b := by simp [floatIsNaN]

@[simp] theorem floatIsInf_floatNeg : floatIsInf (floatNeg b) = floatIsInf b := by simp [floatIsInf]

@[simp] theorem floatIsZero_floatNeg : floatIsZero (floatNeg b) = floatIsZero b := by simp [floatIsZero]

@[simp] theorem floatSigned_floatNeg : floatSigned (floatNeg b) = -floatSigned b := by
  simp only [floatSigned, floatUnits, floatSign_floatNeg, floatExp_floatNeg, floatFrac_floatNeg]
  cases floatSign b <;> simp

end

/-! ### Finite operands -/

section
variable {a b : Word} (ha : floatExp a < 2047) (hb : floatExp b < 2047)
include ha hb

theorem floatAdd_of_finite : floatAdd a b =
    if floatSigned a + floatSigned b = 0 then some (floatPack (floatSign a && floatSign b) 0)
    else some (floatPack (floatSigned a + floatSigned b < 0)
      (roundMagnitude (floatSigned a + floatSigned b).natAbs 1)) := by
  simp [floatAdd, floatIsNaN_of_finite, floatIsInf_of_finite, ha, hb]

theorem floatMul_of_finite : floatMul a b =
    if floatIsZero a || floatIsZero b then some (floatPack (floatSign a != floatSign b) 0)
    else some (floatPack (floatSign a != floatSign b)
      (roundMagnitude (floatUnits a * floatUnits b) (2 ^ 1074))) := by
  simp [-Nat.reducePow, floatMul, floatIsNaN_of_finite, floatIsInf_of_finite, ha, hb]

theorem floatDiv_of_finite (nonzero : floatIsZero b = false) : floatDiv a b =
    if floatIsZero a then some (floatPack (floatSign a != floatSign b) 0)
    else some (floatPack (floatSign a != floatSign b)
      (roundMagnitude (floatUnits a * 2 ^ 1074) (floatUnits b))) := by
  simp [-Nat.reducePow, floatDiv, floatIsNaN_of_finite, floatIsInf_of_finite, ha, hb, nonzero]

theorem floatAdd_roundsTo : ∃ r, floatAdd a b = some r ∧ RoundsTo (floatSigned a + floatSigned b) 1 r := by
  rw [floatAdd_of_finite ha hb]
  split
  case isTrue zero => exact ⟨_, rfl, zero ▸ roundsTo_zero _ Nat.one_pos⟩
  case isFalse nonzero => exact ⟨_, rfl, roundsTo_of_ne_zero nonzero⟩

theorem floatSub_roundsTo : ∃ r, floatSub a b = some r ∧ RoundsTo (floatSigned a - floatSigned b) 1 r := by
  have negated : floatExp (floatNeg b) < 2047 := by rwa [floatExp_floatNeg]
  have added := floatAdd_roundsTo ha negated
  rwa [floatSigned_floatNeg, ← sub_eq_add_neg] at added

theorem floatMul_roundsTo :
    ∃ r, floatMul a b = some r ∧ RoundsTo (floatSigned a * floatSigned b) (2 ^ 1074) r := by
  rw [floatMul_of_finite ha hb, floatSigned_eq, floatSigned_eq, signed_mul]
  split
  case isTrue zero =>
    have product : floatUnits a * floatUnits b = 0 := by
      rw [Nat.mul_eq_zero, floatUnits_eq_zero_iff, floatUnits_eq_zero_iff]
      simpa using zero
    rw [product, signed_zero]
    exact ⟨_, rfl, roundsTo_zero _ (pow_pos two_pos 1074)⟩
  case isFalse nonzero =>
    obtain ⟨za, zb⟩ : floatIsZero a = false ∧ floatIsZero b = false := by simpa using nonzero
    exact ⟨_, rfl, roundsTo_floatPack _ (pow_pos two_pos 1074) (Nat.mul_pos (floatUnits_pos za) (floatUnits_pos zb))⟩

theorem floatDiv_roundsTo (nonzero : floatIsZero b = false) : ∃ r, floatDiv a b = some r ∧
    RoundsTo (floatSigned a * 2 ^ 1074 * if floatSign b = true then -1 else 1) (floatUnits b) r := by
  have dividend : floatSigned a * 2 ^ 1074 * (if floatSign b = true then -1 else 1) =
      signed (floatSign a != floatSign b) (floatUnits a * 2 ^ 1074) := by
    rw [floatSigned_eq]
    exact_mod_cast signed_mul_sign _ _ _ _
  rw [floatDiv_of_finite ha hb nonzero, dividend]
  split
  case isTrue zero =>
    rw [(floatUnits_eq_zero_iff a).2 zero, Nat.zero_mul, signed_zero]
    exact ⟨_, rfl, roundsTo_zero _ (floatUnits_pos nonzero)⟩
  case isFalse other =>
    have positive : 0 < floatUnits a * 2 ^ 1074 :=
      Nat.mul_pos (floatUnits_pos (by simpa using other)) (pow_pos two_pos 1074)
    exact ⟨_, rfl, roundsTo_floatPack _ (floatUnits_pos nonzero) positive⟩

end

/-- Settles O32: the exact result of each operation on finite operands is a signed quotient of whole
numbers of units, zero or rounded once. -/
theorem floatResultsAreNearest : Obligations.FloatResultsAreNearest :=
  fun _ _ ha hb => ⟨floatAdd_roundsTo ha hb, floatSub_roundsTo ha hb, floatMul_roundsTo ha hb,
    floatDiv_roundsTo ha hb⟩

end Sys2Proof.Machine
end

section
/-! PROOF. The special cases of the float operations (43_float_arith.md section 2; log 11): the results that
are NaNs, the signs of zeros, and operations on infinities. -/

namespace Sys2Proof.Machine

/-- A pattern is a NaN, an infinity or finite, and only a finite one is a zero. -/
theorem float_cases (b : Word) :
    (floatIsNaN b = true ∧ floatIsInf b = false ∧ floatIsZero b = false) ∨
    (floatIsNaN b = false ∧ floatIsInf b = true ∧ floatIsZero b = false) ∨
    (floatIsNaN b = false ∧ floatIsInf b = false ∧ floatExp b < 2047) := by
  rcases Nat.lt_trichotomy (magnitude b) infMagnitude with finite | inf | nan
  · rw [← floatExp_lt_iff] at finite
    exact .inr (.inr ⟨floatIsNaN_of_finite finite, floatIsInf_of_finite finite, finite⟩)
  · rw [← floatIsInf_iff] at inf
    exact .inr (.inl ⟨floatIsNaN_of_isInf inf, inf, floatIsZero_of_isInf inf⟩)
  · have notInf : ¬floatIsInf b = true := by rw [floatIsInf_iff]; omega
    have notZero : ¬floatIsZero b = true := by rw [floatIsZero_iff]; omega
    exact .inl ⟨(floatIsNaN_iff b).2 nan, by simpa using notInf, by simpa using notZero⟩

/-! ### Each operation by the classes of its operands -/

section
variable {a b : Word}

theorem floatAdd_of_nan (h : floatIsNaN a = true ∨ floatIsNaN b = true) : floatAdd a b = none := by
  simp [floatAdd, h]

theorem floatMul_of_nan (h : floatIsNaN a = true ∨ floatIsNaN b = true) : floatMul a b = none := by
  simp [floatMul, h]

theorem floatDiv_of_nan (h : floatIsNaN a = true ∨ floatIsNaN b = true) : floatDiv a b = none := by
  simp [floatDiv, h]

theorem floatAdd_of_inf_left (ia : floatIsInf a = true) (nb : floatIsNaN b = false) :
    floatAdd a b = if floatIsInf b = true ∧ floatSign a ≠ floatSign b then none else some a := by
  simp [floatAdd, floatIsNaN_of_isInf ia, ia, nb]

theorem floatAdd_of_inf_right (ha : floatExp a < 2047) (ib : floatIsInf b = true) :
    floatAdd a b = some b := by
  simp [floatAdd, floatIsNaN_of_finite ha, floatIsInf_of_finite ha, floatIsNaN_of_isInf ib, ib]

theorem floatMul_of_inf (na : floatIsNaN a = false) (nb : floatIsNaN b = false)
    (h : floatIsInf a = true ∨ floatIsInf b = true) : floatMul a b =
      if floatIsZero a = true ∨ floatIsZero b = true then none
      else some (signedInf (floatSign a != floatSign b)) := by
  simp [-Nat.reducePow, floatMul, na, nb, h, floatInf_eq]

theorem floatDiv_of_inf_left (ia : floatIsInf a = true) (nb : floatIsNaN b = false) :
    floatDiv a b =
      if floatIsInf b = true then none else some (signedInf (floatSign a != floatSign b)) := by
  simp [-Nat.reducePow, floatDiv, floatIsNaN_of_isInf ia, ia, nb, floatInf_eq]

theorem floatDiv_of_inf_right (ha : floatExp a < 2047) (ib : floatIsInf b = true) :
    floatDiv a b = some (signedZero (floatSign a != floatSign b)) := by
  simp [-Nat.reducePow, floatDiv, floatIsNaN_of_finite ha, floatIsInf_of_finite ha, floatIsNaN_of_isInf ib,
    ib, floatPack_zero]

theorem floatDiv_of_zero (ha : floatExp a < 2047) (hb : floatExp b < 2047) (zb : floatIsZero b = true) :
    floatDiv a b =
      if floatIsZero a = true then none else some (signedInf (floatSign a != floatSign b)) := by
  simp [-Nat.reducePow, floatDiv, floatIsNaN_of_finite, floatIsInf_of_finite, ha, hb, zb, floatInf_eq]

end

/-! ### NaN results -/

section
variable (a b : Word)

theorem floatAdd_eq_none_iff : floatAdd a b = none ↔ floatIsNaN a = true ∨ floatIsNaN b = true ∨
    (floatIsInf a = true ∧ floatIsInf b = true ∧ floatSign a ≠ floatSign b) := by
  rcases float_cases a with ⟨na, -⟩ | ⟨na, ia, -⟩ | ⟨na, ia, ha⟩
  · simp [floatAdd_of_nan (.inl na), na]
  all_goals rcases float_cases b with ⟨nb, -⟩ | ⟨nb, ib, -⟩ | ⟨nb, ib, hb⟩
  case inr.inl.inl | inr.inr.inl => simp [floatAdd_of_nan (.inr nb), nb]
  case inr.inl.inr.inl | inr.inl.inr.inr => simp [floatAdd_of_inf_left ia nb, na, nb, ia, ib]
  case inr.inr.inr.inl => simp [floatAdd_of_inf_right ha ib, na, nb, ia]
  case inr.inr.inr.inr =>
    obtain ⟨r, e, -⟩ := floatAdd_roundsTo ha hb
    simp [e, na, nb, ia]

theorem floatSub_eq_none_iff : floatSub a b = none ↔ floatIsNaN a = true ∨ floatIsNaN b = true ∨
    (floatIsInf a = true ∧ floatIsInf b = true ∧ floatSign a = floatSign b) := by
  simp [floatSub, floatAdd_eq_none_iff]

theorem floatMul_eq_none_iff : floatMul a b = none ↔ floatIsNaN a = true ∨ floatIsNaN b = true ∨
    (floatIsInf a = true ∧ floatIsZero b = true) ∨ (floatIsZero a = true ∧ floatIsInf b = true) := by
  rcases float_cases a with ⟨na, -⟩ | ⟨na, ia, za⟩ | ⟨na, ia, ha⟩
  · simp [floatMul_of_nan (.inl na), na]
  all_goals rcases float_cases b with ⟨nb, -⟩ | ⟨nb, ib, zb⟩ | ⟨nb, ib, hb⟩
  case inr.inl.inl | inr.inr.inl => simp [floatMul_of_nan (.inr nb), nb]
  case inr.inl.inr.inl => simp [floatMul_of_inf na nb (.inl ia), na, nb, za, zb]
  case inr.inl.inr.inr => simp [floatMul_of_inf na nb (.inl ia), na, nb, ia, za]
  case inr.inr.inr.inl => simp [floatMul_of_inf na nb (.inr ib), na, nb, ib, zb]
  case inr.inr.inr.inr =>
    obtain ⟨r, e, -⟩ := floatMul_roundsTo ha hb
    simp [e, na, nb, ia, ib]

theorem floatDiv_eq_none_iff : floatDiv a b = none ↔ floatIsNaN a = true ∨ floatIsNaN b = true ∨
    (floatIsZero a = true ∧ floatIsZero b = true) ∨ (floatIsInf a = true ∧ floatIsInf b = true) := by
  rcases float_cases a with ⟨na, -⟩ | ⟨na, ia, za⟩ | ⟨na, ia, ha⟩
  · simp [floatDiv_of_nan (.inl na), na]
  all_goals rcases float_cases b with ⟨nb, -⟩ | ⟨nb, ib, zb⟩ | ⟨nb, ib, hb⟩
  case inr.inl.inl | inr.inr.inl => simp [floatDiv_of_nan (.inr nb), nb]
  case inr.inl.inr.inl | inr.inl.inr.inr => simp [floatDiv_of_inf_left ia nb, na, nb, ia, ib, za]
  case inr.inr.inr.inl => simp [floatDiv_of_inf_right ha ib, na, nb, ia, zb]
  case inr.inr.inr.inr =>
    cases zb : floatIsZero b with
    | true => simp [floatDiv_of_zero ha hb zb, na, nb, ia]
    | false =>
      obtain ⟨r, e, -⟩ := floatDiv_roundsTo ha hb zb
      simp [e, na, nb, ia]

end

/-! ### Zero results of finite operands -/

section
variable {a b : Word} (ha : floatExp a < 2047) (hb : floatExp b < 2047)
include ha hb

/-- Two addends that are both negative cancel only where both are zeros. -/
theorem floatAdd_of_sum_zero (sum : floatSigned a + floatSigned b = 0) : floatAdd a b =
    some (signedZero (floatIsZero a && floatIsZero b && floatSign a && floatSign b)) := by
  rw [floatAdd_of_finite ha hb, if_pos sum, floatPack_zero]
  cases negative : floatSign a && floatSign b with
  | false => rw [Bool.and_assoc, negative, Bool.and_false]
  | true =>
    obtain ⟨sa, sb⟩ := Bool.and_eq_true_iff.1 negative
    rw [floatSigned_eq, floatSigned_eq, sa, sb] at sum
    simp only [signed, if_true] at sum
    have za : floatIsZero a = true := (floatUnits_eq_zero_iff a).1 (by omega)
    have zb : floatIsZero b = true := (floatUnits_eq_zero_iff b).1 (by omega)
    rw [za, zb, sa, sb]
    rfl

theorem floatSub_of_difference_zero (difference : floatSigned a - floatSigned b = 0) : floatSub a b =
    some (signedZero (floatIsZero a && floatIsZero b && floatSign a && !floatSign b)) := by
  have sum : floatSigned a + floatSigned (floatNeg b) = 0 := by
    rwa [floatSigned_floatNeg, ← sub_eq_add_neg]
  have negated : floatExp (floatNeg b) < 2047 := by rwa [floatExp_floatNeg]
  have added := floatAdd_of_sum_zero ha negated sum
  rwa [floatIsZero_floatNeg, floatSign_floatNeg] at added

theorem floatMul_of_zero (zero : floatIsZero a = true ∨ floatIsZero b = true) :
    floatMul a b = some (signedZero (floatSign a != floatSign b)) := by
  rw [floatMul_of_finite ha hb, if_pos (by simpa using zero), floatPack_zero]

theorem floatDiv_of_zero_dividend (za : floatIsZero a = true) (zb : floatIsZero b = false) :
    floatDiv a b = some (signedZero (floatSign a != floatSign b)) := by
  rw [floatDiv_of_finite ha hb zb, if_pos za, floatPack_zero]

theorem floatDiv_of_zero_divisor (za : floatIsZero a = false) (zb : floatIsZero b = true) :
    floatDiv a b = some (signedInf (floatSign a != floatSign b)) := by
  rw [floatDiv_of_zero ha hb zb, if_neg (by simp [za])]

end

/-! ### Infinities -/

section
variable {a b : Word}

theorem floatAdd_inf_left (ia : floatIsInf a = true) (h : floatExp b < 2047 ∨ b = a) :
    floatAdd a b = some a := by
  rcases h with hb | rfl
  · rw [floatAdd_of_inf_left ia (floatIsNaN_of_finite hb), if_neg (by simp [floatIsInf_of_finite hb])]
  · rw [floatAdd_of_inf_left ia (floatIsNaN_of_isInf ia), if_neg (by simp)]

theorem floatNeg_of_isInf (ib : floatIsInf b = true) : floatNeg b = signedInf (!floatSign b) :=
  (eq_signedInf ((floatIsInf_floatNeg b).trans ib)).trans (by rw [floatSign_floatNeg])

theorem floatSub_inf_left (ia : floatIsInf a = true)
    (h : floatExp b < 2047 ∨ (floatIsInf b = true ∧ floatSign b ≠ floatSign a)) : floatSub a b = some a := by
  refine floatAdd_inf_left ia ?_
  rcases h with hb | ⟨ib, other⟩
  · exact .inl (by rwa [floatExp_floatNeg])
  · rw [floatNeg_of_isInf ib, Bool.eq_not_of_ne other, Bool.not_not]
    exact .inr (eq_signedInf ia).symm

theorem floatSub_inf_right (ha : floatExp a < 2047) (ib : floatIsInf b = true) :
    floatSub a b = some (signedInf (!floatSign b)) := by
  rw [floatSub, floatAdd_of_inf_right ha ((floatIsInf_floatNeg b).trans ib), floatNeg_of_isInf ib]

theorem floatMul_inf (na : floatIsNaN a = false) (nb : floatIsNaN b = false) (za : floatIsZero a = false)
    (zb : floatIsZero b = false) (h : floatIsInf a = true ∨ floatIsInf b = true) :
    floatMul a b = some (signedInf (floatSign a != floatSign b)) := by
  rw [floatMul_of_inf na nb h, if_neg (by simp [za, zb])]

theorem floatDiv_inf_left (ia : floatIsInf a = true) (hb : floatExp b < 2047) :
    floatDiv a b = some (signedInf (floatSign a != floatSign b)) := by
  rw [floatDiv_of_inf_left ia (floatIsNaN_of_finite hb), if_neg (by simp [floatIsInf_of_finite hb])]

end

/-- Settles O33, each clause by its own lemma. -/
theorem floatSpecialCases : Obligations.FloatSpecialCases := by
  intro a b neg
  refine ⟨floatAdd_eq_none_iff a b, floatSub_eq_none_iff a b, floatMul_eq_none_iff a b,
    floatDiv_eq_none_iff a b, fun ha hb => ⟨floatAdd_of_sum_zero ha hb, floatSub_of_difference_zero ha hb,
      floatMul_of_zero ha hb, floatDiv_of_zero_dividend ha hb, floatDiv_of_zero_divisor ha hb⟩,
    fun ia => ⟨floatAdd_inf_left ia, floatSub_inf_left ia, fun nb zb => ?mulLeft, floatDiv_inf_left ia⟩,
    fun ib ha => ⟨floatAdd_of_inf_right ha ib, floatSub_inf_right ha ib, fun za => ?mulRight,
      floatDiv_of_inf_right ha ib⟩⟩
  case mulLeft => exact floatMul_inf (floatIsNaN_of_isInf ia) nb (floatIsZero_of_isInf ia) zb (.inl ia)
  case mulRight =>
    exact floatMul_inf (floatIsNaN_of_finite ha) (floatIsNaN_of_isInf ib) za (floatIsZero_of_isInf ib) (.inr ib)

end Sys2Proof.Machine
end
